-- ==== Sys2Proof/Word.lean ====
section
/-! DEFINITION. The words of the EZ_Chorus core: the 32-bit word (R7), the 72-bit command and response words (R50, R51). -/

namespace Sys2Proof

/-- "A \"word\" is 32 bits" (R7): an operand, a result, a binary32 datum of profile F32 (R9). -/
abbrev Word := BitVec 32

/-- The 72-bit command word `CW`, "transferred whole" (R50). -/
abbrev CommandWord := BitVec 72

/-- The 72-bit response word `RW` (R51). -/
abbrev ResponseWord := BitVec 72

end Sys2Proof
end

