-- ==== Sys2Proof/Syntax.lean ====
section
/-! DEFINITION. The command set EZC-CMD 1 (R52): the five commands with their operands, and the five parameters (R12, R54). -/

namespace Sys2Proof

/-- The five declared parameters, in the row order of the parameter table (R12, R54). -/
inductive Param where
  | feedback
  | phaseOffset
  | mix
  | chorusDepth
  | chorusRate
  deriving DecidableEq, Repr

/-- The commands of R52, one constructor for each row of the opcode table. Operands are as decoded by R50, R53:
a binary32 datum or a natural stands as its 32 bits, a parameter id as the three bits `A[2:0]`. -/
inductive Instr where
  /-- CFG (R80): `rate` is the binary32 sample rate, `block` the block size. -/
  | cfg (rate block : Word)
  /-- SETP (R71): `id` is `A[2:0]`, `value` the binary32 value. -/
  | setp (id : BitVec 3) (value : Word)
  /-- GETP (R73): `id` is `A[2:0]`. -/
  | getp (id : BitVec 3)
  /-- SMP (R132): the left and the right input sample, binary32 data. -/
  | smp (left right : Word)
  /-- PROC (R133): the number of samples and the number of channels. -/
  | proc (n nch : Word)
  deriving DecidableEq, Repr

end Sys2Proof
end

