-- ==== Sys2Proof/WellFormed.lean ====
section
/-! DEFINITION. Which terms of `Instr` are commands: the parameter id of SETP and GETP names a parameter (R54, R56 (d)). -/

namespace Sys2Proof

/-- "Ids 5, 6 and 7 name no parameter" (R54). -/
def idExists (id : BitVec 3) : Bool := decide (id.toNat ≤ 4)

/-- A command of R52: every operand value is admitted at decoding (R57), but for the range of the parameter id. -/
def Instr.wf : Instr → Bool
  | .cfg _ _ => true
  | .setp id _ => idExists id
  | .getp id => idExists id
  | .smp _ _ => true
  | .proc _ _ => true

end Sys2Proof
end

