-- ==== Sys2Proof/Decode.lean ====
section
/-! DEFINITION. The decoder of command words, total on all 72-bit words (R50, R52, R56, R57), the encoder, and the
opcode table's rows of masks and matches (R52). -/

namespace Sys2Proof

/-- Why a command word is illegal (R56, R152). Each is answered `ERR_ILLEGAL`; the reason is not reported (R150). -/
inductive Reject where
  /-- `OP = 0x00` or `OP` in `0x06 .. 0xFF` (R56 (a)). -/
  | reservedOpcode
  /-- SETP or GETP with `A[31:3] ≠ 0`, or GETP with `B ≠ 0` (R56 (b), (c)). -/
  | reservedField
  /-- SETP or GETP with id 5, 6 or 7 (R56 (d)). -/
  | noSuchParameter
  deriving DecidableEq, Repr

/-- `OP = CW[71:64]` (R50). -/
def opField (w : CommandWord) : BitVec 8 := w.extractLsb' 64 8

/-- `A = CW[63:32]` (R50). -/
def aField (w : CommandWord) : Word := w.extractLsb' 32 32

/-- `B = CW[31:0]` (R50). -/
def bField (w : CommandWord) : Word := w.extractLsb' 0 32

/-- The parameter id `A[2:0]` (R50, R53). -/
def idField (a : Word) : BitVec 3 := a.extractLsb' 0 3

/-- The reserved bits `A[31:3]` of format P (R50). -/
def reservedField (a : Word) : BitVec 29 := a.extractLsb' 3 29

/-- A SETP word after its opcode (R52, R56): the must-be-zero field first, then the id range (R57). -/
def decodeSetp (a b : Word) : Except Reject Instr :=
  if reservedField a ≠ 0#29 then .error .reservedField
  else if idExists (idField a) then .ok (.setp (idField a) b)
  else .error .noSuchParameter

/-- A GETP word after its opcode (R52, R56): the must-be-zero fields first, then the id range (R57). -/
def decodeGetp (a b : Word) : Except Reject Instr :=
  if reservedField a ≠ 0#29 then .error .reservedField
  else if b ≠ 0#32 then .error .reservedField
  else if idExists (idField a) then .ok (.getp (idField a))
  else .error .noSuchParameter

/-- "Decoding is total: every 72-bit word is either exactly one command of rule R52 or illegal by rule R56" (R57). -/
def decode (w : CommandWord) : Except Reject Instr :=
  if opField w = 0x01#8 then .ok (.cfg (aField w) (bField w))
  else if opField w = 0x02#8 then decodeSetp (aField w) (bField w)
  else if opField w = 0x03#8 then decodeGetp (aField w) (bField w)
  else if opField w = 0x04#8 then .ok (.smp (aField w) (bField w))
  else if opField w = 0x05#8 then .ok (.proc (aField w) (bField w))
  else .error .reservedOpcode

/-- The word `{OP, A, B}` (R50). -/
def commandWord (op : BitVec 8) (a b : Word) : CommandWord := op ++ a ++ b

/-- The operand `A` of format P: 29 zero bits and the parameter id (R50). -/
def idOperand (id : BitVec 3) : Word := 0#29 ++ id

/-- The command word of a well-formed command, from the formats of R50 and the opcodes of R52. -/
def encode : Instr → CommandWord
  | .cfg rate block => commandWord 0x01#8 rate block
  | .setp id value => commandWord 0x02#8 (idOperand id) value
  | .getp id => commandWord 0x03#8 (idOperand id) 0#32
  | .smp left right => commandWord 0x04#8 left right
  | .proc n nch => commandWord 0x05#8 n nch

/-- A row of R52's table of masks and matches over the 72-bit word. -/
structure OpcodeRow where
  mnemonic : String
  mask : CommandWord
  pattern : CommandWord
  deriving DecidableEq, Repr

/-- "A word `CW` selects the row when `CW AND mask = match`" (R52). -/
def OpcodeRow.selects (r : OpcodeRow) (w : CommandWord) : Bool := decide (w &&& r.mask = r.pattern)

/-- The row of CFG (R52). -/
def rowCfg : OpcodeRow := ⟨"CFG", 0xFF0000000000000000#72, 0x010000000000000000#72⟩
/-- The row of SETP (R52). -/
def rowSetp : OpcodeRow := ⟨"SETP", 0xFFFFFFFFF800000000#72, 0x020000000000000000#72⟩
/-- The row of GETP (R52). -/
def rowGetp : OpcodeRow := ⟨"GETP", 0xFFFFFFFFF8FFFFFFFF#72, 0x030000000000000000#72⟩
/-- The row of SMP (R52). -/
def rowSmp : OpcodeRow := ⟨"SMP", 0xFF0000000000000000#72, 0x040000000000000000#72⟩
/-- The row of PROC (R52). -/
def rowProc : OpcodeRow := ⟨"PROC", 0xFF0000000000000000#72, 0x050000000000000000#72⟩

/-- The opcode table of R52. -/
def opcodeTable : List OpcodeRow := [rowCfg, rowSetp, rowGetp, rowSmp, rowProc]

/-- The row of R52's table a command belongs to. -/
def Instr.row : Instr → OpcodeRow
  | .cfg _ _ => rowCfg
  | .setp _ _ => rowSetp
  | .getp _ => rowGetp
  | .smp _ _ => rowSmp
  | .proc _ _ => rowProc

/-- The command word whose bits the opcode table numbers `w`: bit 0 is the least significant bit of the one 72-bit
word (R50), and the bits above `nbits` are zero. -/
def tableWord (nbits w : Nat) : CommandWord := BitVec.ofNat 72 (w % 2 ^ nbits)

/-- The command the decoder reads from the bits `w` of a row of the opcode table, none where it rejects the word. -/
def decodeTableWord (nbits w : Nat) : Option Instr :=
  match decode (tableWord nbits w) with
  | .ok i => some i
  | .error _ => none

end Sys2Proof
end

