-- ==== Sys2Proof/Config.lean ====
section
/-! DEFINITION. What an implementation fixes (R6) and the values the spec leaves open: the record `Config` of the OPEN
parameters, and the opaque constants (no body: nothing can be proved of their values beyond their types). -/

namespace Sys2Proof

/-- The OPEN parameters of R6 that are data: "None of it is state: no operation changes it". The scalar type `S` is
that of the numerics profile. `N` and `SINF` are not here: the profile is the engine's type and `SINF` a constant. -/
structure Config (S : Type) where
  /-- `T_MAX`, in seconds, with `T_MAX > T_HI` (R6, D2). -/
  tMax : S
  /-- `RAM_WORDS`, `1 <= RAM_WORDS <= 2^24` (R6, D7). -/
  ramWords : Nat
  /-- `SB_CH >= 2` (R6, D23). -/
  sbCh : Nat
  /-- `SB_LEN`, `1 <= SB_LEN < 2^32` (R6, D23). -/
  sbLen : Nat
  /-- `PARAM_STALE`, default false (R6, D25). -/
  paramStale : Bool
  /-- `CTRL_INTERLEAVE`, default true (R6, D17). -/
  ctrlInterleave : Bool
  deriving DecidableEq, Repr

/-- The IEEE 754 operations that can produce a NaN (R9, U16). -/
inductive FloatOp where
  | add
  | sub
  | mul
  | div
  deriving DecidableEq, Repr

/-- `SINF` (R6, D5): a function of its argument alone, every result a sign and a magnitude word of at most
`0x3F800000`, that is a finite binary32 in `[-1, 1]` (R9, R180); `SINF(+0) = +0` is built in where it is used
(`Machine.F32.sinf`). See log entry 5. -/
opaque Config.sine : Word → Bool × Fin 0x3F800001

/-- The sine of profile REAL at a phase in `[0, 1)` that is none of the points R9 lists, as a fraction with
denominator one above the second component; cut to `[-1, 1]` where it is used (`Machine.Real.sin2pi`). Log entry 6. -/
opaque Config.sineReal : Rat → Int × Nat

/-- "Which NaN (sign, payload) an invalid binary32 operation produces" (U16): any NaN, a function of the operation
and its operands (R138). The second component is the fraction field less one. Log entry 7. -/
opaque Config.nanChoice : FloatOp → Word → Word → Bool × Fin 0x7FFFFF

/-- Free 32-bit words: binary32 data the spec leaves unspecified (U1, U2, U13), read at the engine's counter. -/
opaque Config.freeWord : Nat → Word

/-- Free rationals: the same under profile REAL. -/
opaque Config.freeRat : Nat → Rat

/-- Free naturals: naturals the spec leaves unspecified (U1, U2) and the choice of a stale value (U11). -/
opaque Config.freeNat : Nat → Nat

/-- How far `T_MAX` of the implementation's chip lies above `T_HI`, in binary32 steps; `T_MAX` itself is OPEN (D2, N2). -/
opaque Config.tMaxSteps : Fin 0x428A3D70

/-- `RAM_WORDS - 1` of the implementation's chip (R6: `1 <= RAM_WORDS <= 2^24`). -/
opaque Config.ramWordsPred : Fin 0x1000000

/-- `SB_CH - 2` of the implementation's chip (R6: `SB_CH >= 2`). -/
opaque Config.sbChExtra : Nat

/-- `SB_LEN - 1` of the implementation's chip (R6: `1 <= SB_LEN < 2^32`). -/
opaque Config.sbLenPred : Fin 0xFFFFFFFF

namespace Machine

/-- One value for each of the five parameters: the registers `P[k]` (R11), a snapshot (R131), a history (R41). -/
structure Params (α : Type) where
  feedback : α
  phaseOffset : α
  mix : α
  chorusDepth : α
  chorusRate : α
  deriving DecidableEq, Repr

/-- One value for each channel, 0 = left and 1 = right (R2, R139). -/
structure Stereo (α : Type) where
  left : α
  right : α
  deriving DecidableEq, Repr

end Machine

end Sys2Proof
end

