-- ==== Sys2Proof/Machine/Numerics.lean ====
section
/-! DEFINITION. The numerics record `N` (R8), the constants written with it (R6), the parameter table (R12), and the
access to one of five parameters. -/

namespace Sys2Proof.Machine

/-- The numerics record of R8: "every arithmetic rule of the spec is stated through it and through nothing else".
`lit num den` is the scalar of the decimal literal `num / den`. `floorNat` is partial because R8 defines it for
`a >= 0` only. `dec32` answers none for R8's `NotANumber`. `isFinite` is the test of R82 ("if prod is not finite").
`free` gives scalars the spec leaves unspecified (U1, U2, U13). -/
structure Numerics (S : Type) where
  lit : Int → Nat → S
  add : S → S → S
  sub : S → S → S
  mul : S → S → S
  div : S → S → S
  lt : S → S → Bool
  gt : S → S → Bool
  le : S → S → Bool
  ge : S → S → Bool
  ofNat : Nat → S
  floorNat : S → Option Nat
  isFinite : S → Bool
  sin2pi : S → S
  dec32 : Word → Option S
  enc32 : S → Word
  free : Nat → S

variable {S : Type}

/-- `lit(0)`. -/
def Numerics.zero (N : Numerics S) : S := N.lit 0 1
/-- `lit(1)`. -/
def Numerics.one (N : Numerics S) : S := N.lit 1 1
/-- `lit(-1)`. -/
def Numerics.negOne (N : Numerics S) : S := N.lit (-1) 1
/-- `T_LO = lit(0.005)` (R6). -/
def Numerics.tLo (N : Numerics S) : S := N.lit 5 1000
/-- `T_HI = lit(0.03)` (R6). -/
def Numerics.tHi (N : Numerics S) : S := N.lit 3 100

/-- A row of the parameter table: `PMIN[k]`, `PMAX[k]`, `PDEF[k]` (R12). -/
structure Range (S : Type) where
  min : S
  max : S
  dflt : S
  deriving DecidableEq, Repr

/-- The parameter table, "constant (a ROM, not state)" (R12). -/
def paramTable (N : Numerics S) : Params (Range S) where
  feedback := ⟨N.lit 0 1, N.lit 98 100, N.lit 5 10⟩
  phaseOffset := ⟨N.lit 0 1, N.lit 1 1, N.lit 0 1⟩
  mix := ⟨N.lit 0 1, N.lit 1 1, N.lit 5 10⟩
  chorusDepth := ⟨N.lit 0 1, N.lit 1 1, N.lit 5 10⟩
  chorusRate := ⟨N.lit 0 1, N.lit 5 1, N.lit 5 10⟩

variable {α β : Type}

/-- The entry of parameter `k`. -/
def Params.get (p : Params α) : Param → α
  | .feedback => p.feedback
  | .phaseOffset => p.phaseOffset
  | .mix => p.mix
  | .chorusDepth => p.chorusDepth
  | .chorusRate => p.chorusRate

/-- The entry of parameter `k` replaced, the other four kept. -/
def Params.set (p : Params α) (k : Param) (v : α) : Params α :=
  match k with
  | .feedback => { p with feedback := v }
  | .phaseOffset => { p with phaseOffset := v }
  | .mix => { p with mix := v }
  | .chorusDepth => { p with chorusDepth := v }
  | .chorusRate => { p with chorusRate := v }

/-- One entry for each parameter, by a function of its number. -/
def Params.tabulate (f : Param → α) : Params α where
  feedback := f .feedback
  phaseOffset := f .phaseOffset
  mix := f .mix
  chorusDepth := f .chorusDepth
  chorusRate := f .chorusRate

/-- The number `k` of a parameter (R12). -/
def paramIndex : Param → Nat
  | .feedback => 0
  | .phaseOffset => 1
  | .mix => 2
  | .chorusDepth => 3
  | .chorusRate => 4

/-- The defaults `PDEF[k]` that power-on reset loads (R25, R70). -/
def paramDefaults (N : Numerics S) : Params S := Params.tabulate fun k => ((paramTable N).get k).dflt

/-- "for c in 0..1": the same for both channels. -/
def Stereo.map (f : α → β) (x : Stereo α) : Stereo β := ⟨f x.left, f x.right⟩

end Sys2Proof.Machine
end

