-- ==== Sys2Proof/Machine/Float32.lean ====
section
/-! DEFINITION. Profile F32 (R9): IEEE 754 binary32, every operation rounded once, to nearest, ties to even, subnormals
kept. Every finite datum is a whole multiple of the UNIT `2^-149`; exact results are formed in units with naturals and
integers and rounded once by `roundUnits`. -/

namespace Sys2Proof.Machine

/-- Bit 31 (R9). -/
def F32.sign (a : Word) : Bool := decide (2 ^ 31 ≤ a.toNat)

/-- Bits 30:0, exponent field and fraction: for data that are not NaNs, the order of the magnitudes. -/
def F32.mag (a : Word) : Nat := a.toNat % 2 ^ 31

/-- The datum of a sign and of the bits 30:0. -/
def F32.ofParts (neg : Bool) (m : Nat) : Word := BitVec.ofNat 32 (if neg then 2 ^ 31 + m else m)

/-- The magnitude word of an infinity: exponent field 255, fraction 0. -/
def F32.infMag : Nat := 0x7F800000

/-- Exponent field 255 and a fraction that is not 0. -/
def F32.isNaN (a : Word) : Bool := decide (F32.infMag < F32.mag a)
/-- Exponent field 255 and fraction 0. -/
def F32.isInf (a : Word) : Bool := decide (F32.mag a = F32.infMag)
/-- Neither an infinity nor a NaN. -/
def F32.isFinite (a : Word) : Bool := decide (F32.mag a < F32.infMag)

/-- How many units (`2^-149`) a magnitude word stands for: exponent field 0 is a subnormal, exponent field `e >= 1`
adds the hidden bit and counts in `2^(e-1)` units. An infinity counts more than every finite datum. -/
def F32.units (m : Nat) : Nat :=
  if m / 2 ^ 23 = 0 then m % 2 ^ 23 else (2 ^ 23 + m % 2 ^ 23) * 2 ^ (m / 2 ^ 23 - 1)

/-- The value of a datum that is not a NaN, in units; both zeros have value 0. -/
def F32.val (a : Word) : Int :=
  if F32.sign a then -(F32.units (F32.mag a) : Int) else (F32.units (F32.mag a) : Int)

/-- `num / den` rounded to a whole number, to nearest, ties to even. -/
def F32.roundHalfEven (num den : Nat) : Nat :=
  if den < 2 * (num % den) then num / den + 1
  else if 2 * (num % den) = den then num / den + num / den % 2
  else num / den

/-- How many low bits a magnitude of `n` units has to lose to keep 24 significant bits. -/
def F32.excess (n : Nat) : Nat := Nat.log2 n - 23

/-- The magnitude word nearest to `num / den` units, ties to even; an infinity from half a step above the largest finite
datum on (IEEE 754 default handling of overflow, R9, D4). A significand that rounds up to `2^24` carries into the
exponent field by itself. -/
def F32.roundUnits (num den : Nat) : Nat :=
  min (F32.excess (num / den) * 2 ^ 23 + F32.roundHalfEven num (den * 2 ^ F32.excess (num / den))) F32.infMag

/-- The datum nearest to `x / den` units with `x` a nonzero integer (the sign is `x`'s). -/
def F32.round (x : Int) (den : Nat) : Word := F32.ofParts (decide (x < 0)) (F32.roundUnits x.natAbs den)

/-- A NaN, which one being free (U16). -/
def F32.nan (op : FloatOp) (a b : Word) : Word :=
  F32.ofParts (Config.nanChoice op a b).1 (F32.infMag + 1 + (Config.nanChoice op a b).2.val)

/-- The sum of two data that are not NaNs, the NaN case given. An exact zero sum is `+0`, but `-0` of two negative zeros
(round to nearest). -/
def F32.addWith (nan a b : Word) : Word :=
  if F32.isInf a then if F32.isInf b && (F32.sign a != F32.sign b) then nan else a
  else if F32.isInf b then b
  else if F32.val a + F32.val b = 0 then F32.ofParts (F32.sign a && F32.sign b) 0
  else F32.round (F32.val a + F32.val b) 1

/-- The datum with its sign bit inverted. -/
def F32.neg (a : Word) : Word := F32.ofParts (!F32.sign a) (F32.mag a)

/-- `add` of profile F32. -/
def F32.add (a b : Word) : Word :=
  if F32.isNaN a || F32.isNaN b then F32.nan .add a b else F32.addWith (F32.nan .add a b) a b

/-- `sub` of profile F32: the sum with the second operand's sign inverted. -/
def F32.sub (a b : Word) : Word :=
  if F32.isNaN a || F32.isNaN b then F32.nan .sub a b else F32.addWith (F32.nan .sub a b) a (F32.neg b)

/-- `mul` of profile F32; an infinity times a zero is a NaN. -/
def F32.mul (a b : Word) : Word :=
  if F32.isNaN a || F32.isNaN b then F32.nan .mul a b
  else if F32.isInf a || F32.isInf b then
    if F32.mag a = 0 || F32.mag b = 0 then F32.nan .mul a b
    else F32.ofParts (F32.sign a != F32.sign b) F32.infMag
  else F32.ofParts (F32.sign a != F32.sign b)
    (F32.roundUnits (F32.units (F32.mag a) * F32.units (F32.mag b)) (2 ^ 149))

/-- `div` of profile F32; `0/0` and `∞/∞` are NaNs, a nonzero finite datum over a zero is an infinity. -/
def F32.div (a b : Word) : Word :=
  if F32.isNaN a || F32.isNaN b then F32.nan .div a b
  else if F32.isInf a then
    if F32.isInf b then F32.nan .div a b else F32.ofParts (F32.sign a != F32.sign b) F32.infMag
  else if F32.isInf b then F32.ofParts (F32.sign a != F32.sign b) 0
  else if F32.mag b = 0 then
    if F32.mag a = 0 then F32.nan .div a b else F32.ofParts (F32.sign a != F32.sign b) F32.infMag
  else F32.ofParts (F32.sign a != F32.sign b)
    (F32.roundUnits (F32.units (F32.mag a) * 2 ^ 149) (F32.units (F32.mag b)))

/-- "any comparison with a NaN is false; -0 = +0" (R9). -/
def F32.lt (a b : Word) : Bool := !F32.isNaN a && !F32.isNaN b && decide (F32.val a < F32.val b)
/-- Not above, false with a NaN. -/
def F32.le (a b : Word) : Bool := !F32.isNaN a && !F32.isNaN b && decide (F32.val a ≤ F32.val b)

/-- The binary32 nearest to the decimal literal `num / den`, ties to even (R9). -/
def F32.lit (num : Int) (den : Nat) : Word := F32.round (num * 2 ^ 149) den

/-- The scalar of a natural, exact up to `2^24` (R9). -/
def F32.ofNat (n : Nat) : Word := F32.ofParts false (F32.roundUnits (n * 2 ^ 149) 1)

/-- "`floorNat(a)` is exact" (R9); for finite data not below zero (R8). -/
def F32.floorNat (a : Word) : Option Nat :=
  if F32.isFinite a && decide (0 ≤ F32.val a) then some (F32.units (F32.mag a) / 2 ^ 149) else none

/-- `TWO_PI`, the binary32 nearest to 2π (R9). -/
def F32.twoPi : Word := 0x40C90FDB#32

/-- `SINF`: `+0` at `+0`, elsewhere free within `[-1, 1]` (R9, D5). -/
def F32.sinf (a : Word) : Word :=
  if a = 0#32 then 0#32 else F32.ofParts (Config.sine a).1 (Config.sine a).2.val

/-- `sin2pi(p) = SINF(mul(TWO_PI, p))` (R9). -/
def F32.sin2pi (p : Word) : Word := F32.sinf (F32.mul F32.twoPi p)

/-- Profile F32 of the numerics record (R9): `dec32(w) = w` and `enc32(v) = v`. -/
def f32 : Numerics Word where
  lit := F32.lit
  add := F32.add
  sub := F32.sub
  mul := F32.mul
  div := F32.div
  lt := F32.lt
  gt a b := F32.lt b a
  le := F32.le
  ge a b := F32.le b a
  ofNat := F32.ofNat
  floorNat := F32.floorNat
  isFinite := F32.isFinite
  sin2pi := F32.sin2pi
  dec32 w := some w
  enc32 v := v
  free := Config.freeWord

/-- The implementation's own configuration, in profile F32 ("this hardware's datapath", R9): the OPEN values free within
R6's constraints, the two options at the defaults R6 gives. Every finite binary32 above `T_HI = 0x3CF5C28F` is a
possible `T_MAX`. Log entry 4. -/
def chipConfig : Config Word where
  tMax := BitVec.ofNat 32 (0x3CF5C290 + Config.tMaxSteps.val)
  ramWords := Config.ramWordsPred.val + 1
  sbCh := Config.sbChExtra + 2
  sbLen := Config.sbLenPred.val + 1
  paramStale := false
  ctrlInterleave := true

end Sys2Proof.Machine
end

