-- ==== Sys2Proof/Machine/Exact.lean ====
section
/-! DEFINITION. Profile REAL (R9), over the rationals: "A model that must compute may take `S` to be the rationals: every
rule except `sin2pi` stays inside the rationals when its inputs are rational". -/

namespace Sys2Proof.Machine

/-- The exact value of a finite binary32 datum (R9). -/
def Exact.ofDatum (w : Word) : Rat := mkRat (F32.val w) (2 ^ 149)

/-- `dec32` of profile REAL: none, that is `NotANumber`, for a NaN or an infinity (R9). -/
def Exact.dec32 (w : Word) : Option Rat := if F32.isFinite w then some (Exact.ofDatum w) else none

/-- `enc32` of profile REAL: "`v` rounded to nearest binary32, ties to even" (R9). -/
def Exact.enc32 (v : Rat) : Word := F32.round (v.num * 2 ^ 149) v.den

/-- The sine at a phase in `[0, 1)`: exact at the points R9 lists, elsewhere free within `[-1, 1]`. -/
def Exact.sineUnit (p : Rat) : Rat :=
  if p = 0 then 0
  else if p = mkRat 1 2 then 0
  else if p = mkRat 1 4 then 1
  else if p = mkRat 3 4 then -1
  else if p = mkRat 1 12 then mkRat 1 2
  else if p = mkRat 5 12 then mkRat 1 2
  else if p = mkRat 7 12 then mkRat (-1) 2
  else if p = mkRat 11 12 then mkRat (-1) 2
  else max (-1) (min 1 (mkRat (Config.sineReal p).1 ((Config.sineReal p).2 + 1)))

/-- `sin2pi` of profile REAL: periodic with period 1 (R9). -/
def Exact.sin2pi (p : Rat) : Rat := Exact.sineUnit (p - p.floor)

/-- Profile REAL of the numerics record (R9). -/
def real : Numerics Rat where
  lit num den := mkRat num den
  add a b := a + b
  sub a b := a - b
  mul a b := a * b
  div a b := a / b
  lt a b := decide (a < b)
  gt a b := decide (b < a)
  le a b := decide (a ≤ b)
  ge a b := decide (b ≤ a)
  ofNat n := (n : Rat)
  floorNat a := if 0 ≤ a then some a.floor.toNat else none
  isFinite _ := true
  sin2pi := Exact.sin2pi
  dec32 := Exact.dec32
  enc32 := Exact.enc32
  free := Config.freeRat

end Sys2Proof.Machine
end

