-- ==== Sys2Proof/Machine/State.lean ====
section
/-! DEFINITION. The state of the machine (R10, R22, R23, R32, R41), its faults and refusals, and the state right after
power-on reset (R25, R170). -/

namespace Sys2Proof.Machine

/-- The outcome a response reports (R55): `OK`, `ERR_CONFIG`, `ERR_ILLEGAL`. -/
inductive Status where
  | ok
  | errConfig
  | errIllegal
  deriving DecidableEq, Repr

/-- A response: "exactly one 72-bit response word `RW`" for each command (R51). `Response.word` gives the word. -/
structure Response where
  status : Status
  res0 : Word
  res1 : Word
  deriving DecidableEq, Repr

/-- A memory of sample words (R30): cells of an address (channel, index) and a scalar, addresses strictly rising, no
cell equal to what an unlisted address reads as (`lit(0)`, log entry 9). `Memory.wf` is that form. -/
abbrev Memory (S : Type) := List ((Nat × Nat) × S)

/-- What the outside world does to the machine, in the order it does it. -/
inductive HostAct (S : Type) where
  /-- A command word presented at the command port (R38, R50). -/
  | command (w : CommandWord)
  /-- The host stores the scalar `v` to `SB(ch, idx)` (R32, R61). -/
  | store (ch idx : Nat) (v : S)
  /-- Power-on, or the reset input (R170). -/
  | reset
  deriving DecidableEq, Repr

/-- The chorus engine over the scalars `S` of a numerics profile: the configuration it is built with, the architectural
state of R10, the hidden history of the option `PARAM_STALE` (R22, R41), the host's sample buffer (R32) and the
interface to the host. -/
structure Engine (S : Type) where
  /-- The OPEN parameters (R6): no operation changes them. -/
  cfg : Config S
  /-- `P[k]`, the five parameter registers (R11). -/
  p : Params S
  /-- `FS`, the sample rate of the session in Hz (R14). -/
  fs : S
  /-- `BS`, the block size of the session, a natural below `2^32` (R14). -/
  bs : Nat
  /-- `CAP`, the capacity of each delay buffer in samples (R14). -/
  cap : Nat
  /-- `READY`: a session is configured (R17). -/
  ready : Bool
  /-- `WH`, the one write head (R15). -/
  wh : Nat
  /-- `PHASE`, the shared LFO base phase in cycles (R16). -/
  phase : S
  /-- `FB[0]` and `FB[1]`, the feedback states (R18). -/
  fb : Stereo S
  /-- `DL[c][i]` at the address `(c, i)`: the words of the two delay RAMs below `CAP` (R19, R31). -/
  dl : Memory S
  /-- `SB(ch, idx)`, the sample buffer: the host's, lent to the core during a PROC (R32). -/
  sb : Memory S
  /-- With `PARAM_STALE`: the values each register gave up between the start of the previous PROC (or reset) and the
  start of the latest one (R22, R41). -/
  histPrev : Params (List S)
  /-- With `PARAM_STALE`: the values each register gave up since the start of the latest PROC (or reset) (R22, R41). -/
  histCur : Params (List S)
  /-- What the host does next, oldest first: the command port and the host's own stores (R38). The model's own. -/
  port : List (HostAct S)
  /-- For each gap between the sample steps of the coming PROCs, how many of the host's next acts fall into it (R137,
  U10, U13). The model's own: placement is the host's timing. -/
  gaps : List Nat
  /-- The responses given, oldest first, in command order (R51, R162). The model's own. -/
  responses : List Response
  /-- Counts the free values taken (U1, U2, U11, U13). The model's own. -/
  fresh : Nat
  deriving DecidableEq, Repr

/-- The engine in one of the two numerics profiles (R6, R9). -/
inductive Datapath where
  /-- Profile F32. -/
  | f32 (e : Engine Word)
  /-- Profile REAL, over the rationals. -/
  | real (e : Engine Rat)
  deriving DecidableEq, Repr

/-- The state of the machine: an engine in its profile. -/
structure State where
  engine : Datapath
  deriving DecidableEq, Repr

/-- The state that holds an F32 engine. -/
abbrev State.f32 (e : Engine Word) : State := ⟨.f32 e⟩

/-- The state that holds a REAL engine. -/
abbrev State.real (e : Engine Rat) : State := ⟨.real e⟩

/-- Why a step stops. The spec's two errors are responses, not faults (R150); no fault is reachable from a state that
meets the invariant but by a host store outside the sample buffer. -/
inductive Fault where
  /-- An access to `DL[c][i]` with `i` not below `CAP`: such words "do not exist for the session" (R19). Raised by
  DLWRITE and INTERP. Safe: no state a run reaches raises it (R142). -/
  | delayRange
  /-- `floorNat` of a scalar that is negative or not a finite number, to which R8 gives no value. Raised by INTERP.
  Safe: no state a run reaches raises it (R111). -/
  | floorDomain
  /-- A PROC's access to an element of `SB` that does not exist. Safe: R136's check comes first. -/
  | sampleRange
  /-- A store by the host to an element of `SB` that does not exist (R32). Raised by the host's act, by no command. Safe. -/
  | hostStoreRange
  deriving DecidableEq, Repr

/-- Why a command has no meaning in the model. Every command of the opcode table has one, so no step raises this. -/
inductive Refusal where
  /-- An instruction of the opcode table with no meaning yet, by its mnemonic. Raised by `exec`'s arms only. Safe. -/
  | notModelled (mnemonic : String)
  deriving DecidableEq, Repr

variable {S : Type}

/-- Five empty histories. -/
def emptyHistory : Params (List S) := ⟨[], [], [], [], []⟩

/-- The engine right after power-on (R25, column "after power-on reset"): parameters at their defaults, feedback zero,
`READY = 0`, `CAP = 0`; `FS`, `BS`, `WH`, `PHASE` are unspecified and hold zero here (log entry 1, DESIGN CHOICE; R25:
"none can be observed"). The sample buffer is the host's and holds nothing it has written (log entry 9). -/
def Engine.reset (N : Numerics S) (cfg : Config S) : Engine S where
  cfg := cfg
  p := paramDefaults N
  fs := N.zero
  bs := 0
  cap := 0
  ready := false
  wh := 0
  phase := N.zero
  fb := ⟨N.zero, N.zero⟩
  dl := []
  sb := []
  histPrev := emptyHistory
  histCur := emptyHistory
  port := []
  gaps := []
  responses := []
  fresh := 0

/-- The machine right after reset: profile F32, "this hardware's datapath" (R9), with the configuration of the chip. -/
def State.reset : State := State.f32 (Engine.reset Machine.f32 chipConfig)

/-- The same under profile REAL, for a given configuration. -/
def State.resetReal (cfg : Config Rat) : State := State.real (Engine.reset Machine.real cfg)

end Sys2Proof.Machine
end

