-- ==== Sys2Proof/Machine/Flags.lean ====
section
/-! DEFINITION. The core "has no condition codes, carry or overflow flags, and no predicate registers" (R21). Its one flag
is `READY` (R17); its one status is a response's status field (R55). -/

namespace Sys2Proof.Machine

variable {S : Type}

/-- Status values (R55). -/
def Status.code : Status → BitVec 8
  | .ok => 0x00#8
  | .errConfig => 0x01#8
  | .errIllegal => 0x02#8

/-- The response word `{STATUS, RES0, RES1}` (R51). -/
def Response.word (r : Response) : ResponseWord := Status.code r.status ++ r.res0 ++ r.res1

/-- `READY <- 1` (R84) or `READY <- 0` (R85). -/
def Engine.setReady (b : Bool) (e : Engine S) : Engine S := { e with ready := b }

end Sys2Proof.Machine
end

