-- ==== Sys2Proof/Machine/Memory.lean ====
section
/-! DEFINITION. Memories of sample words in canonical form: read, write, fill. -/

namespace Sys2Proof.Machine

variable {S : Type}

/-- The order of addresses: by channel, then by index. -/
def addrBefore (a b : Nat × Nat) : Bool := decide (a.1 < b.1) || (decide (a.1 = b.1) && decide (a.2 < b.2))

/-- The scalar at an address; `dflt` where nothing is listed. -/
def Memory.read (dflt : S) : Memory S → Nat × Nat → S
  | [], _ => dflt
  | (k, v) :: rest, a => if k = a then v else Memory.read dflt rest a

/-- The memory with `v` at `a`, in canonical form: a word that equals `dflt` is not listed. -/
def Memory.write [DecidableEq S] (dflt : S) : Memory S → Nat × Nat → S → Memory S
  | [], a, v => if v = dflt then [] else [(a, v)]
  | (k, x) :: rest, a, v =>
    if k = a then if v = dflt then rest else (a, v) :: rest
    else if addrBefore a k then if v = dflt then (k, x) :: rest else (a, v) :: (k, x) :: rest
    else (k, x) :: Memory.write dflt rest a v

/-- Every listed address comes after `a`, in rising order, and no listed word equals `dflt`. -/
def Memory.wfAfter [DecidableEq S] (dflt : S) (a : Nat × Nat) : Memory S → Bool
  | [] => true
  | (k, v) :: rest => addrBefore a k && decide (v ≠ dflt) && Memory.wfAfter dflt k rest

/-- The canonical form: addresses strictly rising, no listed word equal to `dflt`. -/
def Memory.wf [DecidableEq S] (dflt : S) : Memory S → Bool
  | [] => true
  | (k, v) :: rest => decide (v ≠ dflt) && Memory.wfAfter dflt k rest

/-- Words `0 .. n-1` of channel `ch` written, word `i` with `f i`. -/
def Memory.fillRow [DecidableEq S] (dflt : S) (f : Nat → S) (ch : Nat) : Nat → Memory S → Memory S
  | 0, m => m
  | n + 1, m => Memory.write dflt (Memory.fillRow dflt f ch n m) (ch, n) (f n)

/-- The rows of the `count` channels from `first` on written, word `i` of channel `ch` with `f ch i`. -/
def Memory.fillRows [DecidableEq S] (dflt : S) (f : Nat → Nat → S) (n first : Nat) : Nat → Memory S → Memory S
  | 0, m => m
  | count + 1, m =>
    Memory.fillRow dflt (f (first + count)) (first + count) n (Memory.fillRows dflt f n first count m)

/-- Every listed address is below `rows` in its channel and below `cols` in its index. -/
def Memory.within (rows cols : Nat) (m : Memory S) : Bool :=
  m.all fun c => decide (c.1.1 < rows) && decide (c.1.2 < cols)

end Sys2Proof.Machine
end

