-- ==== Sys2Proof/Machine/Operands.lean ====
section
/-! DEFINITION. How the operands of a command are read (R50, R53). -/

namespace Sys2Proof.Machine

/-- "A natural operand `w` stands for the unsigned value of its 32 bits" (R53). -/
def naturalOperand (w : Word) : Nat := w.toNat

/-- A NaN or an infinity: exponent field `[30:23] = 0xFF` (R72, R81, R153). -/
def notFinite (w : Word) : Bool := decide (w.extractLsb' 23 8 = 0xFF#8)

/-- The parameter of an id, "the parameter id is `zext(A[2:0])`" (R53, R54); none for ids 5 to 7. -/
def paramOfId (id : BitVec 3) : Option Param :=
  if id = 0#3 then some .feedback
  else if id = 1#3 then some .phaseOffset
  else if id = 2#3 then some .mix
  else if id = 3#3 then some .chorusDepth
  else if id = 4#3 then some .chorusRate
  else none

/-- The id of a parameter (R54). -/
def idOfParam (k : Param) : BitVec 3 := BitVec.ofNat 3 (paramIndex k)

end Sys2Proof.Machine
end

