-- ==== Sys2Proof/Machine/Ops.lean ====
section
/-! DEFINITION. The named operations over registers and memories, the way a command ends (R150: `respond`, and the two
errors, which stand in place of exceptions), and the reset event (R170). -/

namespace Sys2Proof.Machine

variable {S : Type}

/-- The outcome of an engine as an outcome of the machine. -/
def mapNext {A B : Type} (f : A → B) : Host.Outcome A Fault Refusal → Host.Outcome B Fault Refusal
  | .next a => .next (f a)
  | .fault r => .fault r
  | .refused r => .refused r

/-- What an operation of the spec, stated through the numerics record (R8), does to a state in its profile. -/
def onEngine (f : {S : Type} → [DecidableEq S] → Numerics S → Engine S → Host.Outcome (Engine S) Fault Refusal)
    (s : State) : Host.Outcome State Fault Refusal :=
  match s.engine with
  | .f32 e => mapNext State.f32 (f Machine.f32 e)
  | .real e => mapNext State.real (f Machine.real e)

/-! Responses (R150). -/

/-- `respond(status, r0, r1)`: the command's one response (R7, R51). -/
def respond (status : Status) (r0 r1 : Word) (e : Engine S) : Engine S :=
  { e with responses := e.responses ++ [⟨status, r0, r1⟩] }

/-- `respond(OK, r0, r1)` (R150). -/
def respondOk (r0 r1 : Word) (e : Engine S) : Engine S := respond .ok r0 r1 e

/-- `raise ConfigError(cause)`: `ERR_CONFIG`, both results 0; the causes are not reported (R7, R150, R151). -/
def raiseConfig (e : Engine S) : Engine S := respond .errConfig 0#32 0#32 e

/-- `raise IllegalCommand(cause)`: `ERR_ILLEGAL`, both results 0, "changes no state" (R7, R56, R150, R152). -/
def raiseIllegal (e : Engine S) : Engine S := respond .errIllegal 0#32 0#32 e

/-! Memories (R30, R31, R32). -/

/-- `MemRead(DL[c], i)`: none where `i` is not below `CAP` (R19, R31). -/
def dlRead (N : Numerics S) (e : Engine S) (c i : Nat) : Option S :=
  if i < e.cap then some (Memory.read N.zero e.dl (c, i)) else none

/-- `MemWrite(DL[c], i, v)`: none where `i` is not below `CAP` (R19, R31). -/
def dlWrite [DecidableEq S] (N : Numerics S) (e : Engine S) (c i : Nat) (v : S) : Option (Engine S) :=
  if i < e.cap then some { e with dl := Memory.write N.zero e.dl (c, i) v } else none

/-- The element `(ch, idx)` of `SB` exists (R30). -/
def sbExists (e : Engine S) (ch idx : Nat) : Bool := decide (ch < e.cfg.sbCh) && decide (idx < e.cfg.sbLen)

/-- `MemRead(SB, (ch, idx))`. -/
def sbRead (N : Numerics S) (e : Engine S) (ch idx : Nat) : Option S :=
  if sbExists e ch idx then some (Memory.read N.zero e.sb (ch, idx)) else none

/-- `MemWrite(SB, (ch, idx), v)`. -/
def sbWrite [DecidableEq S] (N : Numerics S) (e : Engine S) (ch idx : Nat) (v : S) : Option (Engine S) :=
  if sbExists e ch idx then some { e with sb := Memory.write N.zero e.sb (ch, idx) v } else none

/-! Parameter registers and their histories (R11, R22, R41). -/

/-- A value added to the end of parameter `k`'s history. -/
def remember (k : Param) (v : S) (h : Params (List S)) : Params (List S) := Params.set h k (Params.get h k ++ [v])

/-- `P[k] <- v`; with `PARAM_STALE` the value given up joins the history (R22, R41). -/
def setParamRegister (k : Param) (v : S) (e : Engine S) : Engine S :=
  { e with
    p := Params.set e.p k v
    histCur := if e.cfg.paramStale then remember k (Params.get e.p k) e.histCur else e.histCur }

/-- The start of a PROC that is not refused: what the histories count as "the previous PROC" moves on (R41, log entry 12). -/
def startBlock (e : Engine S) : Engine S :=
  { e with
    histPrev := if e.cfg.paramStale then e.histCur else e.histPrev
    histCur := if e.cfg.paramStale then emptyHistory else e.histCur }

/-- The values parameter `k` held since the start of the previous PROC (since reset if there is none), the present one
last (R41). Inside a PROC the previous one is the one before it; outside, the latest one. -/
def staleValues (inBlock : Bool) (e : Engine S) (k : Param) : List S :=
  (if inBlock then Params.get e.histPrev k else []) ++ Params.get e.histCur k ++ [Params.get e.p k]

/-- A stale read of parameter `k`: any of `staleValues`, "chosen independently per parameter and per step" (R41, U11). -/
def staleRead (inBlock : Bool) (e : Engine S) (k : Param) : S :=
  (staleValues inBlock e k).getD
    (Config.freeNat (e.fresh + paramIndex k) % (staleValues inBlock e k).length) (Params.get e.p k)

/-- The parameter snapshot at the start of a sample step (R131): `P[k]`, or with `PARAM_STALE` a stale read of each. -/
def snapshot (inBlock : Bool) (e : Engine S) : Params S :=
  if e.cfg.paramStale then Params.tabulate (staleRead inBlock e) else e.p

/-- The free values a snapshot used up. -/
def afterSnapshot (e : Engine S) : Engine S :=
  { e with fresh := if e.cfg.paramStale then e.fresh + 5 else e.fresh }

/-! What is unspecified after a reset or a failed CFG (R25, R85; U1, U2). -/

/-- `FS`, `BS`, `WH`, `PHASE` at free values, within the types R10 gives them (`BS < 2^32`, `WH <= RAM_WORDS`); no word
of the delay RAMs exists (`CAP = 0`). -/
def unspecifySession (N : Numerics S) (e : Engine S) : Engine S :=
  { e with
    fs := N.free e.fresh
    bs := Config.freeNat (e.fresh + 1) % 2 ^ 32
    wh := Config.freeNat (e.fresh + 2) % (e.cfg.ramWords + 1)
    phase := N.free (e.fresh + 3)
    dl := []
    fresh := e.fresh + 4 }

/-- `FB[0]`, `FB[1]` at free values. -/
def unspecifyFeedback (N : Numerics S) (e : Engine S) : Engine S :=
  { e with fb := ⟨N.free e.fresh, N.free (e.fresh + 1)⟩, fresh := e.fresh + 2 }

/-- The reset event (R170): parameters and feedback states at their construction values, no session, the rest
unspecified. The host's sample buffer, its coming acts and the responses it already has are not the core's. -/
def powerOn (N : Numerics S) (e : Engine S) : Engine S :=
  { unspecifySession N e with
    p := paramDefaults N
    fb := ⟨N.zero, N.zero⟩
    cap := 0
    ready := false
    histPrev := emptyHistory
    histCur := emptyHistory }

end Sys2Proof.Machine
end

