-- ==== Sys2Proof/Machine/ParamStore.lean ====
section
/-! DEFINITION. The parameter store: DECLARE (R70), SETP (R71, R72), GETP (R73). -/

namespace Sys2Proof.Machine

variable {S : Type}

/-- A declaration: the key and its range and default (R70); display name and step size are not hardware (R4). -/
structure Declaration (S : Type) where
  key : Param
  range : Range S
  deriving DecidableEq, Repr

/-- The five declarations of the fixed table, in its row order (R12, R70). -/
def fixedDeclarations (N : Numerics S) : List (Declaration S) :=
  [.feedback, .phaseOffset, .mix, .chorusDepth, .chorusRate].map fun k => ⟨k, Params.get (paramTable N) k⟩

/-- One declaration's checks against the keys declared before it (R70): the key is new, `min <= max`, the default in range. -/
def declarable (N : Numerics S) (before : List Param) (d : Declaration S) : Bool :=
  !before.contains d.key && N.le d.range.min d.range.max
    && N.le d.range.min d.range.dflt && N.le d.range.dflt d.range.max

/-- DECLARE over a table (R70): the defaults by key, or none, the configuration error at construction (R151 (c)): no core
is built from such a table (U19). -/
def declareAll (N : Numerics S) (before : List Param) : List (Declaration S) → Option (List (Param × S))
  | [] => some []
  | d :: rest =>
    if declarable N before d then
      match declareAll N (before ++ [d.key]) rest with
      | none => none
      | some out => some ((d.key, d.range.dflt) :: out)
    else none

/-- "clamps to [min, max]" (R71). -/
def clamp (N : Numerics S) (r : Range S) (v : S) : S :=
  let u := if N.lt v r.min then r.min else v
  if N.gt u r.max then r.max else u

/-- SETP (R71, R72). -/
def setParam (N : Numerics S) (id : BitVec 3) (value : Word) (e : Engine S) : Engine S :=
  match paramOfId id with
  | none => raiseIllegal e
  | some k =>
    if notFinite value then raiseIllegal e
    else
      match N.dec32 value with
      | none => raiseIllegal e
      | some v => respondOk 0#32 0#32 (setParamRegister k (clamp N (Params.get (paramTable N) k) v) e)

/-- GETP (R73): never stale (R41). -/
def getParam (N : Numerics S) (id : BitVec 3) (e : Engine S) : Engine S :=
  match paramOfId id with
  | none => raiseIllegal e
  | some k => respondOk (N.enc32 (Params.get e.p k)) 0#32 e

/-- SETP on the machine (R71). -/
def execSetp (id : BitVec 3) (value : Word) (s : State) : Host.Outcome State Fault Refusal :=
  onEngine (fun N e => .next (setParam N id value e)) s

/-- GETP on the machine (R73). -/
def execGetp (id : BitVec 3) (s : State) : Host.Outcome State Fault Refusal :=
  onEngine (fun N e => .next (getParam N id e)) s

end Sys2Proof.Machine
end

