-- ==== Sys2Proof/Machine/DelayLine.lean ====
section
/-! DEFINITION. The dual-channel circular delay-line buffer: the stage operations DLWRITE (R90), RDPOS (R91), WHADV (R92). -/

namespace Sys2Proof.Machine

variable {S : Type}

/-- `w[c] = add(x[c], FB[c])`, the words DLWRITE stores (R90). -/
def delayInput (N : Numerics S) (x : Stereo S) (e : Engine S) : Stereo S :=
  ⟨N.add x.left e.fb.left, N.add x.right e.fb.right⟩

/-- DLWRITE (R90, step 1): `w[c]` to `DL[c]` at the write head, both channels. -/
def dlWriteStage [DecidableEq S] (N : Numerics S) (x : Stereo S) (e : Engine S) : Except Fault (Engine S) :=
  match dlWrite N e 0 e.wh (delayInput N x e).left with
  | none => .error .delayRange
  | some e₁ =>
    match dlWrite N e₁ 1 e.wh (delayInput N x e).right with
    | none => .error .delayRange
    | some e₂ => .ok e₂

/-- `d[c]`, the delay in samples of a delay time (R91). -/
def delaySamples (N : Numerics S) (e : Engine S) (t : S) : S := N.mul e.fs t

/-- The wrap of R91: "wrapped into [0, capacity) by adding capacity if negative", at most once. -/
def wrapPosition (N : Numerics S) (e : Engine S) (rp : S) : S :=
  if N.lt rp N.zero then N.add rp (N.ofNat e.cap) else rp

/-- `rp[c]` of one channel from its delay time (R91). -/
def readPosition (N : Numerics S) (e : Engine S) (t : S) : S :=
  wrapPosition N e (N.sub (N.ofNat e.wh) (delaySamples N e t))

/-- RDPOS (R91, step 5), both channels, from the write head before WHADV. -/
def rdPos (N : Numerics S) (t : Stereo S) (e : Engine S) : Stereo S := Stereo.map (readPosition N e) t

/-- `WH + 1`, "wrap to 0 if it reaches capacity" (R92). -/
def nextHead (cap wh : Nat) : Nat := if cap ≤ wh + 1 then 0 else wh + 1

/-- WHADV (R92, step 8), once for both channels (R93). -/
def whAdv (e : Engine S) : Engine S := { e with wh := nextHead e.cap e.wh }

end Sys2Proof.Machine
end

