-- ==== Sys2Proof/Machine/FeedbackMix.lean ====
section
/-! DEFINITION. The feedback mixer, FBUPD (R120), and the dry/wet summing stage, MIXOUT (R125). -/

namespace Sys2Proof.Machine

variable {S : Type}

/-- `FB[c] = mul(fbk, y[c])` (R120). -/
def feedbackOf (N : Numerics S) (q : Params S) (y : Stereo S) : Stereo S := Stereo.map (N.mul q.feedback) y

/-- FBUPD (R120, step 7): the old value is overwritten, not accumulated. -/
def fbUpd (N : Numerics S) (q : Params S) (y : Stereo S) (e : Engine S) : Engine S :=
  { e with fb := feedbackOf N q y }

/-- The output of one channel: `add(mul(x, sub(1, mix)), mul(y, mix))` (R125). -/
def mixAt (N : Numerics S) (mix x y : S) : S := N.add (N.mul x (N.sub N.one mix)) (N.mul y mix)

/-- MIXOUT (R125, step 9), both channels; no register is written. -/
def mixOut (N : Numerics S) (q : Params S) (x y : Stereo S) : Stereo S :=
  ⟨mixAt N q.mix x.left y.left, mixAt N q.mix x.right y.right⟩

end Sys2Proof.Machine
end

