-- ==== Sys2Proof/Machine/Interpolator.lean ====
section
/-! DEFINITION. The fractional-delay linear interpolator: the stage operation INTERP (R110 to R113). -/

namespace Sys2Proof.Machine

variable {S : Type}

/-- An index at or above the capacity loses it once (R111, R112). -/
def normaliseIndex (cap i : Nat) : Nat := if cap ≤ i then i - cap else i

/-- `split(rp)` (R111): the first index, normalised, and the fractional part, taken before the normalisation. -/
def splitPosition (N : Numerics S) (cap : Nat) (rp : S) : Option (Nat × S) :=
  match N.floorNat rp with
  | none => none
  | some i => some (normaliseIndex cap i, N.sub rp (N.ofNat i))

/-- `next(i0)` (R112). -/
def nextIndex (cap i0 : Nat) : Nat := normaliseIndex cap (i0 + 1)

/-- `blend(a, b, fr)` (R113). -/
def blend (N : Numerics S) (a b fr : S) : S := N.add (N.mul (N.sub N.one fr) a) (N.mul fr b)

/-- The delayed sample of channel `c` at the read position `rp` (R110). -/
def interpAt (N : Numerics S) (e : Engine S) (c : Nat) (rp : S) : Except Fault S :=
  match splitPosition N e.cap rp with
  | none => .error .floorDomain
  | some (i0, fr) =>
    match dlRead N e c i0, dlRead N e c (nextIndex e.cap i0) with
    | some a, some b => .ok (blend N a b fr)
    | _, _ => .error .delayRange

/-- INTERP (R110, step 6), both channels; no state is written. -/
def interp (N : Numerics S) (rp : Stereo S) (e : Engine S) : Except Fault (Stereo S) :=
  match interpAt N e 0 rp.left with
  | .error f => .error f
  | .ok l =>
    match interpAt N e 1 rp.right with
    | .error f => .error f
    | .ok r => .ok ⟨l, r⟩

end Sys2Proof.Machine
end

