-- ==== Sys2Proof/Machine/Lfo.lean ====
section
/-! DEFINITION. The phase-accumulating LFO: the stage operations LFOEVAL (R100, R101), PHADV (R103), DMAP (R104). -/

namespace Sys2Proof.Machine

variable {S : Type}

/-- "if it exceeds 1, subtract 1": once, and only if strictly above 1 (R101, R103, R107). -/
def wrapPhase (N : Numerics S) (ph : S) : S := if N.gt ph N.one then N.sub ph N.one else ph

/-- `ph[c]`: the left phase is `PHASE` as it stands, the right one `PHASE + off` wrapped locally (R100, R101). -/
def lfoPhases (N : Numerics S) (q : Params S) (e : Engine S) : Stereo S :=
  ⟨e.phase, wrapPhase N (N.add e.phase q.phaseOffset)⟩

/-- `lfo` at a phase: `mul(sin2pi(ph), depth)`. -/
def lfoAt (N : Numerics S) (q : Params S) (ph : S) : S := N.mul (N.sin2pi ph) q.chorusDepth

/-- LFOEVAL (R100, R101, step 2): both channels, no state written. -/
def lfoEval (N : Numerics S) (q : Params S) (e : Engine S) : Stereo S := Stereo.map (lfoAt N q) (lfoPhases N q e)

/-- `PHASE` advanced by `div(rate, FS)` and wrapped (R103). -/
def nextPhase (N : Numerics S) (q : Params S) (e : Engine S) : S :=
  wrapPhase N (N.add e.phase (N.div q.chorusRate e.fs))

/-- PHADV (R103, step 3), once for both channels. -/
def phAdv (N : Numerics S) (q : Params S) (e : Engine S) : Engine S := { e with phase := nextPhase N q e }

/-- The linear map from `[-1, 1]` to `[T_LO, T_HI]`, in the operation order of R104. -/
def delayTime (N : Numerics S) (lfo : S) : S :=
  N.add N.tLo (N.div (N.mul (N.sub N.tHi N.tLo) (N.sub lfo N.negOne)) (N.sub N.one N.negOne))

/-- DMAP (R104, step 4), both channels. -/
def dMap (N : Numerics S) (lfo : Stereo S) : Stereo S := Stereo.map (delayTime N) lfo

end Sys2Proof.Machine
end

