-- ==== Sys2Proof/Machine/SampleStep.lean ====
section
/-! DEFINITION. The sample step (R130): the nine stage operations in the source's order, with one parameter snapshot (R131). -/

namespace Sys2Proof.Machine

variable {S : Type}

/-- The read positions of a sample step (steps 2, 4 and 5), which no sample value enters (R47). `e` holds the base phase
before PHADV, `e'` is the engine RDPOS reads. -/
def readPositions (N : Numerics S) (q : Params S) (e e' : Engine S) : Stereo S :=
  rdPos N (dMap N (lfoEval N q e)) e'

/-- The sample step with the snapshot `q` (R130): DLWRITE, LFOEVAL, PHADV, DMAP, RDPOS, INTERP, FBUPD, WHADV, MIXOUT. -/
def sampleStepWith [DecidableEq S] (N : Numerics S) (q : Params S) (x : Stereo S) (e : Engine S) :
    Except Fault (Engine S × Stereo S) :=
  match dlWriteStage N x e with
  | .error f => .error f
  | .ok e₁ =>
    match interp N (readPositions N q e₁ (phAdv N q e₁)) (phAdv N q e₁) with
    | .error f => .error f
    | .ok y => .ok (whAdv (fbUpd N q y (phAdv N q e₁)), mixOut N q x y)

/-- The sample step (R130): the snapshot (R131), then the nine stage operations. -/
def sampleStep [DecidableEq S] (N : Numerics S) (inBlock : Bool) (x : Stereo S) (e : Engine S) :
    Except Fault (Engine S × Stereo S) :=
  sampleStepWith N (snapshot inBlock e) x (afterSnapshot e)

end Sys2Proof.Machine
end

