-- ==== Sys2Proof/Machine/Audio.lean ====
section
/-! DEFINITION. The two commands that process audio: SMP (R132) and PROC (R133 to R137). -/

namespace Sys2Proof.Machine

variable {S : Type}

/-- SMP (R132). -/
def processSample [DecidableEq S] (N : Numerics S) (a b : Word) (e : Engine S) : Host.Outcome (Engine S) Fault Refusal :=
  match N.dec32 a, N.dec32 b with
  | some l, some r =>
    if e.ready then
      match sampleStep N false ⟨l, r⟩ e with
      | .error f => .fault f
      | .ok (e', out) => .next (respondOk (N.enc32 out.left) (N.enc32 out.right) e')
    else .next (raiseConfig e)
  | _, _ => .next (raiseIllegal e)

/-- How far a PROC has come: it goes on, a reset has abandoned it (R170), or an access has faulted. -/
inductive Flow (S : Type) where
  | go (e : Engine S)
  | abandoned (e : Engine S)
  | stop (f : Fault)
  deriving DecidableEq, Repr

/-- The element `(ch, idx)` is one of those a PROC with the operands `n` and `nch` reads and writes (R32). -/
def coversElement (n nch ch idx : Nat) : Bool := decide (ch < nch) && decide (idx < n)

/-- A store of the host while a PROC runs. An element of the block is raced on, "the samples the core reads, or the host
reads back, are unspecified" (R162 H-6, U13): it holds a free value. Any other element takes the value stored. -/
def gapStore [DecidableEq S] (N : Numerics S) (n nch ch idx : Nat) (v : S) (e : Engine S) : Option (Engine S) :=
  if coversElement n nch ch idx then sbWrite N { e with fresh := e.fresh + 1 } ch idx (N.free e.fresh)
  else sbWrite N e ch idx v

/-- Up to the given number of the host's acts, in a gap between two sample steps of a PROC. SETP and GETP run there when
`CTRL_INTERLEAVE` is true, "and no other command" (R137): a command that may not run waits at the port, and what
stands behind it waits too (R38). DESIGN CHOICE (log entry 20): an illegal word waits as well, also one with the opcode
of SETP or GETP (R56 (b), (c), (d)), and is answered after the PROC; the spec does not say whether a gap may answer it.
Host stores land (U13). A reset abandons the PROC (R170). -/
def hostActs [DecidableEq S] (N : Numerics S) (n nch : Nat) : Nat → Engine S → Flow S
  | 0, e => .go e
  | k + 1, e =>
    match e.port with
    | [] => .go e
    | .command w :: rest =>
      if e.cfg.ctrlInterleave then
        match decode w with
        | .ok (.setp id value) => hostActs N n nch k (setParam N id value { e with port := rest })
        | .ok (.getp id) => hostActs N n nch k (getParam N id { e with port := rest })
        | _ => .go e
      else .go e
    | .store ch idx v :: rest =>
      match gapStore N n nch ch idx v { e with port := rest } with
      | none => .stop .hostStoreRange
      | some e' => hostActs N n nch k e'
    | .reset :: rest => .abandoned { e with port := rest }

/-- A gap: as many host acts as the placement says (R137, U10). -/
def hostGap [DecidableEq S] (N : Numerics S) (n nch : Nat) (e : Engine S) : Flow S :=
  hostActs N n nch (e.gaps.headD 0) { e with gaps := e.gaps.tail }

/-- Iteration `s` of PROC (R133): the two samples read, the sample step, the two outputs written back in place. -/
def blockSample [DecidableEq S] (N : Numerics S) (s : Nat) (e : Engine S) : Except Fault (Engine S) :=
  match sbRead N e 0 s, sbRead N e 1 s with
  | some x0, some x1 =>
    match sampleStep N true ⟨x0, x1⟩ e with
    | .error f => .error f
    | .ok (e₁, out) =>
      match sbWrite N e₁ 0 s out.left with
      | none => .error .sampleRange
      | some e₂ =>
        match sbWrite N e₂ 1 s out.right with
        | none => .error .sampleRange
        | some e₃ => .ok e₃
  | _, _ => .error .sampleRange

/-- The iterations `s`, `s + 1`, … of the PROC with the operands `n` and `nch`, as many as are left, with a gap before
each and one after the last (R133, R137). -/
def blockLoop [DecidableEq S] (N : Numerics S) (n nch : Nat) : Nat → Nat → Engine S → Flow S
  | 0, _, e => hostGap N n nch e
  | left + 1, s, e =>
    match hostGap N n nch e with
    | .go e₁ =>
      match blockSample N s e₁ with
      | .error f => .stop f
      | .ok e₂ => blockLoop N n nch left (s + 1) e₂
    | .abandoned e₁ => .abandoned e₁
    | .stop f => .stop f

/-- "for ch in 2 .. nch-1", every element below `n` cleared to `lit(0)` (R134). -/
def clearExtra [DecidableEq S] (N : Numerics S) (n nch : Nat) (e : Engine S) : Engine S :=
  { e with sb := Memory.fillRows N.zero (fun _ _ => N.zero) n 2 (nch - 2) e.sb }

/-- A PROC abandoned by a reset (R170): "no response is owed", and the elements of `SB` it was writing are unspecified. -/
def abandonBlock [DecidableEq S] (N : Numerics S) (n nch : Nat) (answered : List Response) (e : Engine S) : Engine S :=
  powerOn N
    { e with
      responses := answered
      sb := Memory.fillRows N.zero (fun ch i => N.free (e.fresh + (ch * n + i))) n 0 nch e.sb
      fresh := e.fresh + nch * n }

/-- The elements of the block among those the host stored to while it ran. -/
def racedElements (n nch : Nat) : List (HostAct S) → List (Nat × Nat)
  | [] => []
  | .store ch idx _ :: rest =>
    if coversElement n nch ch idx then (ch, idx) :: racedElements n nch rest else racedElements n nch rest
  | .command _ :: rest => racedElements n nch rest
  | .reset :: rest => racedElements n nch rest

/-- Elements of `SB` at free values. -/
def unspecifyElements [DecidableEq S] (N : Numerics S) : List (Nat × Nat) → Engine S → Engine S
  | [], e => e
  | a :: rest, e =>
    unspecifyElements N rest { e with sb := Memory.write N.zero e.sb a (N.free e.fresh), fresh := e.fresh + 1 }

/-- The end of a PROC that took the acts `taken` off the port: the extra channels cleared (R134), and what the host raced
on unspecified (U13). -/
def finishBlock [DecidableEq S] (N : Numerics S) (n nch : Nat) (taken : List (HostAct S)) (e : Engine S) : Engine S :=
  unspecifyElements N (racedElements n nch taken) (clearExtra N n nch e)

/-- PROC past its checks (R133). Its response stands before those of the commands that run inside it: responses come
"in command order" (R162, log entry 11). -/
def runBlock [DecidableEq S] (N : Numerics S) (n nch : Nat) (e : Engine S) : Host.Outcome (Engine S) Fault Refusal :=
  match blockLoop N n nch n 0 (respondOk 0#32 0#32 (startBlock e)) with
  | .go e' => .next (finishBlock N n nch (e.port.take (e.port.length - e'.port.length)) e')
  | .abandoned e' => .next (abandonBlock N n nch e.responses e')
  | .stop f => .fault f

/-- PROC (R133): the checks in the order of R155, then the block. -/
def processBlock [DecidableEq S] (N : Numerics S) (n nch : Word) (e : Engine S) : Host.Outcome (Engine S) Fault Refusal :=
  if naturalOperand nch < 2 then .next (raiseIllegal e)
  else if e.cfg.sbCh < naturalOperand nch ∨ e.cfg.sbLen < naturalOperand n then .next (raiseIllegal e)
  else if e.ready then runBlock N (naturalOperand n) (naturalOperand nch) e
  else .next (raiseConfig e)

/-- SMP on the machine (R132). -/
def execSmp (left right : Word) (s : State) : Host.Outcome State Fault Refusal :=
  onEngine (fun N e => processSample N left right e) s

/-- PROC on the machine (R133). -/
def execProc (n nch : Word) (s : State) : Host.Outcome State Fault Refusal :=
  onEngine (fun N e => processBlock N n nch e) s

end Sys2Proof.Machine
end

