-- ==== Sys2Proof/Machine/Session.lean ====
section
/-! DEFINITION. Session configuration: CFG (R80 to R85). -/

namespace Sys2Proof.Machine

variable {S : Type}

/-- `check_rate(A)` (R81): the sample rate, or none for a NaN, an infinity, a zero or a negative rate. -/
def checkRate (N : Numerics S) (a : Word) : Option S :=
  if notFinite a then none
  else
    match N.dec32 a with
    | none => none
    | some fs => if N.gt fs N.zero then some fs else none

/-- `capacity(fs)` (R82): the number of samples, or none where a test fails (`alloc`, `headroom`). -/
def capacity (N : Numerics S) (cfg : Config S) (fs : S) : Option Nat :=
  if N.isFinite (N.mul fs cfg.tMax) then
    match N.floorNat (N.mul fs cfg.tMax) with
    | none => none
    | some cap =>
      if cap < 1 then none
      else if cfg.ramWords < cap then none
      else if N.gt (N.mul N.tHi fs) (N.ofNat cap) then none
      else some cap
  else none

/-- The sample rate and the capacity of a session the core can configure. -/
def sessionOf (N : Numerics S) (cfg : Config S) (a : Word) : Option (S × Nat) :=
  match checkRate N a with
  | none => none
  | some fs =>
    match capacity N cfg fs with
    | none => none
    | some cap => some (fs, cap)

/-- Both delay RAMs after the zero fill of R83: every word reads `lit(0)`, so that none is listed. -/
def zeroFilled : Memory S := []

/-- A session opened (R80, R83, R84). `P[k]` is not written (R75). -/
def openSession (N : Numerics S) (fs : S) (bs cap : Nat) (e : Engine S) : Engine S :=
  { e with
    fs := fs
    bs := bs
    cap := cap
    dl := zeroFilled
    wh := 0
    phase := N.zero
    fb := ⟨N.zero, N.zero⟩
    ready := true }

/-- `config_fail` (R85): `READY <- 0`, `CAP <- 0`, the other session registers and the RAM unspecified (U2). -/
def failSession (N : Numerics S) (e : Engine S) : Engine S :=
  { unspecifyFeedback N (unspecifySession N e) with ready := false, cap := 0 }

/-- CFG (R80). -/
def configure (N : Numerics S) (rate block : Word) (e : Engine S) : Engine S :=
  match sessionOf N e.cfg rate with
  | none => raiseConfig (failSession N e)
  | some (fs, cap) => respondOk 0#32 0#32 (openSession N fs (naturalOperand block) cap e)

/-- CFG on the machine (R80). -/
def execCfg (rate block : Word) (s : State) : Host.Outcome State Fault Refusal :=
  onEngine (fun N e => .next (configure N rate block e)) s

end Sys2Proof.Machine
end

