-- ==== Sys2Proof/Machine/Dispatch.lean ====
section
/-! DEFINITION. One arm for each command of the opcode table (R52). -/

namespace Sys2Proof.Machine

def exec (i : Instr) (s : State) : Host.Outcome State Fault Refusal :=
  match i with
  | .cfg rate block => Sys2Proof.Machine.execCfg rate block s
  | .setp id value => Sys2Proof.Machine.execSetp id value s
  | .getp id => Sys2Proof.Machine.execGetp id s
  | .smp left right => Sys2Proof.Machine.execSmp left right s
  | .proc n nch => Sys2Proof.Machine.execProc n nch s

end Sys2Proof.Machine
end

