-- ==== Sys2Proof/Machine/Port.lean ====
section
/-! DEFINITION. What the host does next: the command port and the acts of the host (R38, R161, R170). -/

namespace Sys2Proof.Machine

variable {S : Type}

/-- What arrives: nothing, a command word with the state it runs in, or an act of the host that is no command. -/
inductive Arrival where
  | idle
  | command (w : CommandWord) (s : State)
  | event (o : Host.Outcome State Fault Refusal)

/-- A store by the host to its own sample buffer (R32, R61). -/
def hostStore [DecidableEq S] (N : Numerics S) (ch idx : Nat) (v : S) (e : Engine S) : Host.Outcome (Engine S) Fault Refusal :=
  match sbWrite N e ch idx v with
  | none => .fault .hostStoreRange
  | some e' => .next e'

/-- The oldest act at the port, taken off it. -/
def engineArrival [DecidableEq S] (N : Numerics S) (inj : Engine S → State) (e : Engine S) : Arrival :=
  match e.port with
  | [] => .idle
  | .command w :: rest => .command w (inj { e with port := rest })
  | .store ch idx v :: rest => .event (mapNext inj (hostStore N ch idx v { e with port := rest }))
  | .reset :: rest => .event (.next (inj (powerOn N { e with port := rest })))

/-- The oldest act at the port of the machine. -/
def arrival (s : State) : Arrival :=
  match s.engine with
  | .f32 e => engineArrival Machine.f32 State.f32 e
  | .real e => engineArrival Machine.real State.real e

/-- An illegal word: "changes no state and is answered with `respond(ERR_ILLEGAL, 0, 0)`" (R56). -/
def answerIllegal (s : State) : Host.Outcome State Fault Refusal := onEngine (fun _ e => .next (raiseIllegal e)) s

/-- A command word executed: the command it decodes to, or the answer to an illegal word (R57). -/
def runWord (w : CommandWord) (s : State) : Host.Outcome State Fault Refusal :=
  match decode w with
  | .ok i => exec i s
  | .error _ => answerIllegal s

/-- A command word put before everything else at the port. -/
def presentCommand (w : CommandWord) (s : State) : State :=
  match s.engine with
  | .f32 e => State.f32 { e with port := .command w :: e.port }
  | .real e => State.real { e with port := .command w :: e.port }

end Sys2Proof.Machine
end

