-- ==== Sys2Proof/Machine/Step.lean ====
section
/-! DEFINITION. One step of the machine: the oldest act of the host is taken and done to completion (R38, R161). -/

namespace Sys2Proof.Machine

/-- One step. With nothing at the port the core "is idle and holds its state" (R164); a command runs to completion and is
answered (R38, R150); a host store or a reset is done. -/
def step (s : State) : Host.Outcome State Fault Refusal :=
  match arrival s with
  | .idle => .next s
  | .command w s' => runWord w s'
  | .event o => o

/-- The state with the command word of the bits `w` presented first at the command port: there is no stored program
(R20, R45), and a command comes from the host (log entry 3). -/
def State.withFetchWord (s : State) (nbits w : Nat) : State := presentCommand (tableWord nbits w) s

end Sys2Proof.Machine
end

