-- ==== Sys2Proof/Machine/Assembler.lean ====
section
/-! DEFINITION. The assembler syntax of R60 and the two listing devices of R61, over operands already read as tokens:
which word a line stands for, and what a listing presents at the port. -/

namespace Sys2Proof.Machine

/-- A scalar operand (R60): a decimal literal, its magnitude the fraction `num / den`, or `0x` and eight digits. -/
inductive AsmScalar where
  | decimal (minus : Bool) (num den : Nat)
  | bits (w : Word)
  deriving DecidableEq, Repr

/-- A `<param>` operand (R60): "a key of rule R54 ... or a natural 0..7". -/
inductive AsmParam where
  | key (k : Param)
  | number (id : BitVec 3)
  deriving DecidableEq, Repr

/-- A command line of R60; a natural operand is "a decimal or `0x` literal below 2^32". -/
inductive AsmLine where
  | cfg (rate : AsmScalar) (block : Word)
  | setp (param : AsmParam) (value : AsmScalar)
  | getp (param : AsmParam)
  | smp (left right : AsmScalar)
  | proc (n nch : Word)
  deriving DecidableEq, Repr

/-- "the binary32 nearest to it, ties to even", or "that bit pattern" (R60). The sign of a zero literal is kept, as
vector K8's `CFG -0.0` shows. -/
def AsmScalar.word : AsmScalar → Word
  | .decimal minus num den => F32.ofParts minus (F32.roundUnits (num * 2 ^ 149) den)
  | .bits w => w

/-- The id of a `<param>` (R54, R60). -/
def AsmParam.id : AsmParam → BitVec 3
  | .key k => idOfParam k
  | .number id => id

/-- The command word of a line (R60). A number 5 to 7 for `<param>` gives an illegal word (R56 (d)). -/
def AsmLine.word : AsmLine → CommandWord
  | .cfg rate block => commandWord 0x01#8 rate.word block
  | .setp param value => commandWord 0x02#8 (idOperand param.id) value.word
  | .getp param => commandWord 0x03#8 (idOperand param.id) 0#32
  | .smp left right => commandWord 0x04#8 left.word right.word
  | .proc n nch => commandWord 0x05#8 n nch

/-- An entry of a listing (R61): a command line, the enclosed lines of a `.rept k`, or a store of a `host:` line. -/
inductive ListingEntry (S : Type) where
  | line (l : AsmLine)
  | rept (k : Nat) (lines : List AsmLine)
  | host (ch idx : Nat) (v : S)
  deriving DecidableEq, Repr

/-- What an entry has the host do. -/
def ListingEntry.acts {S : Type} : ListingEntry S → List (HostAct S)
  | .line l => [.command l.word]
  | .rept k lines => (List.replicate k (lines.map fun l => HostAct.command l.word)).flatten
  | .host ch idx v => [.store ch idx v]

/-- What a listing has the host do, in order. -/
def listingActs {S : Type} (entries : List (ListingEntry S)) : List (HostAct S) := (entries.map ListingEntry.acts).flatten

end Sys2Proof.Machine
end

