-- ==== Sys2Proof/Safety.lean ====
section
/-! DEFINITION. What claims are stated in: both profiles at once, the invariant of R24 with the canonical forms of the
memories, and host acts that keep to the sample buffer. -/

namespace Sys2Proof.Machine

/-- A property of the engine in each of the two numerics profiles (R9), with the states that hold such engines. -/
def BothProfiles (P : (S : Type) → [DecidableEq S] → Numerics S → (Engine S → State) → Prop) : Prop :=
  P Word Machine.f32 State.f32 ∧ P Rat Machine.real State.real

variable {S : Type}

/-- The constraints R6 puts on the OPEN parameters. -/
def configOk (N : Numerics S) (c : Config S) : Prop :=
  N.gt c.tMax N.tHi = true ∧ 1 ≤ c.ramWords ∧ c.ramWords ≤ 2 ^ 24 ∧ 2 ≤ c.sbCh ∧ 1 ≤ c.sbLen ∧ c.sbLen < 2 ^ 32

/-- `PMIN[k] <= v <= PMAX[k]` (R13). -/
def inRange (N : Numerics S) (r : Range S) (v : S) : Prop := N.le r.min v = true ∧ N.le v r.max = true

/-- Every parameter in its range (R13, R24 (e)). -/
def paramsInRange (N : Numerics S) (p : Params S) : Prop := ∀ k, inRange N ((paramTable N).get k) (p.get k)

/-- Every remembered value in the range of its parameter. -/
def historyInRange (N : Numerics S) (h : Params (List S)) : Prop :=
  ∀ k, ∀ v ∈ h.get k, inRange N ((paramTable N).get k) v

/-- What a configured session keeps (R24 (a) to (d), (f)), `CAP`, `WH`, `FS` and `PHASE` given. `PMAX[4] = lit(5)`. -/
structure SessionInv (N : Numerics S) (cfg : Config S) (cap wh : Nat) (fs phase : S) : Prop where
  capLow : 1 ≤ cap
  capHigh : cap ≤ cfg.ramWords
  head : wh < cap
  ratePositive : N.gt fs N.zero = true
  rateFinite : N.isFinite fs = true
  headroom : N.le (N.mul N.tHi fs) (N.ofNat cap) = true
  phaseLow : N.ge phase N.zero = true
  phaseHigh : N.ge fs (paramTable N).chorusRate.max = true → N.le phase N.one = true

/-- The invariant of the engine: R24, with R13 for the histories, `CAP = 0` while no session is configured (R25, R85),
`BS < 2^32` (R10), and the memories canonical and within their address spaces (R30, R31, R32). -/
structure EngineInv [DecidableEq S] (N : Numerics S) (e : Engine S) : Prop where
  config : configOk N e.cfg
  params : paramsInRange N e.p
  historyPrev : historyInRange N e.histPrev
  historyCur : historyInRange N e.histCur
  block : e.bs < 2 ^ 32
  idle : e.ready = false → e.cap = 0
  session : e.ready = true → SessionInv N e.cfg e.cap e.wh e.fs e.phase
  delayForm : Memory.wf N.zero e.dl = true
  delayWithin : Memory.within 2 e.cap e.dl = true
  samplesForm : Memory.wf N.zero e.sb = true
  samplesWithin : Memory.within e.cfg.sbCh e.cfg.sbLen e.sb = true

/-- The invariant of the machine: that of the engine it holds, in its profile. -/
def StateInv (s : State) : Prop :=
  match s.engine with
  | .f32 e => EngineInv Machine.f32 e
  | .real e => EngineInv Machine.real e

/-- A host act that, if it is a store, names an element of the sample buffer (R32). -/
def HostAct.keepsTo (c : Config S) : HostAct S → Prop
  | .command _ => True
  | .store ch idx _ => ch < c.sbCh ∧ idx < c.sbLen
  | .reset => True

/-- Every coming store of the host names an element of the sample buffer. -/
def portKeepsTo (e : Engine S) : Prop := ∀ a ∈ e.port, HostAct.keepsTo e.cfg a

/-- Nothing falls into the gaps of a PROC (R137): no placement is planned. -/
def quietGaps (e : Engine S) : Prop := ∀ g ∈ e.gaps, g = 0

/-- How many command words stand at the port. -/
def commandsWaiting : List (HostAct S) → Nat
  | [] => 0
  | .command _ :: rest => commandsWaiting rest + 1
  | .store _ _ _ :: rest => commandsWaiting rest
  | .reset :: rest => commandsWaiting rest

/-- The registers a sample step reads its addresses and its phase from (R47). -/
def sameTiming (e e' : Engine S) : Prop :=
  e.cap = e'.cap ∧ e.wh = e'.wh ∧ e.fs = e'.fs ∧ e.phase = e'.phase

/-- SMP commands for the samples `x 0 … x (k-1)`, one after the other, with the outputs (R132). -/
def samplesThrough [DecidableEq S] (N : Numerics S) (x : Nat → Stereo S) : Nat → Engine S → Option (Engine S × (Nat → Stereo S))
  | 0, e => some (e, x)
  | k + 1, e =>
    match samplesThrough N x k e with
    | none => none
    | some (e₁, y) =>
      match sampleStep N false (x k) e₁ with
      | .error _ => none
      | .ok (e₂, o) => some (e₂, fun s => if s = k then o else y s)

/-- The words R56 calls illegal, cases (a), (b), (c) and (d), by the bits of R50. -/
def illegalWord (w : CommandWord) : Prop :=
  w.extractLsb' 64 8 = 0x00#8 ∨ 6 ≤ (w.extractLsb' 64 8).toNat ∨
    ((w.extractLsb' 64 8 = 0x02#8 ∨ w.extractLsb' 64 8 = 0x03#8) ∧ w.extractLsb' 35 29 ≠ 0#29) ∨
    (w.extractLsb' 64 8 = 0x03#8 ∧ w.extractLsb' 0 32 ≠ 0#32) ∨
    ((w.extractLsb' 64 8 = 0x02#8 ∨ w.extractLsb' 64 8 = 0x03#8) ∧ 5 ≤ (w.extractLsb' 32 3).toNat)

/-- Two engines without a session that differ only in what R25 and R85 leave unspecified. -/
structure SameWhileIdle (e e' : Engine S) : Prop where
  idle : e.ready = false
  same : e' = { e with fs := e'.fs, bs := e'.bs, wh := e'.wh, phase := e'.phase, fb := e'.fb, dl := e'.dl }

/-- Two engines alike in what lane 0 owns and in what the lanes share (R139). -/
structure LeftLaneAlike (N : Numerics S) (e e' : Engine S) : Prop where
  params : e.p = e'.p
  timing : sameTiming e e'
  feedback : e.fb.left = e'.fb.left
  words : ∀ i, Memory.read N.zero e.dl (0, i) = Memory.read N.zero e'.dl (0, i)

/-- Two engines alike in what lane 1 owns and in what the lanes share (R139). -/
structure RightLaneAlike (N : Numerics S) (e e' : Engine S) : Prop where
  params : e.p = e'.p
  timing : sameTiming e e'
  feedback : e.fb.right = e'.fb.right
  words : ∀ i, Memory.read N.zero e.dl (1, i) = Memory.read N.zero e'.dl (1, i)

/-- A scalar with the value 0; under profile F32 either of the two zeros (R9). -/
def isZero (N : Numerics S) (v : S) : Prop := N.le v N.zero = true ∧ N.le N.zero v = true

/-- `r` is the binary32 datum nearest to `x / den` units of `2^-149`, ties to even, and an infinity of that sign from
half a step above the largest finite datum on (R9, D4). -/
def NearestEven (r : Word) (x : Int) (den : Nat) : Prop :=
  F32.isNaN r = false ∧
    (F32.isFinite r = true ↔ |x| < (2 ^ 25 - 1) * 2 ^ 252 * (den : Int)) ∧
    (F32.isFinite r = false → (F32.sign r = true ↔ x < 0)) ∧
    (F32.isFinite r = true → ∀ c, F32.isFinite c = true →
      |F32.val r * den - x| ≤ |F32.val c * den - x| ∧
        (|F32.val r * den - x| = |F32.val c * den - x| → F32.val c ≠ F32.val r → F32.mag r % 2 = 0))

end Sys2Proof.Machine
end

