-- ==== Sys2Proof/Certificates/Slice0/Obligations.lean ====
section
/-! DEFINITION. The statements for the provers. `BothProfiles` states a claim for profile F32 and for profile REAL. -/

section

open Sys2Proof Sys2Proof.Machine

/-! Encoding. -/

/-- R50, R52, R54: words written out from the formats and opcodes decode to the commands they stand for. -/
def Obligations.SampleWordsDecode : Prop :=
  decode 0x01472C440000000200#72 = .ok (.cfg 0x472C4400#32 512#32) ∧
  decode 0x02000000023F000000#72 = .ok (.setp 2#3 0x3F000000#32) ∧
  decode 0x030000000400000000#72 = .ok (.getp 4#3) ∧
  decode 0x043F8000003F800000#72 = .ok (.smp 0x3F800000#32 0x3F800000#32) ∧
  decode 0x050000000300000002#72 = .ok (.proc 3#32 2#32) ∧
  decode 0x06FFFFFFFFFFFFFFFF#72 = .error .reservedOpcode ∧
  decode 0x02800000003F000000#72 = .error .reservedField ∧
  decode 0x030000000200000001#72 = .error .reservedField ∧
  decode 0x02000000053F000000#72 = .error .noSuchParameter

/-- R50, R52: no bit of a command is dropped: every well-formed command is what its word decodes to. -/
def Obligations.DecodeOfEncodeIsTheCommand : Prop :=
  ∀ i : Instr, i.wf = true → decode (encode i) = .ok i

/-- R50, R52, R57: every word that decodes is the word of the well-formed command it decodes to. -/
def Obligations.EncodeOfDecodeIsTheWord : Prop :=
  ∀ (w : CommandWord) (i : Instr), decode w = .ok i → i.wf = true ∧ encode i = w

/-- R52, R57: a word decodes exactly when R56 does not call it illegal, and then it selects the row of its command in the
table of masks and matches, and no other row. -/
def Obligations.DecoderAgreesWithOpcodeTable : Prop :=
  ∀ w : CommandWord,
    ((∃ i, decode w = .ok i) ↔ ¬ illegalWord w) ∧
    (∀ i, decode w = .ok i → i.row ∈ opcodeTable ∧ i.row.selects w = true ∧
      ∀ r ∈ opcodeTable, r.selects w = true → r = i.row)

/-- R57, R155 (1): "`OP` first, then at the must-be-zero fields of the format, then at the id range". -/
def Obligations.RejectionChecksInOrder : Prop :=
  ∀ w : CommandWord,
    (decode w = .error .reservedOpcode ↔ w.extractLsb' 64 8 = 0x00#8 ∨ 6 ≤ (w.extractLsb' 64 8).toNat) ∧
    (decode w = .error .reservedField ↔
      (w.extractLsb' 64 8 = 0x02#8 ∧ w.extractLsb' 35 29 ≠ 0#29) ∨
      (w.extractLsb' 64 8 = 0x03#8 ∧ (w.extractLsb' 35 29 ≠ 0#29 ∨ w.extractLsb' 0 32 ≠ 0#32))) ∧
    (decode w = .error .noSuchParameter ↔
      w.extractLsb' 35 29 = 0#29 ∧ 5 ≤ (w.extractLsb' 32 3).toNat ∧
      (w.extractLsb' 64 8 = 0x02#8 ∨ (w.extractLsb' 64 8 = 0x03#8 ∧ w.extractLsb' 0 32 = 0#32)))

/-- R60: the word of an assembled line decodes to the command the line writes, with its operands. -/
def Obligations.AssembledLinesDecode : Prop :=
  (∀ rate block, decode (AsmLine.cfg rate block).word = .ok (.cfg rate.word block)) ∧
  (∀ k value, decode (AsmLine.setp (.key k) value).word = .ok (.setp (idOfParam k) value.word)) ∧
  (∀ k, decode (AsmLine.getp (.key k)).word = .ok (.getp (idOfParam k))) ∧
  (∀ left right, decode (AsmLine.smp left right).word = .ok (.smp left.word right.word)) ∧
  (∀ n nch, decode (AsmLine.proc n nch).word = .ok (.proc n nch))

/-! Steps. -/

/-- R38: the command word at the head of the port is taken and the command it decodes to is executed; and a word
presented by `withFetchWord` is the next to run. The port is the model's own (log entry 3). -/
def Obligations.StepRunsDecodedCommand : Prop :=
  (BothProfiles fun S _ _ inj => ∀ (e : Engine S) (w : CommandWord) (rest : List (HostAct S)) (i : Instr),
    e.port = .command w :: rest → decode w = .ok i → step (inj e) = exec i (inj { e with port := rest })) ∧
  (∀ (s : State) (nbits w : Nat) (i : Instr), decodeTableWord nbits w = some i →
    step (s.withFetchWord nbits w) = exec i s)

/-- R56: an illegal word "changes no state and is answered with `respond(ERR_ILLEGAL, 0, 0)`". Taking the word off the
port is the model's own (log entry 3). -/
def Obligations.IllegalWordsChangeNothing : Prop :=
  BothProfiles fun S _ _ inj => ∀ (e : Engine S) (w : CommandWord) (rest : List (HostAct S)),
    e.port = .command w :: rest → illegalWord w →
      step (inj e) = .next (inj { e with port := rest, responses := e.responses ++ [⟨.errIllegal, 0#32, 0#32⟩] })

/-- R164: with no command, "it is idle and holds its state". -/
def Obligations.IdleCoreHoldsItsState : Prop :=
  BothProfiles fun S _ _ inj => ∀ e : Engine S, e.port = [] → step (inj e) = .next (inj e)

/-- R32, R61: a store of the host changes the one element it names, and nothing else. The fault of a store to an element
that does not exist is the model's choice (log entry 16). -/
def Obligations.HostStoreChangesOneElement : Prop :=
  BothProfiles fun S _ N inj => ∀ (e : Engine S) (ch idx : Nat) (v : S) (rest : List (HostAct S)),
    e.port = .store ch idx v :: rest → Memory.wf N.zero e.sb = true →
      (ch < e.cfg.sbCh ∧ idx < e.cfg.sbLen →
        ∃ sb', step (inj e) = .next (inj { e with port := rest, sb := sb' }) ∧
          Memory.read N.zero sb' (ch, idx) = v ∧
          ∀ a, a ≠ (ch, idx) → Memory.read N.zero sb' a = Memory.read N.zero e.sb a) ∧
      (¬(ch < e.cfg.sbCh ∧ idx < e.cfg.sbLen) → step (inj e) = .fault .hostStoreRange)

/-! Numerics. -/

/-- R9, R6: the constants of profile F32, bit by bit. -/
def Obligations.ConstantsOfProfileF32 : Prop :=
  Machine.f32.lit 5 1000 = 0x3BA3D70A#32 ∧ Machine.f32.lit 3 100 = 0x3CF5C28F#32 ∧
  Machine.f32.lit 98 100 = 0x3F7AE148#32 ∧ Machine.f32.lit 5 10 = 0x3F000000#32 ∧
  Machine.f32.lit 1 1 = 0x3F800000#32 ∧ Machine.f32.lit (-1) 1 = 0xBF800000#32 ∧
  Machine.f32.lit 5 1 = 0x40A00000#32 ∧ Machine.f32.lit 0 1 = 0x00000000#32

/-- R12, R54: the parameter ids and the table of ranges and defaults, in profile REAL. -/
def Obligations.ParameterTableAndIds : Prop :=
  paramOfId 0#3 = some .feedback ∧ paramOfId 1#3 = some .phaseOffset ∧ paramOfId 2#3 = some .mix ∧
  paramOfId 3#3 = some .chorusDepth ∧ paramOfId 4#3 = some .chorusRate ∧
  paramOfId 5#3 = none ∧ paramOfId 6#3 = none ∧ paramOfId 7#3 = none ∧
  paramTable Machine.real = ⟨⟨0, 49 / 50, 1 / 2⟩, ⟨0, 1, 0⟩, ⟨0, 1, 1 / 2⟩, ⟨0, 1, 1 / 2⟩, ⟨0, 5, 1 / 2⟩⟩

/-- R9, D4: on finite operands the four operations of profile F32 round the exact result once, to nearest, ties to even.
The datum `a` stands for `F32.val a` units of `2^-149`. -/
def Obligations.FloatOperationsRoundToNearestEven : Prop :=
  ∀ a b : Word, F32.isFinite a = true → F32.isFinite b = true →
    NearestEven (Machine.f32.add a b) (F32.val a + F32.val b) 1 ∧
    NearestEven (Machine.f32.sub a b) (F32.val a - F32.val b) 1 ∧
    NearestEven (Machine.f32.mul a b) (F32.val a * F32.val b) (2 ^ 149) ∧
    (F32.val b ≠ 0 →
      NearestEven (Machine.f32.div a b) (F32.val a * 2 ^ 149 * (F32.val b).sign) (F32.val b).natAbs)

/-- R9: what may be relied on of the sine: its range in both profiles, `SINF(+0) = +0`, and the listed points of profile
REAL with its period. -/
def Obligations.SineOfTheTwoProfiles : Prop :=
  (BothProfiles fun _ _ N _ => ∀ p, N.le N.negOne (N.sin2pi p) = true ∧ N.le (N.sin2pi p) N.one = true) ∧
  Machine.f32.sin2pi 0x00000000#32 = 0x00000000#32 ∧
  (∀ p : Rat, Machine.real.sin2pi (p + 1) = Machine.real.sin2pi p) ∧
  Machine.real.sin2pi 0 = 0 ∧ Machine.real.sin2pi (1 / 2) = 0 ∧ Machine.real.sin2pi 1 = 0 ∧
  Machine.real.sin2pi (1 / 4) = 1 ∧ Machine.real.sin2pi (3 / 4) = -1 ∧
  Machine.real.sin2pi (1 / 12) = 1 / 2 ∧ Machine.real.sin2pi (5 / 12) = 1 / 2 ∧
  Machine.real.sin2pi (7 / 12) = -1 / 2 ∧ Machine.real.sin2pi (11 / 12) = -1 / 2

/-! Parameters. -/

/-- R70: DECLARE accepts exactly the tables whose keys differ and whose ranges hold their defaults, and then gives each
key its default; the fixed table is such a table. -/
def Obligations.DeclareChecksTheTable : Prop :=
  BothProfiles fun S _ N _ =>
    (∀ ds : List (Declaration S),
      declareAll N [] ds =
        if (ds.map Declaration.key).Nodup ∧ (∀ d ∈ ds, N.le d.range.min d.range.max = true ∧
            N.le d.range.min d.range.dflt = true ∧ N.le d.range.dflt d.range.max = true)
        then some (ds.map fun d => (d.key, d.range.dflt)) else none) ∧
    declareAll N [] (fixedDeclarations N) =
      some [(.feedback, N.lit 5 10), (.phaseOffset, N.lit 0 1), (.mix, N.lit 5 10), (.chorusDepth, N.lit 5 10),
        (.chorusRate, N.lit 5 10)]

/-- R71: SETP clamps a finite value to the range of the parameter and stores it, in every state; nothing else changes but
the history that `PARAM_STALE` keeps (R22). -/
def Obligations.SetpClampsAndStores : Prop :=
  BothProfiles fun S _ N inj => ∀ (e : Engine S) (k : Param) (value : Word) (v : S),
    notFinite value = false → N.dec32 value = some v →
      let lo := ((paramTable N).get k).min
      let hi := ((paramTable N).get k).max
      let raised := if N.lt v lo then lo else v
      let clamped := if N.gt raised hi then hi else raised
      exec (.setp (idOfParam k) value) (inj e) = .next (inj { e with
        p := e.p.set k clamped
        histCur := if e.cfg.paramStale then e.histCur.set k (e.histCur.get k ++ [e.p.get k]) else e.histCur
        responses := e.responses ++ [⟨.ok, 0#32, 0#32⟩] })

/-- R72: "when `B[30:23] = 0xFF` (a NaN or an infinity, in either profile) SETP changes no state and responds
`ERR_ILLEGAL`". -/
def Obligations.SetpRefusesNonFiniteValues : Prop :=
  BothProfiles fun S _ _ inj => ∀ (e : Engine S) (id : BitVec 3) (value : Word),
    value.extractLsb' 23 8 = 0xFF#8 →
      exec (.setp id value) (inj e) =
        .next (inj { e with responses := e.responses ++ [⟨.errIllegal, 0#32, 0#32⟩] })

/-- R73: GETP returns the register, writes no state, and its result is a finite datum while the parameters are in range
(R13). -/
def Obligations.GetpReturnsTheParameter : Prop :=
  BothProfiles fun S _ N inj => ∀ (e : Engine S) (k : Param),
    exec (.getp (idOfParam k)) (inj e) =
      .next (inj { e with responses := e.responses ++ [⟨.ok, N.enc32 (e.p.get k), 0#32⟩] }) ∧
    (paramsInRange N e.p → (N.enc32 (e.p.get k)).extractLsb' 23 8 ≠ 0xFF#8)

/-- R54, R71, R73: SETP and GETP with id 5, 6 or 7 change no state and respond `ERR_ILLEGAL`. -/
def Obligations.UnknownParameterIsIllegal : Prop :=
  BothProfiles fun S _ _ inj => ∀ (e : Engine S) (id : BitVec 3) (value : Word), 5 ≤ id.toNat →
    exec (.setp id value) (inj e) =
      .next (inj { e with responses := e.responses ++ [⟨.errIllegal, 0#32, 0#32⟩] }) ∧
    exec (.getp id) (inj e) =
      .next (inj { e with responses := e.responses ++ [⟨.errIllegal, 0#32, 0#32⟩] })

/-- R41: with `PARAM_STALE`, each parameter of an SMP's step is, independently, one of the values its register gave up
since the start of the latest PROC, or the present one; without it, the present one. -/
def Obligations.SampleStepReadsHeldValues : Prop :=
  BothProfiles fun S _ N inj => ∀ (e e' : Engine S) (a b : Word) (l r : S),
    e.ready = true → N.dec32 a = some l → N.dec32 b = some r → exec (.smp a b) (inj e) = .next (inj e') →
      ∃ (q : Params S) (d : Engine S) (o : Stereo S),
        (∀ k, q.get k ∈ (if e.cfg.paramStale then e.histCur.get k else []) ++ [e.p.get k]) ∧
        sampleStepWith N q ⟨l, r⟩ e = .ok (d, o) ∧
        e' = { d with
          fresh := e'.fresh
          responses := e.responses ++ [⟨.ok, N.enc32 o.left, N.enc32 o.right⟩] }

/-! Sessions. -/

/-- R80 to R84: a CFG whose rate and capacity pass opens a session: registers and flag as written, every word of both
delay RAMs `lit(0)`, the parameters and everything else kept. -/
def Obligations.CfgOpensASession : Prop :=
  BothProfiles fun S _ N inj => ∀ (e : Engine S) (rate block : Word) (fs : S) (cap : Nat),
    rate.extractLsb' 23 8 ≠ 0xFF#8 → N.dec32 rate = some fs → N.gt fs (N.lit 0 1) = true →
    N.isFinite (N.mul fs e.cfg.tMax) = true → N.floorNat (N.mul fs e.cfg.tMax) = some cap →
    1 ≤ cap → cap ≤ e.cfg.ramWords → N.gt (N.mul (N.lit 3 100) fs) (N.ofNat cap) = false →
      ∃ dl',
        exec (.cfg rate block) (inj e) = .next (inj { e with
          fs := fs, bs := block.toNat, cap := cap, dl := dl', wh := 0, phase := N.lit 0 1
          fb := ⟨N.lit 0 1, N.lit 0 1⟩, ready := true
          responses := e.responses ++ [⟨.ok, 0#32, 0#32⟩] }) ∧
        ∀ c i, Memory.read N.zero dl' (c, i) = N.lit 0 1

/-- R81, R82, R85, R151 (a), (b1), (b2): a CFG that fails a check responds `ERR_CONFIG` and closes the session. The
values of what R85 leaves unspecified are free values of the model (log entry 2). -/
def Obligations.FailedCfgClosesTheSession : Prop :=
  BothProfiles fun S _ N inj => ∀ (e : Engine S) (rate block : Word),
    (rate.extractLsb' 23 8 = 0xFF#8 ∨
      ∃ fs, N.dec32 rate = some fs ∧
        (N.gt fs (N.lit 0 1) = false ∨ N.isFinite (N.mul fs e.cfg.tMax) = false ∨
          ∃ cap, N.floorNat (N.mul fs e.cfg.tMax) = some cap ∧
            (cap < 1 ∨ e.cfg.ramWords < cap ∨ N.gt (N.mul (N.lit 3 100) fs) (N.ofNat cap) = true))) →
      ∃ e', exec (.cfg rate block) (inj e) = .next (inj e') ∧ e'.ready = false ∧ e'.cap = 0 ∧ e'.p = e.p ∧
        e'.responses = e.responses ++ [⟨.errConfig, 0#32, 0#32⟩] ∧ e'.cfg = e.cfg ∧ e'.sb = e.sb ∧
        e'.histPrev = e.histPrev ∧ e'.histCur = e.histCur ∧ e'.port = e.port ∧ e'.gaps = e.gaps

/-- R75: "A value set before a CFG is still there after it, whether the CFG succeeds or fails"; and every CFG completes. -/
def Obligations.CfgKeepsTheParameters : Prop :=
  BothProfiles fun S _ _ inj => ∀ (e : Engine S) (rate block : Word),
    ∃ e', exec (.cfg rate block) (inj e) = .next (inj e') ∧ e'.p = e.p

/-- R86: a session that a CFG opens depends on its operands and the configuration only; so repeating the CFG, at once
or after any other commands, gives the same session. -/
def Obligations.CfgIsIdempotent : Prop :=
  BothProfiles fun S _ _ inj => ∀ (e d e₁ : Engine S) (rate block : Word),
    exec (.cfg rate block) (inj e) = .next (inj e₁) → e₁.ready = true → d.cfg = e.cfg →
      exec (.cfg rate block) (inj d) = .next (inj { d with
        fs := e₁.fs, bs := e₁.bs, cap := e₁.cap, dl := e₁.dl, wh := e₁.wh, phase := e₁.phase, fb := e₁.fb
        ready := true
        responses := d.responses ++ [⟨.ok, 0#32, 0#32⟩] })

/-- R25, R170: what the spec gives of the state after power-on reset; the zeros of `FS`, `BS`, `WH` and `PHASE` are the
model's (log entry 1) and not stated. -/
def Obligations.ResetValues : Prop :=
  (∃ e, State.reset = State.f32 e ∧
    e.p = ⟨0x3F000000#32, 0x00000000#32, 0x3F000000#32, 0x3F000000#32, 0x3F000000#32⟩ ∧
    e.fb = ⟨0x00000000#32, 0x00000000#32⟩ ∧ e.ready = false ∧ e.cap = 0 ∧ ∀ c i, dlRead Machine.f32 e c i = none) ∧
  (∀ cfg, ∃ e, State.resetReal cfg = State.real e ∧ e.cfg = cfg ∧ e.p = ⟨1 / 2, 0, 1 / 2, 1 / 2, 1 / 2⟩ ∧
    e.fb = ⟨0, 0⟩ ∧ e.ready = false ∧ e.cap = 0 ∧ ∀ c i, dlRead Machine.real e c i = none)

/-- R170: the reset event gives every register of R25's column its value, produces no response, and leaves the host's
sample buffer and its coming acts. -/
def Obligations.ResetEventRestoresDefaults : Prop :=
  BothProfiles fun S _ N inj => ∀ (e : Engine S) (rest : List (HostAct S)), e.port = .reset :: rest →
    ∃ e', step (inj e) = .next (inj e') ∧ (∀ k, e'.p.get k = ((paramTable N).get k).dflt) ∧
      e'.fb = ⟨N.lit 0 1, N.lit 0 1⟩ ∧ e'.ready = false ∧ e'.cap = 0 ∧ e'.responses = e.responses ∧
      e'.sb = e.sb ∧ e'.cfg = e.cfg ∧ e'.port = rest ∧ e'.gaps = e.gaps ∧
      (∀ k, e'.histPrev.get k = [] ∧ e'.histCur.get k = [])

/-- R25: while `READY = 0` "no rule reads these registers", so two cores that differ only in the unspecified registers
take the same steps: the same fault, or states that are equal or differ only so. -/
def Obligations.UnspecifiedRegistersUnobservable : Prop :=
  BothProfiles fun S _ _ inj => ∀ e e' : Engine S, SameWhileIdle e e' →
    (∃ f, step (inj e) = .fault f ∧ step (inj e') = .fault f) ∨
    ∃ d d', step (inj e) = .next (inj d) ∧ step (inj e') = .next (inj d') ∧ (d = d' ∨ SameWhileIdle d d')

/-! The stage operations. -/

/-- R102: `-depth <= lfo <= depth`, hence `-1 <= lfo <= 1`, for every phase. -/
def Obligations.LfoStaysWithinDepth : Prop :=
  BothProfiles fun S _ N _ => ∀ (q : Params S) (ph : S), paramsInRange N q →
    N.le (lfoAt N q ph) q.chorusDepth = true ∧ N.le (N.sub N.zero (lfoAt N q ph)) q.chorusDepth = true ∧
    N.le N.negOne (lfoAt N q ph) = true ∧ N.le (lfoAt N q ph) N.one = true

/-- R104: the delay time lies in `[T_LO, T_HI]` and does not decrease with the LFO value; its values at -1, 0 and 1. -/
def Obligations.DelayTimeMap : Prop :=
  (BothProfiles fun S _ N _ => ∀ l m : S, N.le N.negOne l = true → N.le l m = true → N.le m N.one = true →
    N.le N.tLo (delayTime N l) = true ∧ N.le (delayTime N l) (delayTime N m) = true ∧
    N.le (delayTime N m) N.tHi = true) ∧
  (∀ l, delayTime Machine.real l = 7 / 400 + 1 / 80 * l) ∧
  delayTime Machine.f32 0xBF800000#32 = 0x3BA3D70A#32 ∧ delayTime Machine.f32 0x00000000#32 = 0x3C8F5C28#32 ∧
  delayTime Machine.f32 0x80000000#32 = 0x3C8F5C28#32 ∧ delayTime Machine.f32 0x3F800000#32 = 0x3CF5C28E#32

/-- R141, R102: at depth 0 both channels have the midpoint delay, whatever `PHASE`, the offset and the rate are. -/
def Obligations.ZeroDepthFixesTheDelay : Prop :=
  (∀ (q : Params Rat) (e : Engine Rat), isZero Machine.real q.chorusDepth →
    dMap Machine.real (lfoEval Machine.real q e) = ⟨7 / 400, 7 / 400⟩) ∧
  (∀ (q : Params Word) (e : Engine Word), isZero Machine.f32 q.chorusDepth →
    dMap Machine.f32 (lfoEval Machine.f32 q e) = ⟨0x3C8F5C28#32, 0x3C8F5C28#32⟩)

/-- R101, R103, R105, R107: the base phase advances by rate over sample rate and loses 1 only strictly above 1; from a
phase in `[0, 1]`, at a sample rate of at least the LFO rate, it stays in `[0, 1]`, and so does the right phase. -/
def Obligations.PhasesStayInTheUnitInterval : Prop :=
  (BothProfiles fun S _ N _ => ∀ (q : Params S) (e : Engine S), paramsInRange N q →
    N.gt e.fs N.zero = true → N.isFinite e.fs = true → N.le q.chorusRate e.fs = true →
    N.le N.zero e.phase = true → N.le e.phase N.one = true →
      N.le N.zero (nextPhase N q e) = true ∧ N.le (nextPhase N q e) N.one = true ∧
      N.le N.zero (lfoPhases N q e).right = true ∧ N.le (lfoPhases N q e).right N.one = true) ∧
  (∀ (q : Params Rat) (e : Engine Rat), nextPhase Machine.real q e =
    if e.phase + q.chorusRate / e.fs ≤ 1 then e.phase + q.chorusRate / e.fs else e.phase + q.chorusRate / e.fs - 1)

/-- R95: in a configured session a read position made from a delay time in `[T_LO, T_HI]` lies in `[0, CAP)` under
profile REAL and in `[0, CAP]` under profile F32; and `CAP` itself is reached. -/
def Obligations.ReadPositionRange : Prop :=
  (∀ (e : Engine Rat) (t : Rat), EngineInv Machine.real e → e.ready = true → Machine.real.tLo ≤ t → t ≤ Machine.real.tHi →
    0 ≤ readPosition Machine.real e t ∧ readPosition Machine.real e t < e.cap) ∧
  (∀ (e : Engine Word) (t : Word), EngineInv Machine.f32 e → e.ready = true →
    Machine.f32.le Machine.f32.tLo t = true → Machine.f32.le t Machine.f32.tHi = true →
      Machine.f32.le Machine.f32.zero (readPosition Machine.f32 e t) = true ∧
      Machine.f32.le (readPosition Machine.f32 e t) (Machine.f32.ofNat e.cap) = true) ∧
  (∀ e : Engine Word, e.fs = 0x47017700#32 → e.wh = 580 → e.cap = 66286 →
    readPosition Machine.f32 e 0x3C8F5C28#32 = Machine.f32.ofNat 66286)

/-- R111, R179: under profile F32 the read position `CAP` is normalised to index 0 and reads `DL[c][0]` exactly. -/
def Obligations.ReadAtCapacityReturnsFirstWord : Prop :=
  ∀ (e : Engine Word) (c : Nat), 1 ≤ e.cap → e.cap ≤ 2 ^ 24 →
    F32.isFinite (Memory.read Machine.f32.zero e.dl (c, 0)) = true →
    F32.val (Memory.read Machine.f32.zero e.dl (c, 0)) ≠ 0 →
    F32.isFinite (Memory.read Machine.f32.zero e.dl (c, nextIndex e.cap 0)) = true →
      interpAt Machine.f32 e c (Machine.f32.ofNat e.cap) = .ok (Memory.read Machine.f32.zero e.dl (c, 0))

/-- R110 to R114: under profile REAL a read at any position in `[0, CAP]` completes and lies between the two words it
reads, both at indices below `CAP`, the second following the first around the circle. -/
def Obligations.InterpolatorIsConvex : Prop :=
  ∀ (e : Engine Rat) (c : Nat) (rp : Rat), 1 ≤ e.cap → 0 ≤ rp → rp ≤ e.cap →
    ∃ (i0 i1 : Nat) (y : Rat), interpAt Machine.real e c rp = .ok y ∧ i0 < e.cap ∧ i1 < e.cap ∧
      (i0 : Int) % e.cap = rp.floor % e.cap ∧ i1 = (i0 + 1) % e.cap ∧
      min (Memory.read 0 e.dl (c, i0)) (Memory.read 0 e.dl (c, i1)) ≤ y ∧
      y ≤ max (Memory.read 0 e.dl (c, i0)) (Memory.read 0 e.dl (c, i1)) ∧
      (rp = rp.floor → y = Memory.read 0 e.dl (c, i0))

/-- R126: the boundary laws of the dry/wet stage, with the two exceptions profile F32 has. -/
def Obligations.MixBoundaryLaws : Prop :=
  (∀ x y : Rat, mixAt Machine.real 0 x y = x ∧ mixAt Machine.real 1 x y = y) ∧
  (∀ x y : Word, F32.isFinite x = true → F32.isFinite y = true →
    (F32.val x ≠ 0 → mixAt Machine.f32 0x00000000#32 x y = x) ∧
    (F32.val y ≠ 0 → mixAt Machine.f32 0x3F800000#32 x y = y) ∧
    F32.val (mixAt Machine.f32 0x00000000#32 x y) = F32.val x ∧
    F32.val (mixAt Machine.f32 0x3F800000#32 x y) = F32.val y) ∧
  (∀ y : Word, F32.isFinite y = true → F32.sign y = false →
    mixAt Machine.f32 0x00000000#32 0x80000000#32 y = 0x00000000#32 ∧
    mixAt Machine.f32 0x3F800000#32 y 0x80000000#32 = 0x00000000#32) ∧
  (∀ x y : Word, F32.isFinite y = false →
    F32.isNaN (mixAt Machine.f32 0x00000000#32 x y) = true ∧ F32.isNaN (mixAt Machine.f32 0x3F800000#32 y x) = true)

/-! The sample step, SMP and PROC. -/

/-- R130, R132 with the stage rules R90 to R125: the whole result of an SMP, written out in the operations of the
numerics record: the six pieces of state written, the response, and everything else unchanged. -/
def Obligations.SmpComputesTheSampleStep : Prop :=
  BothProfiles fun S _ N inj => ∀ (e : Engine S) (a b : Word) (l r : S) (i j : Nat),
    let off := N.add e.phase e.p.phaseOffset
    let phR := if N.gt off (N.lit 1 1) then N.sub off (N.lit 1 1) else off
    let adv := N.add e.phase (N.div e.p.chorusRate e.fs)
    let time := fun ph => N.add (N.lit 5 1000) (N.div (N.mul (N.sub (N.lit 3 100) (N.lit 5 1000))
      (N.sub (N.mul (N.sin2pi ph) e.p.chorusDepth) (N.lit (-1) 1))) (N.sub (N.lit 1 1) (N.lit (-1) 1)))
    let behind := fun ph => N.sub (N.ofNat e.wh) (N.mul e.fs (time ph))
    let pos := fun ph => if N.lt (behind ph) (N.lit 0 1) then N.add (behind ph) (N.ofNat e.cap) else behind ph
    let dl' := Memory.write N.zero (Memory.write N.zero e.dl (0, e.wh) (N.add l e.fb.left)) (1, e.wh)
      (N.add r e.fb.right)
    let tap := fun c rp (n : Nat) =>
      let i0 := if e.cap ≤ n then n - e.cap else n
      let i1 := if e.cap ≤ i0 + 1 then i0 + 1 - e.cap else i0 + 1
      let fr := N.sub rp (N.ofNat n)
      N.add (N.mul (N.sub (N.lit 1 1) fr) (Memory.read N.zero dl' (c, i0))) (N.mul fr (Memory.read N.zero dl' (c, i1)))
    let yL := tap 0 (pos e.phase) i
    let yR := tap 1 (pos phR) j
    let out := fun x y => N.add (N.mul x (N.sub (N.lit 1 1) e.p.mix)) (N.mul y e.p.mix)
    e.ready = true → e.cfg.paramStale = false → N.dec32 a = some l → N.dec32 b = some r → e.wh < e.cap →
    N.floorNat (pos e.phase) = some i → N.floorNat (pos phR) = some j → i ≤ e.cap → j ≤ e.cap →
      exec (.smp a b) (inj e) = .next (inj { e with
        dl := dl'
        phase := if N.gt adv (N.lit 1 1) then N.sub adv (N.lit 1 1) else adv
        fb := ⟨N.mul e.p.feedback yL, N.mul e.p.feedback yR⟩
        wh := if e.cap ≤ e.wh + 1 then 0 else e.wh + 1
        responses := e.responses ++ [⟨.ok, N.enc32 (out l yL), N.enc32 (out r yR)⟩] })

/-- R132, R142, R159: in a configured session every SMP with scalar samples completes, and its frame: of the delay RAMs
only the two words at the write head change, of the registers only `PHASE`, `FB` and `WH`. -/
def Obligations.SmpAlwaysCompletes : Prop :=
  BothProfiles fun S _ N inj => ∀ (e : Engine S) (a b : Word), EngineInv N e → e.ready = true →
    N.dec32 a ≠ none → N.dec32 b ≠ none →
      ∃ (e' : Engine S) (r0 r1 : Word), exec (.smp a b) (inj e) = .next (inj e') ∧
        e'.responses = e.responses ++ [⟨.ok, r0, r1⟩] ∧
        e'.wh = (e.wh + 1) % e.cap ∧
        (∀ c i, i ≠ e.wh → Memory.read N.zero e'.dl (c, i) = Memory.read N.zero e.dl (c, i)) ∧
        e' = { e with dl := e'.dl, phase := e'.phase, fb := e'.fb, wh := e'.wh, fresh := e'.fresh
                      responses := e'.responses }

/-- R133, R134: in a configured session every PROC on an existing block completes with `OK`; its frame: outside the
block no element of `SB` changes, the extra channels are cleared, the parameters and the session's constants stay. -/
def Obligations.ProcAlwaysCompletes : Prop :=
  BothProfiles fun S _ N inj => ∀ (e : Engine S) (n nch : Word), EngineInv N e → e.ready = true → quietGaps e →
    2 ≤ nch.toNat → nch.toNat ≤ e.cfg.sbCh → n.toNat ≤ e.cfg.sbLen →
      ∃ e' : Engine S, exec (.proc n nch) (inj e) = .next (inj e') ∧
        e'.responses = e.responses ++ [⟨.ok, 0#32, 0#32⟩] ∧
        e'.wh = (e.wh + n.toNat) % e.cap ∧
        (∀ ch i, nch.toNat ≤ ch ∨ n.toNat ≤ i → Memory.read N.zero e'.sb (ch, i) = Memory.read N.zero e.sb (ch, i)) ∧
        (∀ ch i, 2 ≤ ch → ch < nch.toNat → i < n.toNat → Memory.read N.zero e'.sb (ch, i) = N.lit 0 1) ∧
        e'.p = e.p ∧ e'.fs = e.fs ∧ e'.bs = e.bs ∧ e'.cap = e.cap ∧ e'.ready = e.ready ∧ e'.cfg = e.cfg ∧
        e'.port = e.port

/-- R132, R133: "n consecutive SMP commands have exactly the effect of one `PROC n, 2` on a buffer holding the same
inputs": the same state of the core, and in `SB` the outputs. `samplesThrough` runs the sample step of SMP, which is
what SMP answers with. -/
def Obligations.ProcEqualsConsecutiveSmps : Prop :=
  BothProfiles fun S _ N inj =>
    (∀ (e e' : Engine S) (a b : Word) (l r : S) (o : Stereo S), e.ready = true → N.dec32 a = some l →
      N.dec32 b = some r → sampleStep N false ⟨l, r⟩ e = .ok (e', o) →
        exec (.smp a b) (inj e) =
          .next (inj { e' with responses := e'.responses ++ [⟨.ok, N.enc32 o.left, N.enc32 o.right⟩] })) ∧
    (∀ (e d : Engine S) (n : Word) (y : Nat → Stereo S), e.ready = true → e.cfg.paramStale = false → quietGaps e →
      2 ≤ e.cfg.sbCh → n.toNat ≤ e.cfg.sbLen → Memory.wf N.zero e.sb = true →
      samplesThrough N (fun s => ⟨Memory.read N.zero e.sb (0, s), Memory.read N.zero e.sb (1, s)⟩) n.toNat e =
        some (d, y) →
        ∃ sb', exec (.proc n 2#32) (inj e) = .next (inj { d with
            sb := sb', gaps := e.gaps.drop (n.toNat + 1), responses := e.responses ++ [⟨.ok, 0#32, 0#32⟩] }) ∧
          (∀ s, s < n.toNat → Memory.read N.zero sb' (0, s) = (y s).left ∧ Memory.read N.zero sb' (1, s) = (y s).right) ∧
          (∀ ch s, 2 ≤ ch ∨ n.toNat ≤ s → Memory.read N.zero sb' (ch, s) = Memory.read N.zero e.sb (ch, s)))

/-- R134: a PROC with more than two channels does to the core and to channels 0 and 1 what the PROC of two channels
does, and clears "every channel `ch` with `2 <= ch < nch` and every `idx < n`". -/
def Obligations.ExtraChannelsAreCleared : Prop :=
  BothProfiles fun S _ N inj => ∀ (e d : Engine S) (n nch : Word), Memory.wf N.zero e.sb = true →
    2 ≤ nch.toNat → nch.toNat ≤ e.cfg.sbCh → n.toNat ≤ e.cfg.sbLen → e.ready = true → quietGaps e →
    exec (.proc n 2#32) (inj e) = .next (inj d) →
      ∃ sb', exec (.proc n nch) (inj e) = .next (inj { d with sb := sb' }) ∧
        ∀ ch i, Memory.read N.zero sb' (ch, i) =
          if 2 ≤ ch ∧ ch < nch.toNat ∧ i < n.toNat then N.lit 0 1 else Memory.read N.zero d.sb (ch, i)

/-- R135: "`PROC n, 0` and `PROC n, 1` change nothing and respond `ERR_ILLEGAL`". -/
def Obligations.TooFewChannelsIsIllegal : Prop :=
  BothProfiles fun S _ _ inj => ∀ (e : Engine S) (n nch : Word), nch = 0#32 ∨ nch = 1#32 →
    exec (.proc n nch) (inj e) = .next (inj { e with responses := e.responses ++ [⟨.errIllegal, 0#32, 0#32⟩] })

/-- R136: "`nch > SB_CH` or `n > SB_LEN` names elements that do not exist in `SB`; the command changes nothing and responds
`ERR_ILLEGAL`". -/
def Obligations.BlockBeyondBufferIsIllegal : Prop :=
  BothProfiles fun S _ _ inj => ∀ (e : Engine S) (n nch : Word), e.cfg.sbCh < nch.toNat ∨ e.cfg.sbLen < n.toNat →
    exec (.proc n nch) (inj e) = .next (inj { e with responses := e.responses ++ [⟨.errIllegal, 0#32, 0#32⟩] })

/-- R151 (d), R132, R133: with no session an SMP of scalar samples and a PROC on an existing block respond `ERR_CONFIG`
and change nothing. -/
def Obligations.NoSessionNoAudio : Prop :=
  BothProfiles fun S _ N inj => ∀ e : Engine S, e.ready = false →
    (∀ a b : Word, N.dec32 a ≠ none → N.dec32 b ≠ none → exec (.smp a b) (inj e) =
      .next (inj { e with responses := e.responses ++ [⟨.errConfig, 0#32, 0#32⟩] })) ∧
    (∀ n nch : Word, 2 ≤ nch.toNat → nch.toNat ≤ e.cfg.sbCh → n.toNat ≤ e.cfg.sbLen → exec (.proc n nch) (inj e) =
      .next (inj { e with responses := e.responses ++ [⟨.errConfig, 0#32, 0#32⟩] }))

/-- R153: an SMP with a NaN or an infinite sample responds `ERR_ILLEGAL` and changes nothing under profile REAL, whatever
`READY` is (R155); under profile F32 it is data, and in a configured session the SMP completes with `OK`. -/
def Obligations.NonFiniteSamples : Prop :=
  ∀ a b : Word, a.extractLsb' 23 8 = 0xFF#8 ∨ b.extractLsb' 23 8 = 0xFF#8 →
    (∀ e : Engine Rat, exec (.smp a b) (State.real e) =
      .next (State.real { e with responses := e.responses ++ [⟨.errIllegal, 0#32, 0#32⟩] })) ∧
    (∀ e : Engine Word, EngineInv Machine.f32 e → e.ready = true →
      ∃ (e' : Engine Word) (r0 r1 : Word), exec (.smp a b) (State.f32 e) = .next (State.f32 e') ∧
        e'.responses = e.responses ++ [⟨.ok, r0, r1⟩])

/-- R92: the head advances by 1 and wraps to 0 when it reaches the capacity, once per sample step; after `k` steps it is
`k` further modulo `CAP`, so from a CFG it is `k mod CAP`. -/
def Obligations.WriteHeadAdvancesModuloCapacity : Prop :=
  BothProfiles fun S _ N _ => ∀ (e : Engine S), e.wh < e.cap →
    (∀ (inBlock : Bool) (x o : Stereo S) (e' : Engine S), sampleStep N inBlock x e = .ok (e', o) →
      e'.wh = (if e.cap ≤ e.wh + 1 then 0 else e.wh + 1) ∧ e'.wh < e'.cap) ∧
    (∀ (x : Nat → Stereo S) (k : Nat) (d : Engine S) (y : Nat → Stereo S), samplesThrough N x k e = some (d, y) →
      d.wh = (e.wh + k) % e.cap)

/-- R47: no sample enters an address or the phase: two engines with the same `CAP`, `WH`, `FS` and `PHASE`, and
parameters that agree on offset, depth and rate, read at the same positions, complete together, and have the same
`WH` and `PHASE` next, whatever their samples, memories, feedback, FEEDBACK and MIX are. -/
def Obligations.AddressesAreDataIndependent : Prop :=
  BothProfiles fun S _ N _ => ∀ (e e' : Engine S) (q q' : Params S) (x x' : Stereo S), sameTiming e e' →
    q.phaseOffset = q'.phaseOffset → q.chorusDepth = q'.chorusDepth → q.chorusRate = q'.chorusRate →
      readPositions N q e e = readPositions N q' e' e' ∧
      (∀ f, sampleStepWith N q x e = .error f → sampleStepWith N q' x' e' = .error f) ∧
      (∀ d o, sampleStepWith N q x e = .ok (d, o) →
        ∃ d' o', sampleStepWith N q' x' e' = .ok (d', o') ∧ sameTiming d d')

/-- R139: no value of one lane enters the other: engines alike in one lane, given the same sample in that lane, stay
alike in it and answer the same result for it, whatever the other lane holds and is given. -/
def Obligations.LanesAreIndependent : Prop :=
  BothProfiles fun S _ N inj => ∀ (e e' d d' : Engine S) (a b a' b' r0 r1 r0' r1' : Word),
    Memory.wf N.zero e.dl = true → Memory.wf N.zero e'.dl = true →
    e.cfg.paramStale = false → e'.cfg.paramStale = false →
    exec (.smp a b) (inj e) = .next (inj d) → d.responses = e.responses ++ [⟨.ok, r0, r1⟩] →
    exec (.smp a' b') (inj e') = .next (inj d') → d'.responses = e'.responses ++ [⟨.ok, r0', r1'⟩] →
      (LeftLaneAlike N e e' → a = a' → LeftLaneAlike N d d' ∧ r0 = r0') ∧
      (RightLaneAlike N e e' → b = b' → RightLaneAlike N d d' ∧ r1 = r1')

/-- R125, R184: MIX has no effect on the state of the core, only on what the host receives. -/
def Obligations.MixDoesNotTouchTheState : Prop :=
  BothProfiles fun S _ _ inj => ∀ (e d : Engine S) (a b : Word) (m : S), e.cfg.paramStale = false →
    exec (.smp a b) (inj e) = .next (inj d) →
      ∃ rs, exec (.smp a b) (inj { e with p := { e.p with mix := m } }) =
        .next (inj { d with p := { d.p with mix := m }, responses := rs })

/-- R114 (d), R122, R173: with silent delay lines and zero feedback, zero input gives exactly zero output, and the lines
stay silent. -/
def Obligations.SilenceStaysSilent : Prop :=
  BothProfiles fun S _ N inj => ∀ e : Engine S, EngineInv N e → e.ready = true → e.cfg.paramStale = false → e.dl = [] →
    isZero N e.fb.left → isZero N e.fb.right →
      ∃ e' : Engine S, exec (.smp 0#32 0#32) (inj e) = .next (inj e') ∧
        e'.responses = e.responses ++ [⟨.ok, 0#32, 0#32⟩] ∧ e'.dl = [] ∧ isZero N e'.fb.left ∧ isZero N e'.fb.right

/-- R122: "`M_{m+CAP} <= 0.98 × M_m`" under profile REAL: after `CAP` steps of silence every word of the delay lines, and
the feedback with them, is bounded by 0.98 of the old bound. -/
def Obligations.FeedbackDecays : Prop :=
  ∀ (e : Engine Rat) (M : Rat), EngineInv Machine.real e → e.ready = true → e.cfg.paramStale = false →
    (∀ c i, i < e.cap → |Memory.read 0 e.dl (c, i)| ≤ M) →
    |e.fb.left| ≤ 98 / 100 * M → |e.fb.right| ≤ 98 / 100 * M →
      ∃ (e' : Engine Rat) (y : Nat → Stereo Rat),
        samplesThrough Machine.real (fun _ => ⟨0, 0⟩) e.cap e = some (e', y) ∧
        (∀ c i, c < 2 → i < e.cap → |Memory.read 0 e'.dl (c, i)| ≤ 98 / 100 * M) ∧
        |e'.fb.left| ≤ 98 / 100 * (98 / 100 * M) ∧ |e'.fb.right| ≤ 98 / 100 * (98 / 100 * M) ∧
        (∀ s, s < e.cap → |(y s).left| ≤ M ∧ |(y s).right| ≤ M)

/-- R143: under profile REAL the first SMP of a session whose delays lie in `(1, CAP - 1]` samples answers
`x[c] × (1 − mix)`: the delay lines are still empty. -/
def Obligations.FirstOutputIsDry : Prop :=
  ∀ (e : Engine Rat) (a b : Word) (l r : Rat), EngineInv Machine.real e → e.ready = true → e.cfg.paramStale = false →
    e.dl = [] → e.fb = ⟨0, 0⟩ → e.wh = 0 →
    Machine.real.dec32 a = some l → Machine.real.dec32 b = some r →
    (∀ ph, ph = (lfoPhases Machine.real e.p e).left ∨ ph = (lfoPhases Machine.real e.p e).right →
      1 < e.fs * delayTime Machine.real (lfoAt Machine.real e.p ph) ∧
      e.fs * delayTime Machine.real (lfoAt Machine.real e.p ph) ≤ (e.cap : Rat) - 1) →
      ∃ e', exec (.smp a b) (State.real e) = .next (State.real e') ∧
        e'.responses = e.responses ++
          [⟨.ok, Machine.real.enc32 (l * (1 - e.p.mix)), Machine.real.enc32 (r * (1 - e.p.mix))⟩]

/-! Between the sample steps of a PROC. -/

/-- R137, R38: what a PROC takes off the port it takes from its front, in order, and every command so taken is a SETP or a
GETP and only with `CTRL_INTERLEAVE`. That no illegal word of theirs is taken is the model's choice (log entry 20). -/
def Obligations.OnlySetpAndGetpInterleave : Prop :=
  BothProfiles fun S _ _ inj => ∀ (e e' : Engine S) (n nch : Word), exec (.proc n nch) (inj e) = .next (inj e') →
    ∃ taken, e.port = taken ++ e'.port ∧
      ∀ w, .command w ∈ taken → e.cfg.ctrlInterleave = true ∧
        ((∃ id value, decode w = .ok (.setp id value)) ∨ ∃ id, decode w = .ok (.getp id))

/-- R137: a SETP placed in a gap is executed there, so "a SETP's value is seen by the snapshot of every later iteration".
Which gap it falls into is the host's timing (log entry 10). -/
def Obligations.SetpInAGapActsBeforeTheNextSample : Prop :=
  BothProfiles fun S _ N _ => ∀ (e : Engine S) (n nch left s g : Nat) (gs : List Nat) (id : BitVec 3) (value w : _)
    (rest : List (HostAct S)), e.cfg.ctrlInterleave = true → e.gaps = (g + 1) :: gs →
    e.port = .command w :: rest → decode w = .ok (.setp id value) →
      blockLoop N n nch left s e = blockLoop N n nch left s (setParam N id value { e with port := rest, gaps := g :: gs })

/-- R32, R162 (H-6): a host store that falls into a gap of a PROC stores its value outside the block; on an element of
the block, where the core and the host race, some value that the model leaves free (log entry 10). -/
def Obligations.HostStoreInAGap : Prop :=
  BothProfiles fun S _ N _ => ∀ (e : Engine S) (n nch left s g : Nat) (gs : List Nat) (ch idx : Nat) (v : S)
    (rest : List (HostAct S)), e.gaps = (g + 1) :: gs → e.port = .store ch idx v :: rest →
    ch < e.cfg.sbCh → idx < e.cfg.sbLen →
      ∃ (u : S) (fresh : Nat), (¬(ch < nch ∧ idx < n) → u = v ∧ fresh = e.fresh) ∧
        blockLoop N n nch left s e = blockLoop N n nch left s
          { e with port := rest, gaps := g :: gs, sb := Memory.write N.zero e.sb (ch, idx) u, fresh := fresh }

/-- R170: "A reset during a command abandons the command": a reset that falls into the first gap of a PROC leaves the
reset registers, no response is owed, and outside the block no element of `SB` changes. -/
def Obligations.ResetAbandonsAProc : Prop :=
  BothProfiles fun S _ N inj => ∀ (e : Engine S) (n nch : Word) (g : Nat) (gs : List Nat) (rest : List (HostAct S)),
    e.ready = true → 2 ≤ nch.toNat → nch.toNat ≤ e.cfg.sbCh → n.toNat ≤ e.cfg.sbLen → Memory.wf N.zero e.sb = true →
    e.gaps = (g + 1) :: gs → e.port = .reset :: rest →
      ∃ e', exec (.proc n nch) (inj e) = .next (inj e') ∧
        (∀ k, e'.p.get k = ((paramTable N).get k).dflt) ∧ e'.fb = ⟨N.lit 0 1, N.lit 0 1⟩ ∧ e'.ready = false ∧
        e'.cap = 0 ∧ e'.responses = e.responses ∧ e'.port = rest ∧ e'.cfg = e.cfg ∧
        (∀ ch i, nch.toNat ≤ ch ∨ n.toNat ≤ i → Memory.read N.zero e'.sb (ch, i) = Memory.read N.zero e.sb (ch, i))

/-! The whole machine. -/

/-- R13, R24, R30: the invariant (parameters in range; a configured session's capacity, head, rate, headroom and phase;
canonical memories within their address spaces) is kept by every step, from every state that meets it. -/
def Obligations.EveryStepKeepsTheInvariant : Prop :=
  ∀ s s' : State, StateInv s → step s = .next s' → StateInv s'

/-- R24, R25: the state after power-on reset meets the invariant, in both profiles. -/
def Obligations.ResetMeetsTheInvariant : Prop :=
  StateInv State.reset ∧ ∀ cfg : Config Rat, configOk Machine.real cfg → StateInv (State.resetReal cfg)

/-- R142, R150, R159: from a state that meets the invariant no command faults or is refused and no access is out of
range, whatever falls into the gaps, as long as the host's own stores name elements of `SB`. -/
def Obligations.NoCommandStops : Prop :=
  BothProfiles fun S _ N inj => ∀ e : Engine S, EngineInv N e → portKeepsTo e →
    (∀ i, ∃ e', exec i (inj e) = .next (inj e')) ∧ ∃ e', step (inj e) = .next (inj e')

/-- R51, R150: "Every command produces exactly one 72-bit response": along a step, responses given and commands waiting
balance, when the host does not reset. -/
def Obligations.OneResponsePerCommand : Prop :=
  BothProfiles fun S _ _ inj => ∀ e e' : Engine S, step (inj e) = .next (inj e') → (∀ a ∈ e.port, a ≠ .reset) →
    e'.responses.length + commandsWaiting e'.port = e.responses.length + commandsWaiting e.port

/-- R51, R55: a step keeps the responses already given; a new one that is not `OK` has both results 0; and the fields of a
response word stand where R51 puts them, the status one of R55's three values. -/
def Obligations.ResponsesAndTheirWords : Prop :=
  (BothProfiles fun S _ _ inj => ∀ e e' : Engine S, step (inj e) = .next (inj e') →
    ∃ new, e'.responses = e.responses ++ new ∧ ∀ r ∈ new, r.status ≠ .ok → r.res0 = 0#32 ∧ r.res1 = 0#32) ∧
  (∀ r : Response, r.word.extractLsb' 32 32 = r.res0 ∧ r.word.extractLsb' 0 32 = r.res1 ∧
    ((r.status = .ok → r.word.extractLsb' 64 8 = 0x00#8) ∧ (r.status = .errConfig → r.word.extractLsb' 64 8 = 0x01#8) ∧
      (r.status = .errIllegal → r.word.extractLsb' 64 8 = 0x02#8)))

end
end

