-- ==== Sys2Proof/Laws/Memory.lean ====
section
/-! SUPPORT. Memories of sample words: a read after a write, and the canonical form, which every operation keeps. -/

namespace Sys2Proof.Machine

variable {S : Type}

theorem addrBefore_iff {a b : Nat × Nat} : addrBefore a b = true ↔ a.1 < b.1 ∨ a.1 = b.1 ∧ a.2 < b.2 := by
  simp [addrBefore]

theorem addrBefore_irrefl (a : Nat × Nat) : addrBefore a a = false := by simp [addrBefore]

theorem addrBefore_trans {a b c : Nat × Nat} (h1 : addrBefore a b = true) (h2 : addrBefore b c = true) :
    addrBefore a c = true := by
  rw [addrBefore_iff] at *; omega

theorem addrBefore_total {a b : Nat × Nat} (hne : a ≠ b) (h : addrBefore a b = false) : addrBefore b a = true := by
  have h' : ¬ (a.1 < b.1 ∨ a.1 = b.1 ∧ a.2 < b.2) := by rw [← addrBefore_iff]; simp [h]
  have : ¬ (a.1 = b.1 ∧ a.2 = b.2) := fun hc => hne (Prod.ext hc.1 hc.2)
  rw [addrBefore_iff]; omega

@[simp] theorem Memory.read_nil (dflt : S) (a : Nat × Nat) : Memory.read dflt [] a = dflt := rfl

variable [DecidableEq S]

/-- The form after an address holds after every earlier one. -/
theorem Memory.wfAfter_of_before {dflt : S} {a b : Nat × Nat} {m : Memory S} (h : addrBefore a b = true)
    (hm : Memory.wfAfter dflt b m = true) : Memory.wfAfter dflt a m = true := by
  cases m with
  | nil => rfl
  | cons c rest =>
    simp only [Memory.wfAfter, Bool.and_eq_true] at *
    exact ⟨⟨addrBefore_trans h hm.1.1, hm.1.2⟩, hm.2⟩

/-- What comes after an address does not list it. -/
theorem Memory.read_of_wfAfter {dflt : S} {a b : Nat × Nat} {m : Memory S} (hb : a = b ∨ addrBefore a b = true)
    (hm : Memory.wfAfter dflt b m = true) : Memory.read dflt m a = dflt := by
  induction m generalizing b with
  | nil => rfl
  | cons c rest ih =>
    simp only [Memory.wfAfter, Bool.and_eq_true] at hm
    have hac : addrBefore a c.1 = true := by
      obtain rfl | h := hb
      · exact hm.1.1
      · exact addrBefore_trans h hm.1.1
    have hne : c.1 ≠ a := by intro h; rw [h, addrBefore_irrefl] at hac; exact absurd hac (by simp)
    unfold Memory.read
    rw [if_neg hne]
    exact ih (Or.inr hac) hm.2

theorem Memory.wfAfter_write {dflt : S} {b a : Nat × Nat} {m : Memory S} (v : S) (hba : addrBefore b a = true)
    (hm : Memory.wfAfter dflt b m = true) : Memory.wfAfter dflt b (Memory.write dflt m a v) = true := by
  induction m generalizing b with
  | nil =>
    unfold Memory.write
    split
    · rfl
    · simp [Memory.wfAfter, *]
  | cons c rest ih =>
    obtain ⟨k, x⟩ := c
    simp only [Memory.wfAfter, Bool.and_eq_true] at hm
    obtain ⟨⟨hbk, hx⟩, hrest⟩ := hm
    unfold Memory.write
    by_cases hk : k = a
    · subst hk
      rw [if_pos rfl]
      split
      · exact Memory.wfAfter_of_before hbk hrest
      · simp [Memory.wfAfter, *]
    · rw [if_neg hk]
      by_cases hak : addrBefore a k = true
      · rw [if_pos hak]
        split
        · simp [Memory.wfAfter, hbk, hrest, of_decide_eq_true hx]
        · simp [Memory.wfAfter, of_decide_eq_true hx, *]
      · rw [if_neg hak]
        have hka : addrBefore k a = true := addrBefore_total (Ne.symm hk) (by simpa using hak)
        simp only [Memory.wfAfter, Bool.and_eq_true]
        exact ⟨⟨hbk, hx⟩, ih hka hrest⟩

/-- A write keeps the canonical form. -/
theorem Memory.wf_write {dflt : S} {m : Memory S} (a : Nat × Nat) (v : S) (hm : Memory.wf dflt m = true) :
    Memory.wf dflt (Memory.write dflt m a v) = true := by
  cases m with
  | nil =>
    unfold Memory.write
    split
    · rfl
    · simp [Memory.wf, Memory.wfAfter, *]
  | cons c rest =>
    obtain ⟨k, x⟩ := c
    simp only [Memory.wf, Bool.and_eq_true] at hm
    obtain ⟨hx, hrest⟩ := hm
    have hx' := of_decide_eq_true hx
    unfold Memory.write
    by_cases hk : k = a
    · subst hk
      rw [if_pos rfl]
      split
      · cases rest with
        | nil => rfl
        | cons d rest' =>
          simp only [Memory.wfAfter, Memory.wf, Bool.and_eq_true] at *
          exact ⟨hrest.1.2, hrest.2⟩
      · simp [Memory.wf, *]
    · rw [if_neg hk]
      by_cases hak : addrBefore a k = true
      · rw [if_pos hak]
        split
        · simp [Memory.wf, hrest, hx']
        · simp [Memory.wf, Memory.wfAfter, *]
      · rw [if_neg hak]
        have hka : addrBefore k a = true := addrBefore_total (Ne.symm hk) (by simpa using hak)
        simp only [Memory.wf, Bool.and_eq_true]
        exact ⟨hx, Memory.wfAfter_write v hka hrest⟩

/-- A write leaves every other address alone. -/
theorem Memory.read_write_other (dflt : S) (m : Memory S) {a b : Nat × Nat} (v : S) (hne : b ≠ a) :
    Memory.read dflt (Memory.write dflt m a v) b = Memory.read dflt m b := by
  induction m with
  | nil =>
    unfold Memory.write
    split
    · rfl
    · simp [Memory.read, Ne.symm hne]
  | cons c rest ih =>
    obtain ⟨k, x⟩ := c
    unfold Memory.write
    by_cases hk : k = a
    · subst hk
      rw [if_pos rfl]
      split <;> simp [Memory.read, Ne.symm hne]
    · rw [if_neg hk]
      split
      · split <;> simp [Memory.read, Ne.symm hne]
      · simp [Memory.read, ih]

/-- In a canonical memory, a read after a write to the same address gives the value written. -/
theorem Memory.read_write_same {dflt : S} {m : Memory S} (a : Nat × Nat) (v : S) (hm : Memory.wf dflt m = true) :
    Memory.read dflt (Memory.write dflt m a v) a = v := by
  induction m with
  | nil =>
    unfold Memory.write
    split
    · simp [*]
    · simp [Memory.read]
  | cons c rest ih =>
    obtain ⟨k, x⟩ := c
    have hwf := hm
    simp only [Memory.wf, Bool.and_eq_true] at hm
    obtain ⟨hx, hrest⟩ := hm
    unfold Memory.write
    by_cases hk : k = a
    · subst hk
      rw [if_pos rfl]
      split
      · rename_i hv
        rw [hv]; exact Memory.read_of_wfAfter (Or.inl rfl) hrest
      · simp [Memory.read]
    · rw [if_neg hk]
      by_cases hak : addrBefore a k = true
      · rw [if_pos hak]
        split
        · rename_i hv
          rw [hv]
          simp only [Memory.read, if_neg hk]
          exact Memory.read_of_wfAfter (Or.inr hak) hrest
        · simp [Memory.read]
      · rw [if_neg hak]
        simp only [Memory.read, if_neg hk]
        apply ih
        cases rest with
        | nil => rfl
        | cons d rest' =>
          simp only [Memory.wfAfter, Memory.wf, Bool.and_eq_true] at *
          exact ⟨hrest.1.2, hrest.2⟩

/-- The read after a write, both cases. -/
theorem Memory.read_write {dflt : S} {m : Memory S} (a b : Nat × Nat) (v : S) (hm : Memory.wf dflt m = true) :
    Memory.read dflt (Memory.write dflt m a v) b = if b = a then v else Memory.read dflt m b := by
  split
  · subst_vars; exact Memory.read_write_same _ v hm
  · exact Memory.read_write_other dflt m v ‹_›

/-- Canonical memories that read alike are equal. -/
theorem Memory.ext {dflt : S} {m n : Memory S} (hm : Memory.wf dflt m = true) (hn : Memory.wf dflt n = true)
    (h : ∀ a, Memory.read dflt m a = Memory.read dflt n a) : m = n := by
  have tailWf : ∀ {c : (Nat × Nat) × S} {rest : Memory S}, Memory.wf dflt (c :: rest) = true →
      Memory.wf dflt rest = true ∧ c.2 ≠ dflt ∧ Memory.wfAfter dflt c.1 rest = true := by
    intro c rest hc
    simp only [Memory.wf, Bool.and_eq_true, decide_eq_true_eq] at hc
    refine ⟨?_, hc.1, hc.2⟩
    cases rest with
    | nil => rfl
    | cons d r =>
      have := hc.2
      simp only [Memory.wfAfter, Memory.wf, Bool.and_eq_true] at *
      exact ⟨this.1.2, this.2⟩
  induction m generalizing n with
  | nil =>
    cases n with
    | nil => rfl
    | cons d rest =>
      have := h d.1
      simp [Memory.read] at this
      exact absurd this.symm (tailWf hn).2.1
  | cons c rest ih =>
    obtain ⟨hrw, hc, hrest⟩ := tailWf hm
    cases n with
    | nil =>
      have := h c.1
      simp [Memory.read] at this
      exact absurd this hc
    | cons d rest' =>
      obtain ⟨hrw', hd, hrest'⟩ := tailWf hn
      have hkey : c.1 = d.1 := by
        by_contra hne
        by_cases hb : addrBefore c.1 d.1 = true
        · have := h c.1
          rw [Memory.read, if_pos rfl, Memory.read, if_neg (Ne.symm hne),
            Memory.read_of_wfAfter (Or.inr hb) hrest'] at this
          exact hc this
        · have hb' := addrBefore_total hne (by simpa using hb)
          have := h d.1
          rw [Memory.read, if_neg hne, Memory.read_of_wfAfter (Or.inr hb') hrest, Memory.read, if_pos rfl] at this
          exact hd this.symm
      have hval : c.2 = d.2 := by
        have := h c.1
        rwa [Memory.read, if_pos rfl, Memory.read, if_pos hkey.symm] at this
      have hcd : c = d := Prod.ext hkey hval
      subst hcd
      congr 1
      apply ih hrw hrw'
      intro a
      by_cases ha : c.1 = a
      · rw [← ha, Memory.read_of_wfAfter (Or.inl rfl) hrest, Memory.read_of_wfAfter (Or.inl rfl) hrest']
      · have := h a
        rwa [Memory.read, if_neg ha, Memory.read, if_neg ha] at this

/-! Fills. -/

theorem Memory.wf_fillRow {dflt : S} {m : Memory S} (f : Nat → S) (ch n : Nat) (hm : Memory.wf dflt m = true) :
    Memory.wf dflt (Memory.fillRow dflt f ch n m) = true := by
  induction n with
  | zero => exact hm
  | succ n ih => exact Memory.wf_write _ _ ih

theorem Memory.read_fillRow {dflt : S} {m : Memory S} (f : Nat → S) (ch n : Nat) (a : Nat × Nat)
    (hm : Memory.wf dflt m = true) :
    Memory.read dflt (Memory.fillRow dflt f ch n m) a =
      if a.1 = ch ∧ a.2 < n then f a.2 else Memory.read dflt m a := by
  induction n with
  | zero => simp [Memory.fillRow]
  | succ n ih =>
    unfold Memory.fillRow
    rw [Memory.read_write _ _ _ (Memory.wf_fillRow f ch n hm), ih]
    obtain ⟨c, i⟩ := a
    by_cases h : (c, i) = (ch, n)
    · simp at h; simp [h]
    · rw [if_neg h]
      have : ¬ (c = ch ∧ i = n) := by simpa using h
      by_cases h2 : c = ch ∧ i < n
      · rw [if_pos h2, if_pos ⟨h2.1, by have := h2.2; simp at this ⊢; omega⟩]
      · rw [if_neg h2, if_neg (by simp at *; intro hc; have := h2 hc; have := this; omega)]

theorem Memory.wf_fillRows {dflt : S} {m : Memory S} (f : Nat → Nat → S) (n first count : Nat)
    (hm : Memory.wf dflt m = true) : Memory.wf dflt (Memory.fillRows dflt f n first count m) = true := by
  induction count with
  | zero => exact hm
  | succ c ih => exact Memory.wf_fillRow _ _ _ ih

/-- What a fill of rows leaves: the filled elements, and the rest as it was. -/
theorem Memory.read_fillRows {dflt : S} {m : Memory S} (f : Nat → Nat → S) (n first count : Nat) (a : Nat × Nat)
    (hm : Memory.wf dflt m = true) :
    Memory.read dflt (Memory.fillRows dflt f n first count m) a =
      if first ≤ a.1 ∧ a.1 < first + count ∧ a.2 < n then f a.1 a.2 else Memory.read dflt m a := by
  induction count with
  | zero => rw [if_neg (by omega)]; rfl
  | succ c ih =>
    unfold Memory.fillRows
    rw [Memory.read_fillRow _ _ _ _ (Memory.wf_fillRows f n first c hm), ih]
    by_cases h : a.1 = first + c ∧ a.2 < n
    · rw [if_pos h, if_pos (by omega), h.1]
    · rw [if_neg h]
      by_cases h2 : first ≤ a.1 ∧ a.1 < first + c ∧ a.2 < n
      · rw [if_pos h2, if_pos (by omega)]
      · rw [if_neg h2, if_neg (by omega)]

/-! Bounds. -/

theorem Memory.within_write {dflt : S} {m : Memory S} {rows cols : Nat} {a : Nat × Nat} (v : S)
    (hm : Memory.within rows cols m = true) (h1 : a.1 < rows) (h2 : a.2 < cols) :
    Memory.within rows cols (Memory.write dflt m a v) = true := by
  induction m with
  | nil =>
    unfold Memory.write
    split
    · rfl
    · simp [Memory.within, h1, h2]
  | cons c rest ih =>
    obtain ⟨k, x⟩ := c
    simp only [Memory.within, List.all_cons, Bool.and_eq_true, decide_eq_true_eq] at hm ih
    unfold Memory.write
    split
    · split
      · exact hm.2
      · simp only [Memory.within, List.all_cons, Bool.and_eq_true, decide_eq_true_eq]
        exact ⟨⟨h1, h2⟩, hm.2⟩
    · split
      · split
        · simp only [Memory.within, List.all_cons, Bool.and_eq_true, decide_eq_true_eq]; exact hm
        · simp only [Memory.within, List.all_cons, Bool.and_eq_true, decide_eq_true_eq]
          exact ⟨⟨h1, h2⟩, hm⟩
      · simp only [Memory.within, List.all_cons, Bool.and_eq_true, decide_eq_true_eq]
        exact ⟨hm.1, ih hm.2⟩

theorem Memory.within_fillRow {dflt : S} {m : Memory S} {rows cols : Nat} (f : Nat → S) (ch n : Nat)
    (hm : Memory.within rows cols m = true) (h1 : ch < rows) (h2 : n ≤ cols) :
    Memory.within rows cols (Memory.fillRow dflt f ch n m) = true := by
  induction n with
  | zero => exact hm
  | succ n ih => exact Memory.within_write _ (ih (by omega)) h1 (by simpa using h2)

theorem Memory.within_fillRows {dflt : S} {m : Memory S} {rows cols : Nat} (f : Nat → Nat → S) (n first count : Nat)
    (hm : Memory.within rows cols m = true) (h1 : first + count ≤ rows) (h2 : n ≤ cols) :
    Memory.within rows cols (Memory.fillRows dflt f n first count m) = true := by
  induction count with
  | zero => exact hm
  | succ c ih => exact Memory.within_fillRow _ _ _ (ih (by omega)) (by omega) h2

end Sys2Proof.Machine
end

