-- ==== Sys2Proof/Laws/State.lean ====
section
/-! SUPPORT. One lemma for each field and each update of the engine, so that no proof unfolds a record update. -/

namespace Sys2Proof.Machine

variable {S : Type}

/-! `respond`. -/

@[simp] theorem respond_cfg (st : Status) (r0 r1 : Word) (e : Engine S) : (respond st r0 r1 e).cfg = e.cfg := rfl
@[simp] theorem respond_p (st : Status) (r0 r1 : Word) (e : Engine S) : (respond st r0 r1 e).p = e.p := rfl
@[simp] theorem respond_fs (st : Status) (r0 r1 : Word) (e : Engine S) : (respond st r0 r1 e).fs = e.fs := rfl
@[simp] theorem respond_bs (st : Status) (r0 r1 : Word) (e : Engine S) : (respond st r0 r1 e).bs = e.bs := rfl
@[simp] theorem respond_cap (st : Status) (r0 r1 : Word) (e : Engine S) : (respond st r0 r1 e).cap = e.cap := rfl
@[simp] theorem respond_ready (st : Status) (r0 r1 : Word) (e : Engine S) : (respond st r0 r1 e).ready = e.ready := rfl
@[simp] theorem respond_wh (st : Status) (r0 r1 : Word) (e : Engine S) : (respond st r0 r1 e).wh = e.wh := rfl
@[simp] theorem respond_phase (st : Status) (r0 r1 : Word) (e : Engine S) : (respond st r0 r1 e).phase = e.phase := rfl
@[simp] theorem respond_fb (st : Status) (r0 r1 : Word) (e : Engine S) : (respond st r0 r1 e).fb = e.fb := rfl
@[simp] theorem respond_dl (st : Status) (r0 r1 : Word) (e : Engine S) : (respond st r0 r1 e).dl = e.dl := rfl
@[simp] theorem respond_sb (st : Status) (r0 r1 : Word) (e : Engine S) : (respond st r0 r1 e).sb = e.sb := rfl
@[simp] theorem respond_histPrev (st : Status) (r0 r1 : Word) (e : Engine S) : (respond st r0 r1 e).histPrev = e.histPrev := rfl
@[simp] theorem respond_histCur (st : Status) (r0 r1 : Word) (e : Engine S) : (respond st r0 r1 e).histCur = e.histCur := rfl
@[simp] theorem respond_port (st : Status) (r0 r1 : Word) (e : Engine S) : (respond st r0 r1 e).port = e.port := rfl
@[simp] theorem respond_gaps (st : Status) (r0 r1 : Word) (e : Engine S) : (respond st r0 r1 e).gaps = e.gaps := rfl
@[simp] theorem respond_responses (st : Status) (r0 r1 : Word) (e : Engine S) : (respond st r0 r1 e).responses = e.responses ++ [⟨st, r0, r1⟩] := rfl
@[simp] theorem respond_fresh (st : Status) (r0 r1 : Word) (e : Engine S) : (respond st r0 r1 e).fresh = e.fresh := rfl

/-! `respondOk`. -/

@[simp] theorem respondOk_cfg (r0 r1 : Word) (e : Engine S) : (respondOk r0 r1 e).cfg = e.cfg := rfl
@[simp] theorem respondOk_p (r0 r1 : Word) (e : Engine S) : (respondOk r0 r1 e).p = e.p := rfl
@[simp] theorem respondOk_fs (r0 r1 : Word) (e : Engine S) : (respondOk r0 r1 e).fs = e.fs := rfl
@[simp] theorem respondOk_bs (r0 r1 : Word) (e : Engine S) : (respondOk r0 r1 e).bs = e.bs := rfl
@[simp] theorem respondOk_cap (r0 r1 : Word) (e : Engine S) : (respondOk r0 r1 e).cap = e.cap := rfl
@[simp] theorem respondOk_ready (r0 r1 : Word) (e : Engine S) : (respondOk r0 r1 e).ready = e.ready := rfl
@[simp] theorem respondOk_wh (r0 r1 : Word) (e : Engine S) : (respondOk r0 r1 e).wh = e.wh := rfl
@[simp] theorem respondOk_phase (r0 r1 : Word) (e : Engine S) : (respondOk r0 r1 e).phase = e.phase := rfl
@[simp] theorem respondOk_fb (r0 r1 : Word) (e : Engine S) : (respondOk r0 r1 e).fb = e.fb := rfl
@[simp] theorem respondOk_dl (r0 r1 : Word) (e : Engine S) : (respondOk r0 r1 e).dl = e.dl := rfl
@[simp] theorem respondOk_sb (r0 r1 : Word) (e : Engine S) : (respondOk r0 r1 e).sb = e.sb := rfl
@[simp] theorem respondOk_histPrev (r0 r1 : Word) (e : Engine S) : (respondOk r0 r1 e).histPrev = e.histPrev := rfl
@[simp] theorem respondOk_histCur (r0 r1 : Word) (e : Engine S) : (respondOk r0 r1 e).histCur = e.histCur := rfl
@[simp] theorem respondOk_port (r0 r1 : Word) (e : Engine S) : (respondOk r0 r1 e).port = e.port := rfl
@[simp] theorem respondOk_gaps (r0 r1 : Word) (e : Engine S) : (respondOk r0 r1 e).gaps = e.gaps := rfl
@[simp] theorem respondOk_responses (r0 r1 : Word) (e : Engine S) : (respondOk r0 r1 e).responses = e.responses ++ [⟨.ok, r0, r1⟩] := rfl
@[simp] theorem respondOk_fresh (r0 r1 : Word) (e : Engine S) : (respondOk r0 r1 e).fresh = e.fresh := rfl

/-! `raiseConfig`. -/

@[simp] theorem raiseConfig_cfg (e : Engine S) : (raiseConfig e).cfg = e.cfg := rfl
@[simp] theorem raiseConfig_p (e : Engine S) : (raiseConfig e).p = e.p := rfl
@[simp] theorem raiseConfig_fs (e : Engine S) : (raiseConfig e).fs = e.fs := rfl
@[simp] theorem raiseConfig_bs (e : Engine S) : (raiseConfig e).bs = e.bs := rfl
@[simp] theorem raiseConfig_cap (e : Engine S) : (raiseConfig e).cap = e.cap := rfl
@[simp] theorem raiseConfig_ready (e : Engine S) : (raiseConfig e).ready = e.ready := rfl
@[simp] theorem raiseConfig_wh (e : Engine S) : (raiseConfig e).wh = e.wh := rfl
@[simp] theorem raiseConfig_phase (e : Engine S) : (raiseConfig e).phase = e.phase := rfl
@[simp] theorem raiseConfig_fb (e : Engine S) : (raiseConfig e).fb = e.fb := rfl
@[simp] theorem raiseConfig_dl (e : Engine S) : (raiseConfig e).dl = e.dl := rfl
@[simp] theorem raiseConfig_sb (e : Engine S) : (raiseConfig e).sb = e.sb := rfl
@[simp] theorem raiseConfig_histPrev (e : Engine S) : (raiseConfig e).histPrev = e.histPrev := rfl
@[simp] theorem raiseConfig_histCur (e : Engine S) : (raiseConfig e).histCur = e.histCur := rfl
@[simp] theorem raiseConfig_port (e : Engine S) : (raiseConfig e).port = e.port := rfl
@[simp] theorem raiseConfig_gaps (e : Engine S) : (raiseConfig e).gaps = e.gaps := rfl
@[simp] theorem raiseConfig_responses (e : Engine S) : (raiseConfig e).responses = e.responses ++ [⟨.errConfig, 0#32, 0#32⟩] := rfl
@[simp] theorem raiseConfig_fresh (e : Engine S) : (raiseConfig e).fresh = e.fresh := rfl

/-! `raiseIllegal`. -/

@[simp] theorem raiseIllegal_cfg (e : Engine S) : (raiseIllegal e).cfg = e.cfg := rfl
@[simp] theorem raiseIllegal_p (e : Engine S) : (raiseIllegal e).p = e.p := rfl
@[simp] theorem raiseIllegal_fs (e : Engine S) : (raiseIllegal e).fs = e.fs := rfl
@[simp] theorem raiseIllegal_bs (e : Engine S) : (raiseIllegal e).bs = e.bs := rfl
@[simp] theorem raiseIllegal_cap (e : Engine S) : (raiseIllegal e).cap = e.cap := rfl
@[simp] theorem raiseIllegal_ready (e : Engine S) : (raiseIllegal e).ready = e.ready := rfl
@[simp] theorem raiseIllegal_wh (e : Engine S) : (raiseIllegal e).wh = e.wh := rfl
@[simp] theorem raiseIllegal_phase (e : Engine S) : (raiseIllegal e).phase = e.phase := rfl
@[simp] theorem raiseIllegal_fb (e : Engine S) : (raiseIllegal e).fb = e.fb := rfl
@[simp] theorem raiseIllegal_dl (e : Engine S) : (raiseIllegal e).dl = e.dl := rfl
@[simp] theorem raiseIllegal_sb (e : Engine S) : (raiseIllegal e).sb = e.sb := rfl
@[simp] theorem raiseIllegal_histPrev (e : Engine S) : (raiseIllegal e).histPrev = e.histPrev := rfl
@[simp] theorem raiseIllegal_histCur (e : Engine S) : (raiseIllegal e).histCur = e.histCur := rfl
@[simp] theorem raiseIllegal_port (e : Engine S) : (raiseIllegal e).port = e.port := rfl
@[simp] theorem raiseIllegal_gaps (e : Engine S) : (raiseIllegal e).gaps = e.gaps := rfl
@[simp] theorem raiseIllegal_responses (e : Engine S) : (raiseIllegal e).responses = e.responses ++ [⟨.errIllegal, 0#32, 0#32⟩] := rfl
@[simp] theorem raiseIllegal_fresh (e : Engine S) : (raiseIllegal e).fresh = e.fresh := rfl

/-! `setParamRegister`. -/

@[simp] theorem setParamRegister_cfg (k : Param) (v : S) (e : Engine S) : (setParamRegister k v e).cfg = e.cfg := rfl
@[simp] theorem setParamRegister_p (k : Param) (v : S) (e : Engine S) : (setParamRegister k v e).p = e.p.set k v := rfl
@[simp] theorem setParamRegister_fs (k : Param) (v : S) (e : Engine S) : (setParamRegister k v e).fs = e.fs := rfl
@[simp] theorem setParamRegister_bs (k : Param) (v : S) (e : Engine S) : (setParamRegister k v e).bs = e.bs := rfl
@[simp] theorem setParamRegister_cap (k : Param) (v : S) (e : Engine S) : (setParamRegister k v e).cap = e.cap := rfl
@[simp] theorem setParamRegister_ready (k : Param) (v : S) (e : Engine S) : (setParamRegister k v e).ready = e.ready := rfl
@[simp] theorem setParamRegister_wh (k : Param) (v : S) (e : Engine S) : (setParamRegister k v e).wh = e.wh := rfl
@[simp] theorem setParamRegister_phase (k : Param) (v : S) (e : Engine S) : (setParamRegister k v e).phase = e.phase := rfl
@[simp] theorem setParamRegister_fb (k : Param) (v : S) (e : Engine S) : (setParamRegister k v e).fb = e.fb := rfl
@[simp] theorem setParamRegister_dl (k : Param) (v : S) (e : Engine S) : (setParamRegister k v e).dl = e.dl := rfl
@[simp] theorem setParamRegister_sb (k : Param) (v : S) (e : Engine S) : (setParamRegister k v e).sb = e.sb := rfl
@[simp] theorem setParamRegister_histPrev (k : Param) (v : S) (e : Engine S) : (setParamRegister k v e).histPrev = e.histPrev := rfl
@[simp] theorem setParamRegister_histCur (k : Param) (v : S) (e : Engine S) : (setParamRegister k v e).histCur = if e.cfg.paramStale then remember k (e.p.get k) e.histCur else e.histCur := rfl
@[simp] theorem setParamRegister_port (k : Param) (v : S) (e : Engine S) : (setParamRegister k v e).port = e.port := rfl
@[simp] theorem setParamRegister_gaps (k : Param) (v : S) (e : Engine S) : (setParamRegister k v e).gaps = e.gaps := rfl
@[simp] theorem setParamRegister_responses (k : Param) (v : S) (e : Engine S) : (setParamRegister k v e).responses = e.responses := rfl
@[simp] theorem setParamRegister_fresh (k : Param) (v : S) (e : Engine S) : (setParamRegister k v e).fresh = e.fresh := rfl

/-! `startBlock`. -/

@[simp] theorem startBlock_cfg (e : Engine S) : (startBlock e).cfg = e.cfg := rfl
@[simp] theorem startBlock_p (e : Engine S) : (startBlock e).p = e.p := rfl
@[simp] theorem startBlock_fs (e : Engine S) : (startBlock e).fs = e.fs := rfl
@[simp] theorem startBlock_bs (e : Engine S) : (startBlock e).bs = e.bs := rfl
@[simp] theorem startBlock_cap (e : Engine S) : (startBlock e).cap = e.cap := rfl
@[simp] theorem startBlock_ready (e : Engine S) : (startBlock e).ready = e.ready := rfl
@[simp] theorem startBlock_wh (e : Engine S) : (startBlock e).wh = e.wh := rfl
@[simp] theorem startBlock_phase (e : Engine S) : (startBlock e).phase = e.phase := rfl
@[simp] theorem startBlock_fb (e : Engine S) : (startBlock e).fb = e.fb := rfl
@[simp] theorem startBlock_dl (e : Engine S) : (startBlock e).dl = e.dl := rfl
@[simp] theorem startBlock_sb (e : Engine S) : (startBlock e).sb = e.sb := rfl
@[simp] theorem startBlock_histPrev (e : Engine S) : (startBlock e).histPrev = if e.cfg.paramStale then e.histCur else e.histPrev := rfl
@[simp] theorem startBlock_histCur (e : Engine S) : (startBlock e).histCur = if e.cfg.paramStale then emptyHistory else e.histCur := rfl
@[simp] theorem startBlock_port (e : Engine S) : (startBlock e).port = e.port := rfl
@[simp] theorem startBlock_gaps (e : Engine S) : (startBlock e).gaps = e.gaps := rfl
@[simp] theorem startBlock_responses (e : Engine S) : (startBlock e).responses = e.responses := rfl
@[simp] theorem startBlock_fresh (e : Engine S) : (startBlock e).fresh = e.fresh := rfl

/-! `afterSnapshot`. -/

@[simp] theorem afterSnapshot_cfg (e : Engine S) : (afterSnapshot e).cfg = e.cfg := rfl
@[simp] theorem afterSnapshot_p (e : Engine S) : (afterSnapshot e).p = e.p := rfl
@[simp] theorem afterSnapshot_fs (e : Engine S) : (afterSnapshot e).fs = e.fs := rfl
@[simp] theorem afterSnapshot_bs (e : Engine S) : (afterSnapshot e).bs = e.bs := rfl
@[simp] theorem afterSnapshot_cap (e : Engine S) : (afterSnapshot e).cap = e.cap := rfl
@[simp] theorem afterSnapshot_ready (e : Engine S) : (afterSnapshot e).ready = e.ready := rfl
@[simp] theorem afterSnapshot_wh (e : Engine S) : (afterSnapshot e).wh = e.wh := rfl
@[simp] theorem afterSnapshot_phase (e : Engine S) : (afterSnapshot e).phase = e.phase := rfl
@[simp] theorem afterSnapshot_fb (e : Engine S) : (afterSnapshot e).fb = e.fb := rfl
@[simp] theorem afterSnapshot_dl (e : Engine S) : (afterSnapshot e).dl = e.dl := rfl
@[simp] theorem afterSnapshot_sb (e : Engine S) : (afterSnapshot e).sb = e.sb := rfl
@[simp] theorem afterSnapshot_histPrev (e : Engine S) : (afterSnapshot e).histPrev = e.histPrev := rfl
@[simp] theorem afterSnapshot_histCur (e : Engine S) : (afterSnapshot e).histCur = e.histCur := rfl
@[simp] theorem afterSnapshot_port (e : Engine S) : (afterSnapshot e).port = e.port := rfl
@[simp] theorem afterSnapshot_gaps (e : Engine S) : (afterSnapshot e).gaps = e.gaps := rfl
@[simp] theorem afterSnapshot_responses (e : Engine S) : (afterSnapshot e).responses = e.responses := rfl
@[simp] theorem afterSnapshot_fresh (e : Engine S) : (afterSnapshot e).fresh = if e.cfg.paramStale then e.fresh + 5 else e.fresh := rfl

/-! `unspecifySession`. -/

@[simp] theorem unspecifySession_cfg (N : Numerics S) (e : Engine S) : (unspecifySession N e).cfg = e.cfg := rfl
@[simp] theorem unspecifySession_p (N : Numerics S) (e : Engine S) : (unspecifySession N e).p = e.p := rfl
@[simp] theorem unspecifySession_fs (N : Numerics S) (e : Engine S) : (unspecifySession N e).fs = N.free e.fresh := rfl
@[simp] theorem unspecifySession_bs (N : Numerics S) (e : Engine S) : (unspecifySession N e).bs = Config.freeNat (e.fresh + 1) % 2 ^ 32 := rfl
@[simp] theorem unspecifySession_cap (N : Numerics S) (e : Engine S) : (unspecifySession N e).cap = e.cap := rfl
@[simp] theorem unspecifySession_ready (N : Numerics S) (e : Engine S) : (unspecifySession N e).ready = e.ready := rfl
@[simp] theorem unspecifySession_wh (N : Numerics S) (e : Engine S) : (unspecifySession N e).wh = Config.freeNat (e.fresh + 2) % (e.cfg.ramWords + 1) := rfl
@[simp] theorem unspecifySession_phase (N : Numerics S) (e : Engine S) : (unspecifySession N e).phase = N.free (e.fresh + 3) := rfl
@[simp] theorem unspecifySession_fb (N : Numerics S) (e : Engine S) : (unspecifySession N e).fb = e.fb := rfl
@[simp] theorem unspecifySession_dl (N : Numerics S) (e : Engine S) : (unspecifySession N e).dl = [] := rfl
@[simp] theorem unspecifySession_sb (N : Numerics S) (e : Engine S) : (unspecifySession N e).sb = e.sb := rfl
@[simp] theorem unspecifySession_histPrev (N : Numerics S) (e : Engine S) : (unspecifySession N e).histPrev = e.histPrev := rfl
@[simp] theorem unspecifySession_histCur (N : Numerics S) (e : Engine S) : (unspecifySession N e).histCur = e.histCur := rfl
@[simp] theorem unspecifySession_port (N : Numerics S) (e : Engine S) : (unspecifySession N e).port = e.port := rfl
@[simp] theorem unspecifySession_gaps (N : Numerics S) (e : Engine S) : (unspecifySession N e).gaps = e.gaps := rfl
@[simp] theorem unspecifySession_responses (N : Numerics S) (e : Engine S) : (unspecifySession N e).responses = e.responses := rfl
@[simp] theorem unspecifySession_fresh (N : Numerics S) (e : Engine S) : (unspecifySession N e).fresh = e.fresh + 4 := rfl

/-! `unspecifyFeedback`. -/

@[simp] theorem unspecifyFeedback_cfg (N : Numerics S) (e : Engine S) : (unspecifyFeedback N e).cfg = e.cfg := rfl
@[simp] theorem unspecifyFeedback_p (N : Numerics S) (e : Engine S) : (unspecifyFeedback N e).p = e.p := rfl
@[simp] theorem unspecifyFeedback_fs (N : Numerics S) (e : Engine S) : (unspecifyFeedback N e).fs = e.fs := rfl
@[simp] theorem unspecifyFeedback_bs (N : Numerics S) (e : Engine S) : (unspecifyFeedback N e).bs = e.bs := rfl
@[simp] theorem unspecifyFeedback_cap (N : Numerics S) (e : Engine S) : (unspecifyFeedback N e).cap = e.cap := rfl
@[simp] theorem unspecifyFeedback_ready (N : Numerics S) (e : Engine S) : (unspecifyFeedback N e).ready = e.ready := rfl
@[simp] theorem unspecifyFeedback_wh (N : Numerics S) (e : Engine S) : (unspecifyFeedback N e).wh = e.wh := rfl
@[simp] theorem unspecifyFeedback_phase (N : Numerics S) (e : Engine S) : (unspecifyFeedback N e).phase = e.phase := rfl
@[simp] theorem unspecifyFeedback_fb (N : Numerics S) (e : Engine S) : (unspecifyFeedback N e).fb = ⟨N.free e.fresh, N.free (e.fresh + 1)⟩ := rfl
@[simp] theorem unspecifyFeedback_dl (N : Numerics S) (e : Engine S) : (unspecifyFeedback N e).dl = e.dl := rfl
@[simp] theorem unspecifyFeedback_sb (N : Numerics S) (e : Engine S) : (unspecifyFeedback N e).sb = e.sb := rfl
@[simp] theorem unspecifyFeedback_histPrev (N : Numerics S) (e : Engine S) : (unspecifyFeedback N e).histPrev = e.histPrev := rfl
@[simp] theorem unspecifyFeedback_histCur (N : Numerics S) (e : Engine S) : (unspecifyFeedback N e).histCur = e.histCur := rfl
@[simp] theorem unspecifyFeedback_port (N : Numerics S) (e : Engine S) : (unspecifyFeedback N e).port = e.port := rfl
@[simp] theorem unspecifyFeedback_gaps (N : Numerics S) (e : Engine S) : (unspecifyFeedback N e).gaps = e.gaps := rfl
@[simp] theorem unspecifyFeedback_responses (N : Numerics S) (e : Engine S) : (unspecifyFeedback N e).responses = e.responses := rfl
@[simp] theorem unspecifyFeedback_fresh (N : Numerics S) (e : Engine S) : (unspecifyFeedback N e).fresh = e.fresh + 2 := rfl

/-! `powerOn`. -/

@[simp] theorem powerOn_cfg (N : Numerics S) (e : Engine S) : (powerOn N e).cfg = e.cfg := rfl
@[simp] theorem powerOn_p (N : Numerics S) (e : Engine S) : (powerOn N e).p = paramDefaults N := rfl
@[simp] theorem powerOn_fs (N : Numerics S) (e : Engine S) : (powerOn N e).fs = N.free e.fresh := rfl
@[simp] theorem powerOn_bs (N : Numerics S) (e : Engine S) : (powerOn N e).bs = Config.freeNat (e.fresh + 1) % 2 ^ 32 := rfl
@[simp] theorem powerOn_cap (N : Numerics S) (e : Engine S) : (powerOn N e).cap = 0 := rfl
@[simp] theorem powerOn_ready (N : Numerics S) (e : Engine S) : (powerOn N e).ready = false := rfl
@[simp] theorem powerOn_wh (N : Numerics S) (e : Engine S) : (powerOn N e).wh = Config.freeNat (e.fresh + 2) % (e.cfg.ramWords + 1) := rfl
@[simp] theorem powerOn_phase (N : Numerics S) (e : Engine S) : (powerOn N e).phase = N.free (e.fresh + 3) := rfl
@[simp] theorem powerOn_fb (N : Numerics S) (e : Engine S) : (powerOn N e).fb = ⟨N.zero, N.zero⟩ := rfl
@[simp] theorem powerOn_dl (N : Numerics S) (e : Engine S) : (powerOn N e).dl = [] := rfl
@[simp] theorem powerOn_sb (N : Numerics S) (e : Engine S) : (powerOn N e).sb = e.sb := rfl
@[simp] theorem powerOn_histPrev (N : Numerics S) (e : Engine S) : (powerOn N e).histPrev = emptyHistory := rfl
@[simp] theorem powerOn_histCur (N : Numerics S) (e : Engine S) : (powerOn N e).histCur = emptyHistory := rfl
@[simp] theorem powerOn_port (N : Numerics S) (e : Engine S) : (powerOn N e).port = e.port := rfl
@[simp] theorem powerOn_gaps (N : Numerics S) (e : Engine S) : (powerOn N e).gaps = e.gaps := rfl
@[simp] theorem powerOn_responses (N : Numerics S) (e : Engine S) : (powerOn N e).responses = e.responses := rfl
@[simp] theorem powerOn_fresh (N : Numerics S) (e : Engine S) : (powerOn N e).fresh = e.fresh + 4 := rfl

/-! `openSession`. -/

@[simp] theorem openSession_cfg (N : Numerics S) (fs : S) (bs cap : Nat) (e : Engine S) : (openSession N fs bs cap e).cfg = e.cfg := rfl
@[simp] theorem openSession_p (N : Numerics S) (fs : S) (bs cap : Nat) (e : Engine S) : (openSession N fs bs cap e).p = e.p := rfl
@[simp] theorem openSession_fs (N : Numerics S) (fs : S) (bs cap : Nat) (e : Engine S) : (openSession N fs bs cap e).fs = fs := rfl
@[simp] theorem openSession_bs (N : Numerics S) (fs : S) (bs cap : Nat) (e : Engine S) : (openSession N fs bs cap e).bs = bs := rfl
@[simp] theorem openSession_cap (N : Numerics S) (fs : S) (bs cap : Nat) (e : Engine S) : (openSession N fs bs cap e).cap = cap := rfl
@[simp] theorem openSession_ready (N : Numerics S) (fs : S) (bs cap : Nat) (e : Engine S) : (openSession N fs bs cap e).ready = true := rfl
@[simp] theorem openSession_wh (N : Numerics S) (fs : S) (bs cap : Nat) (e : Engine S) : (openSession N fs bs cap e).wh = 0 := rfl
@[simp] theorem openSession_phase (N : Numerics S) (fs : S) (bs cap : Nat) (e : Engine S) : (openSession N fs bs cap e).phase = N.zero := rfl
@[simp] theorem openSession_fb (N : Numerics S) (fs : S) (bs cap : Nat) (e : Engine S) : (openSession N fs bs cap e).fb = ⟨N.zero, N.zero⟩ := rfl
@[simp] theorem openSession_dl (N : Numerics S) (fs : S) (bs cap : Nat) (e : Engine S) : (openSession N fs bs cap e).dl = [] := rfl
@[simp] theorem openSession_sb (N : Numerics S) (fs : S) (bs cap : Nat) (e : Engine S) : (openSession N fs bs cap e).sb = e.sb := rfl
@[simp] theorem openSession_histPrev (N : Numerics S) (fs : S) (bs cap : Nat) (e : Engine S) : (openSession N fs bs cap e).histPrev = e.histPrev := rfl
@[simp] theorem openSession_histCur (N : Numerics S) (fs : S) (bs cap : Nat) (e : Engine S) : (openSession N fs bs cap e).histCur = e.histCur := rfl
@[simp] theorem openSession_port (N : Numerics S) (fs : S) (bs cap : Nat) (e : Engine S) : (openSession N fs bs cap e).port = e.port := rfl
@[simp] theorem openSession_gaps (N : Numerics S) (fs : S) (bs cap : Nat) (e : Engine S) : (openSession N fs bs cap e).gaps = e.gaps := rfl
@[simp] theorem openSession_responses (N : Numerics S) (fs : S) (bs cap : Nat) (e : Engine S) : (openSession N fs bs cap e).responses = e.responses := rfl
@[simp] theorem openSession_fresh (N : Numerics S) (fs : S) (bs cap : Nat) (e : Engine S) : (openSession N fs bs cap e).fresh = e.fresh := rfl

/-! `failSession`. -/

@[simp] theorem failSession_cfg (N : Numerics S) (e : Engine S) : (failSession N e).cfg = e.cfg := rfl
@[simp] theorem failSession_p (N : Numerics S) (e : Engine S) : (failSession N e).p = e.p := rfl
@[simp] theorem failSession_fs (N : Numerics S) (e : Engine S) : (failSession N e).fs = N.free e.fresh := rfl
@[simp] theorem failSession_bs (N : Numerics S) (e : Engine S) : (failSession N e).bs = Config.freeNat (e.fresh + 1) % 2 ^ 32 := rfl
@[simp] theorem failSession_cap (N : Numerics S) (e : Engine S) : (failSession N e).cap = 0 := rfl
@[simp] theorem failSession_ready (N : Numerics S) (e : Engine S) : (failSession N e).ready = false := rfl
@[simp] theorem failSession_wh (N : Numerics S) (e : Engine S) : (failSession N e).wh = Config.freeNat (e.fresh + 2) % (e.cfg.ramWords + 1) := rfl
@[simp] theorem failSession_phase (N : Numerics S) (e : Engine S) : (failSession N e).phase = N.free (e.fresh + 3) := rfl
@[simp] theorem failSession_fb (N : Numerics S) (e : Engine S) : (failSession N e).fb = ⟨N.free (e.fresh + 4), N.free (e.fresh + 5)⟩ := rfl
@[simp] theorem failSession_dl (N : Numerics S) (e : Engine S) : (failSession N e).dl = [] := rfl
@[simp] theorem failSession_sb (N : Numerics S) (e : Engine S) : (failSession N e).sb = e.sb := rfl
@[simp] theorem failSession_histPrev (N : Numerics S) (e : Engine S) : (failSession N e).histPrev = e.histPrev := rfl
@[simp] theorem failSession_histCur (N : Numerics S) (e : Engine S) : (failSession N e).histCur = e.histCur := rfl
@[simp] theorem failSession_port (N : Numerics S) (e : Engine S) : (failSession N e).port = e.port := rfl
@[simp] theorem failSession_gaps (N : Numerics S) (e : Engine S) : (failSession N e).gaps = e.gaps := rfl
@[simp] theorem failSession_responses (N : Numerics S) (e : Engine S) : (failSession N e).responses = e.responses := rfl
@[simp] theorem failSession_fresh (N : Numerics S) (e : Engine S) : (failSession N e).fresh = e.fresh + 6 := rfl

/-! `whAdv`. -/

@[simp] theorem whAdv_cfg (e : Engine S) : (whAdv e).cfg = e.cfg := rfl
@[simp] theorem whAdv_p (e : Engine S) : (whAdv e).p = e.p := rfl
@[simp] theorem whAdv_fs (e : Engine S) : (whAdv e).fs = e.fs := rfl
@[simp] theorem whAdv_bs (e : Engine S) : (whAdv e).bs = e.bs := rfl
@[simp] theorem whAdv_cap (e : Engine S) : (whAdv e).cap = e.cap := rfl
@[simp] theorem whAdv_ready (e : Engine S) : (whAdv e).ready = e.ready := rfl
@[simp] theorem whAdv_wh (e : Engine S) : (whAdv e).wh = nextHead e.cap e.wh := rfl
@[simp] theorem whAdv_phase (e : Engine S) : (whAdv e).phase = e.phase := rfl
@[simp] theorem whAdv_fb (e : Engine S) : (whAdv e).fb = e.fb := rfl
@[simp] theorem whAdv_dl (e : Engine S) : (whAdv e).dl = e.dl := rfl
@[simp] theorem whAdv_sb (e : Engine S) : (whAdv e).sb = e.sb := rfl
@[simp] theorem whAdv_histPrev (e : Engine S) : (whAdv e).histPrev = e.histPrev := rfl
@[simp] theorem whAdv_histCur (e : Engine S) : (whAdv e).histCur = e.histCur := rfl
@[simp] theorem whAdv_port (e : Engine S) : (whAdv e).port = e.port := rfl
@[simp] theorem whAdv_gaps (e : Engine S) : (whAdv e).gaps = e.gaps := rfl
@[simp] theorem whAdv_responses (e : Engine S) : (whAdv e).responses = e.responses := rfl
@[simp] theorem whAdv_fresh (e : Engine S) : (whAdv e).fresh = e.fresh := rfl

/-! `fbUpd`. -/

@[simp] theorem fbUpd_cfg (N : Numerics S) (q : Params S) (y : Stereo S) (e : Engine S) : (fbUpd N q y e).cfg = e.cfg := rfl
@[simp] theorem fbUpd_p (N : Numerics S) (q : Params S) (y : Stereo S) (e : Engine S) : (fbUpd N q y e).p = e.p := rfl
@[simp] theorem fbUpd_fs (N : Numerics S) (q : Params S) (y : Stereo S) (e : Engine S) : (fbUpd N q y e).fs = e.fs := rfl
@[simp] theorem fbUpd_bs (N : Numerics S) (q : Params S) (y : Stereo S) (e : Engine S) : (fbUpd N q y e).bs = e.bs := rfl
@[simp] theorem fbUpd_cap (N : Numerics S) (q : Params S) (y : Stereo S) (e : Engine S) : (fbUpd N q y e).cap = e.cap := rfl
@[simp] theorem fbUpd_ready (N : Numerics S) (q : Params S) (y : Stereo S) (e : Engine S) : (fbUpd N q y e).ready = e.ready := rfl
@[simp] theorem fbUpd_wh (N : Numerics S) (q : Params S) (y : Stereo S) (e : Engine S) : (fbUpd N q y e).wh = e.wh := rfl
@[simp] theorem fbUpd_phase (N : Numerics S) (q : Params S) (y : Stereo S) (e : Engine S) : (fbUpd N q y e).phase = e.phase := rfl
@[simp] theorem fbUpd_fb (N : Numerics S) (q : Params S) (y : Stereo S) (e : Engine S) : (fbUpd N q y e).fb = feedbackOf N q y := rfl
@[simp] theorem fbUpd_dl (N : Numerics S) (q : Params S) (y : Stereo S) (e : Engine S) : (fbUpd N q y e).dl = e.dl := rfl
@[simp] theorem fbUpd_sb (N : Numerics S) (q : Params S) (y : Stereo S) (e : Engine S) : (fbUpd N q y e).sb = e.sb := rfl
@[simp] theorem fbUpd_histPrev (N : Numerics S) (q : Params S) (y : Stereo S) (e : Engine S) : (fbUpd N q y e).histPrev = e.histPrev := rfl
@[simp] theorem fbUpd_histCur (N : Numerics S) (q : Params S) (y : Stereo S) (e : Engine S) : (fbUpd N q y e).histCur = e.histCur := rfl
@[simp] theorem fbUpd_port (N : Numerics S) (q : Params S) (y : Stereo S) (e : Engine S) : (fbUpd N q y e).port = e.port := rfl
@[simp] theorem fbUpd_gaps (N : Numerics S) (q : Params S) (y : Stereo S) (e : Engine S) : (fbUpd N q y e).gaps = e.gaps := rfl
@[simp] theorem fbUpd_responses (N : Numerics S) (q : Params S) (y : Stereo S) (e : Engine S) : (fbUpd N q y e).responses = e.responses := rfl
@[simp] theorem fbUpd_fresh (N : Numerics S) (q : Params S) (y : Stereo S) (e : Engine S) : (fbUpd N q y e).fresh = e.fresh := rfl

/-! `phAdv`. -/

@[simp] theorem phAdv_cfg (N : Numerics S) (q : Params S) (e : Engine S) : (phAdv N q e).cfg = e.cfg := rfl
@[simp] theorem phAdv_p (N : Numerics S) (q : Params S) (e : Engine S) : (phAdv N q e).p = e.p := rfl
@[simp] theorem phAdv_fs (N : Numerics S) (q : Params S) (e : Engine S) : (phAdv N q e).fs = e.fs := rfl
@[simp] theorem phAdv_bs (N : Numerics S) (q : Params S) (e : Engine S) : (phAdv N q e).bs = e.bs := rfl
@[simp] theorem phAdv_cap (N : Numerics S) (q : Params S) (e : Engine S) : (phAdv N q e).cap = e.cap := rfl
@[simp] theorem phAdv_ready (N : Numerics S) (q : Params S) (e : Engine S) : (phAdv N q e).ready = e.ready := rfl
@[simp] theorem phAdv_wh (N : Numerics S) (q : Params S) (e : Engine S) : (phAdv N q e).wh = e.wh := rfl
@[simp] theorem phAdv_phase (N : Numerics S) (q : Params S) (e : Engine S) : (phAdv N q e).phase = nextPhase N q e := rfl
@[simp] theorem phAdv_fb (N : Numerics S) (q : Params S) (e : Engine S) : (phAdv N q e).fb = e.fb := rfl
@[simp] theorem phAdv_dl (N : Numerics S) (q : Params S) (e : Engine S) : (phAdv N q e).dl = e.dl := rfl
@[simp] theorem phAdv_sb (N : Numerics S) (q : Params S) (e : Engine S) : (phAdv N q e).sb = e.sb := rfl
@[simp] theorem phAdv_histPrev (N : Numerics S) (q : Params S) (e : Engine S) : (phAdv N q e).histPrev = e.histPrev := rfl
@[simp] theorem phAdv_histCur (N : Numerics S) (q : Params S) (e : Engine S) : (phAdv N q e).histCur = e.histCur := rfl
@[simp] theorem phAdv_port (N : Numerics S) (q : Params S) (e : Engine S) : (phAdv N q e).port = e.port := rfl
@[simp] theorem phAdv_gaps (N : Numerics S) (q : Params S) (e : Engine S) : (phAdv N q e).gaps = e.gaps := rfl
@[simp] theorem phAdv_responses (N : Numerics S) (q : Params S) (e : Engine S) : (phAdv N q e).responses = e.responses := rfl
@[simp] theorem phAdv_fresh (N : Numerics S) (q : Params S) (e : Engine S) : (phAdv N q e).fresh = e.fresh := rfl

/-! `clearExtra`. -/

@[simp] theorem clearExtra_cfg [DecidableEq S] (N : Numerics S) (n nch : Nat) (e : Engine S) : (clearExtra N n nch e).cfg = e.cfg := rfl
@[simp] theorem clearExtra_p [DecidableEq S] (N : Numerics S) (n nch : Nat) (e : Engine S) : (clearExtra N n nch e).p = e.p := rfl
@[simp] theorem clearExtra_fs [DecidableEq S] (N : Numerics S) (n nch : Nat) (e : Engine S) : (clearExtra N n nch e).fs = e.fs := rfl
@[simp] theorem clearExtra_bs [DecidableEq S] (N : Numerics S) (n nch : Nat) (e : Engine S) : (clearExtra N n nch e).bs = e.bs := rfl
@[simp] theorem clearExtra_cap [DecidableEq S] (N : Numerics S) (n nch : Nat) (e : Engine S) : (clearExtra N n nch e).cap = e.cap := rfl
@[simp] theorem clearExtra_ready [DecidableEq S] (N : Numerics S) (n nch : Nat) (e : Engine S) : (clearExtra N n nch e).ready = e.ready := rfl
@[simp] theorem clearExtra_wh [DecidableEq S] (N : Numerics S) (n nch : Nat) (e : Engine S) : (clearExtra N n nch e).wh = e.wh := rfl
@[simp] theorem clearExtra_phase [DecidableEq S] (N : Numerics S) (n nch : Nat) (e : Engine S) : (clearExtra N n nch e).phase = e.phase := rfl
@[simp] theorem clearExtra_fb [DecidableEq S] (N : Numerics S) (n nch : Nat) (e : Engine S) : (clearExtra N n nch e).fb = e.fb := rfl
@[simp] theorem clearExtra_dl [DecidableEq S] (N : Numerics S) (n nch : Nat) (e : Engine S) : (clearExtra N n nch e).dl = e.dl := rfl
@[simp] theorem clearExtra_sb [DecidableEq S] (N : Numerics S) (n nch : Nat) (e : Engine S) : (clearExtra N n nch e).sb = Memory.fillRows N.zero (fun _ _ => N.zero) n 2 (nch - 2) e.sb := rfl
@[simp] theorem clearExtra_histPrev [DecidableEq S] (N : Numerics S) (n nch : Nat) (e : Engine S) : (clearExtra N n nch e).histPrev = e.histPrev := rfl
@[simp] theorem clearExtra_histCur [DecidableEq S] (N : Numerics S) (n nch : Nat) (e : Engine S) : (clearExtra N n nch e).histCur = e.histCur := rfl
@[simp] theorem clearExtra_port [DecidableEq S] (N : Numerics S) (n nch : Nat) (e : Engine S) : (clearExtra N n nch e).port = e.port := rfl
@[simp] theorem clearExtra_gaps [DecidableEq S] (N : Numerics S) (n nch : Nat) (e : Engine S) : (clearExtra N n nch e).gaps = e.gaps := rfl
@[simp] theorem clearExtra_responses [DecidableEq S] (N : Numerics S) (n nch : Nat) (e : Engine S) : (clearExtra N n nch e).responses = e.responses := rfl
@[simp] theorem clearExtra_fresh [DecidableEq S] (N : Numerics S) (n nch : Nat) (e : Engine S) : (clearExtra N n nch e).fresh = e.fresh := rfl

end Sys2Proof.Machine
end

