-- ==== Sys2Proof/Laws/Ops.lean ====
section
/-! SUPPORT. One lemma for each shared operation: what it answers, and what it leaves alone. -/

namespace Sys2Proof.Machine

variable {S : Type} [DecidableEq S]

/-! The machine in its two profiles. -/

@[simp] theorem mapNext_next {A B : Type} (f : A → B) (a : A) :
    mapNext f (.next a : Host.Outcome A Fault Refusal) = .next (f a) := rfl

@[simp] theorem mapNext_fault {A B : Type} (f : A → B) (r : Fault) :
    mapNext f (.fault r : Host.Outcome A Fault Refusal) = .fault r := rfl

@[simp] theorem mapNext_refused {A B : Type} (f : A → B) (r : Refusal) :
    mapNext f (.refused r : Host.Outcome A Fault Refusal) = .refused r := rfl

theorem mapNext_eq_next {A B : Type} {f : A → B} {o : Host.Outcome A Fault Refusal} {b : B}
    (h : mapNext f o = .next b) : ∃ a, o = .next a ∧ f a = b := by
  cases o with
  | next a => exact ⟨a, rfl, by simpa using h⟩
  | fault r => simp at h
  | refused r => simp at h

theorem mapNext_eq_fault {A B : Type} {f : A → B} {o : Host.Outcome A Fault Refusal} {r : Fault}
    (h : mapNext f o = .fault r) : o = .fault r := by
  cases o with
  | next a => simp at h
  | fault r' => simpa using h
  | refused r' => simp at h

@[simp] theorem onEngine_f32
    (f : {S : Type} → [DecidableEq S] → Numerics S → Engine S → Host.Outcome (Engine S) Fault Refusal)
    (e : Engine Word) : onEngine f (State.f32 e) = mapNext State.f32 (f Machine.f32 e) := rfl

@[simp] theorem onEngine_real
    (f : {S : Type} → [DecidableEq S] → Numerics S → Engine S → Host.Outcome (Engine S) Fault Refusal)
    (e : Engine Rat) : onEngine f (State.real e) = mapNext State.real (f Machine.real e) := rfl

@[simp] theorem arrival_f32 (e : Engine Word) : arrival (State.f32 e) = engineArrival Machine.f32 State.f32 e := rfl

@[simp] theorem arrival_real (e : Engine Rat) : arrival (State.real e) = engineArrival Machine.real State.real e := rfl

/-- How `exec` and `step` act on the states of a profile: enough to prove a claim for both profiles at once. -/
structure ActsOn (N : Numerics S) (inj : Engine S → State) : Prop where
  injective : Function.Injective inj
  inv : ∀ e, StateInv (inj e) ↔ EngineInv N e
  cfg : ∀ a b e, exec (.cfg a b) (inj e) = .next (inj (configure N a b e))
  setp : ∀ id v e, exec (.setp id v) (inj e) = .next (inj (setParam N id v e))
  getp : ∀ id e, exec (.getp id) (inj e) = .next (inj (getParam N id e))
  smp : ∀ a b e, exec (.smp a b) (inj e) = mapNext inj (processSample N a b e)
  proc : ∀ n c e, exec (.proc n c) (inj e) = mapNext inj (processBlock N n c e)
  illegal : ∀ e, answerIllegal (inj e) = .next (inj (raiseIllegal e))
  arrives : ∀ e, arrival (inj e) = engineArrival N inj e

theorem actsOn_f32 : ActsOn Machine.f32 State.f32 :=
  ⟨fun a b h => by injection h with h; injection h, fun _ => Iff.rfl, fun _ _ _ => rfl, fun _ _ _ => rfl,
    fun _ _ => rfl, fun _ _ _ => rfl, fun _ _ _ => rfl, fun _ => rfl, fun _ => rfl⟩

theorem actsOn_real : ActsOn Machine.real State.real :=
  ⟨fun a b h => by injection h with h; injection h, fun _ => Iff.rfl, fun _ _ _ => rfl, fun _ _ _ => rfl,
    fun _ _ => rfl, fun _ _ _ => rfl, fun _ _ _ => rfl, fun _ => rfl, fun _ => rfl⟩

theorem ActsOn.next_inj {N : Numerics S} {inj : Engine S → State} (A : ActsOn N inj)
    {o : Host.Outcome (Engine S) Fault Refusal} {e : Engine S} (h : mapNext inj o = .next (inj e)) : o = .next e := by
  obtain ⟨a, rfl, ha⟩ := mapNext_eq_next h
  rw [A.injective ha]

theorem ActsOn.next_eq {N : Numerics S} {inj : Engine S → State} (A : ActsOn N inj) {a b : Engine S}
    (h : (.next (inj a) : Host.Outcome State Fault Refusal) = .next (inj b)) : a = b :=
  A.injective (Host.Outcome.next.inj h)

/-- A claim about engines holds in both profiles when it holds wherever `exec` and `step` act as they do. -/
theorem bothProfiles_of {P : (S : Type) → [DecidableEq S] → Numerics S → (Engine S → State) → Prop}
    (h : ∀ (S : Type) [DecidableEq S] (N : Numerics S) (inj : Engine S → State), ActsOn N inj → P S N inj) :
    BothProfiles P :=
  ⟨h Word _ _ actsOn_f32, h Rat _ _ actsOn_real⟩

/-! Parameters. -/

omit [DecidableEq S] in
@[simp] theorem Params.get_set_same (p : Params S) (k : Param) (v : S) : (p.set k v).get k = v := by cases k <;> rfl

omit [DecidableEq S] in
theorem Params.get_set_other (p : Params S) {k j : Param} (v : S) (h : j ≠ k) : (p.set k v).get j = p.get j := by
  cases k <;> cases j <;> first | rfl | exact absurd rfl h

omit [DecidableEq S] in
@[simp] theorem Params.get_tabulate (f : Param → S) (k : Param) : (Params.tabulate f).get k = f k := by cases k <;> rfl

omit [DecidableEq S] in
theorem Params.ext_get {p q : Params S} (h : ∀ k, p.get k = q.get k) : p = q := by
  have h0 := h .feedback; have h1 := h .phaseOffset; have h2 := h .mix; have h3 := h .chorusDepth
  have h4 := h .chorusRate
  cases p; cases q; simp_all [Params.get]

omit [DecidableEq S] in
@[simp] theorem emptyHistory_get (k : Param) : (emptyHistory : Params (List S)).get k = [] := by cases k <;> rfl

/-- Which ids name a parameter (R54). -/
theorem paramOfId_eq_none {id : BitVec 3} : paramOfId id = none ↔ idExists id = false := by
  revert id; decide

theorem paramOfId_idOfParam (k : Param) : paramOfId (idOfParam k) = some k := by cases k <;> decide

theorem paramOfId_eq_some {id : BitVec 3} {k : Param} : paramOfId id = some k ↔ id = idOfParam k := by
  revert id; cases k <;> decide

/-! Accesses. -/

omit [DecidableEq S] in
theorem dlRead_of_lt (N : Numerics S) {e : Engine S} {i : Nat} (c : Nat) (h : i < e.cap) :
    dlRead N e c i = some (Memory.read N.zero e.dl (c, i)) := if_pos h

omit [DecidableEq S] in
theorem dlRead_eq_some {N : Numerics S} {e : Engine S} {c i : Nat} {v : S} :
    dlRead N e c i = some v ↔ i < e.cap ∧ v = Memory.read N.zero e.dl (c, i) := by
  unfold dlRead; split <;> simp [*, eq_comm]

theorem dlWrite_of_lt (N : Numerics S) {e : Engine S} {i : Nat} (c : Nat) (v : S) (h : i < e.cap) :
    dlWrite N e c i v = some { e with dl := Memory.write N.zero e.dl (c, i) v } := if_pos h

theorem dlWrite_eq_some {N : Numerics S} {e e' : Engine S} {c i : Nat} {v : S} :
    dlWrite N e c i v = some e' ↔ i < e.cap ∧ e' = { e with dl := Memory.write N.zero e.dl (c, i) v } := by
  unfold dlWrite; split <;> simp [*, eq_comm]

omit [DecidableEq S] in
theorem sbExists_iff {e : Engine S} {ch idx : Nat} :
    sbExists e ch idx = true ↔ ch < e.cfg.sbCh ∧ idx < e.cfg.sbLen := by simp [sbExists]

omit [DecidableEq S] in
theorem sbRead_eq_some {N : Numerics S} {e : Engine S} {ch idx : Nat} {v : S} :
    sbRead N e ch idx = some v ↔
      (ch < e.cfg.sbCh ∧ idx < e.cfg.sbLen) ∧ v = Memory.read N.zero e.sb (ch, idx) := by
  rw [← sbExists_iff]; unfold sbRead; split <;> simp [*, eq_comm]

theorem sbWrite_eq_some {N : Numerics S} {e e' : Engine S} {ch idx : Nat} {v : S} :
    sbWrite N e ch idx v = some e' ↔
      (ch < e.cfg.sbCh ∧ idx < e.cfg.sbLen) ∧ e' = { e with sb := Memory.write N.zero e.sb (ch, idx) v } := by
  rw [← sbExists_iff]; unfold sbWrite; split <;> simp [*, eq_comm]

/-! Snapshots (R131, R41). -/

omit [DecidableEq S] in
theorem snapshot_of_not_stale {e : Engine S} (b : Bool) (h : e.cfg.paramStale = false) : snapshot b e = e.p := by
  simp [snapshot, h]

omit [DecidableEq S] in
theorem afterSnapshot_of_not_stale {e : Engine S} (h : e.cfg.paramStale = false) : afterSnapshot e = e := by
  cases e; simp_all [afterSnapshot]

omit [DecidableEq S] in
/-- A stale read is one of the values the register held (R41). -/
theorem staleRead_mem (b : Bool) (e : Engine S) (k : Param) : staleRead b e k ∈ staleValues b e k := by
  have hpos : 0 < (staleValues b e k).length := by simp [staleValues]
  have hlt := Nat.mod_lt (Config.freeNat (e.fresh + paramIndex k)) hpos
  unfold staleRead
  rw [List.getD_eq_getElem?_getD, List.getElem?_eq_getElem hlt]
  exact List.getElem_mem hlt

end Sys2Proof.Machine
end

