-- ==== Sys2Proof/Laws/Stages.lean ====
section
/-! SUPPORT. The stage operations and the sample step: when each completes and with what (R90 to R130). -/

namespace Sys2Proof.Machine

variable {S : Type} [DecidableEq S]

/-- The delay RAMs after DLWRITE (R90). -/
def delayedRams (N : Numerics S) (x : Stereo S) (e : Engine S) : Memory S :=
  Memory.write N.zero (Memory.write N.zero e.dl (0, e.wh) (N.add x.left e.fb.left)) (1, e.wh) (N.add x.right e.fb.right)

/-- DLWRITE completes exactly when the write head lies in the buffer. -/
theorem dlWriteStage_eq_ok {N : Numerics S} {x : Stereo S} {e e' : Engine S} :
    dlWriteStage N x e = .ok e' ↔ e.wh < e.cap ∧ e' = { e with dl := delayedRams N x e } := by
  unfold dlWriteStage
  by_cases h : e.wh < e.cap
  · rw [dlWrite_of_lt N 0 _ h]
    have h2 := dlWrite_of_lt N (e := { e with dl := Memory.write N.zero e.dl (0, e.wh) (delayInput N x e).left })
      1 (delayInput N x e).right h
    simp only [h2]
    simp [h, delayedRams, delayInput, eq_comm]
  · have : dlWrite N e 0 e.wh (delayInput N x e).left = none := if_neg h
    rw [this]; simp [h]

theorem dlWriteStage_error {N : Numerics S} {x : Stereo S} {e : Engine S} {f : Fault}
    (h : dlWriteStage N x e = .error f) : e.cap ≤ e.wh ∧ f = .delayRange := by
  by_cases hw : e.wh < e.cap
  · rw [dlWriteStage_eq_ok.2 ⟨hw, rfl⟩] at h; exact absurd h (by simp)
  · unfold dlWriteStage at h
    have h0 : dlWrite N e 0 e.wh (delayInput N x e).left = none := if_neg hw
    rw [h0] at h
    exact ⟨by omega, by simpa using h.symm⟩

omit [DecidableEq S] in
/-- An index of at most `CAP` is in range once normalised (R114 (a)). -/
theorem normaliseIndex_lt {cap i : Nat} (hc : 1 ≤ cap) (h : i ≤ cap) : normaliseIndex cap i < cap := by
  unfold normaliseIndex; split <;> omega

omit [DecidableEq S] in
theorem nextIndex_lt {cap i0 : Nat} (h : i0 < cap) : nextIndex cap i0 < cap := by
  unfold nextIndex normaliseIndex; split <;> omega

omit [DecidableEq S] in
/-- `0 <= WH < CAP` holds again after WHADV (R92). -/
theorem nextHead_lt {cap wh : Nat} (hc : 1 ≤ cap) : nextHead cap wh < cap := by
  unfold nextHead; split <;> omega

omit [DecidableEq S] in
/-- WHADV counts modulo the capacity (R92). -/
theorem nextHead_eq_mod {cap wh : Nat} (h : wh < cap) : nextHead cap wh = (wh + 1) % cap := by
  unfold nextHead
  split
  · have : wh + 1 = cap := by omega
    rw [this, Nat.mod_self]
  · rw [Nat.mod_eq_of_lt]; omega

omit [DecidableEq S] in
/-- The first index of INTERP (R111). -/
theorem interpAt_eq_ok {N : Numerics S} {e : Engine S} {c : Nat} {rp y : S} :
    interpAt N e c rp = .ok y ↔ ∃ i, N.floorNat rp = some i ∧ normaliseIndex e.cap i < e.cap ∧
      y = blend N (Memory.read N.zero e.dl (c, normaliseIndex e.cap i))
        (Memory.read N.zero e.dl (c, nextIndex e.cap (normaliseIndex e.cap i))) (N.sub rp (N.ofNat i)) := by
  unfold interpAt splitPosition
  cases hf : N.floorNat rp with
  | none => simp
  | some i =>
    simp only [Option.some.injEq, exists_eq_left']
    by_cases h : normaliseIndex e.cap i < e.cap
    · rw [dlRead_of_lt N c h, dlRead_of_lt N c (nextIndex_lt h)]
      simp [h, eq_comm]
    · have : dlRead N e c (normaliseIndex e.cap i) = none := if_neg h
      rw [this]; simp [h]

omit [DecidableEq S] in
/-- INTERP completes where both positions have a floor of at most `CAP` (R114). -/
theorem interp_completes {N : Numerics S} {e : Engine S} {rp : Stereo S} (hc : 1 ≤ e.cap)
    (hl : ∃ i, N.floorNat rp.left = some i ∧ i ≤ e.cap) (hr : ∃ i, N.floorNat rp.right = some i ∧ i ≤ e.cap) :
    ∃ y, interp N rp e = .ok y := by
  obtain ⟨i, hi, hic⟩ := hl
  obtain ⟨j, hj, hjc⟩ := hr
  have h1 := interpAt_eq_ok (c := 0).2 ⟨i, hi, normaliseIndex_lt hc hic, rfl⟩
  have h2 := interpAt_eq_ok (c := 1).2 ⟨j, hj, normaliseIndex_lt hc hjc, rfl⟩
  unfold interp
  rw [h1, h2]
  exact ⟨_, rfl⟩

omit [DecidableEq S] in
theorem interp_eq_ok {N : Numerics S} {e : Engine S} {rp y : Stereo S} :
    interp N rp e = .ok y ↔ interpAt N e 0 rp.left = .ok y.left ∧ interpAt N e 1 rp.right = .ok y.right := by
  unfold interp
  cases h1 : interpAt N e 0 rp.left with
  | error f => simp
  | ok l =>
    cases h2 : interpAt N e 1 rp.right with
    | error f => simp
    | ok r => cases y; simp

/-- The engine after a sample step with the delayed samples `y` (R130: "State written"). -/
def afterStep (N : Numerics S) (q : Params S) (x y : Stereo S) (e : Engine S) : Engine S :=
  { e with
    dl := delayedRams N x e
    phase := nextPhase N q e
    fb := feedbackOf N q y
    wh := nextHead e.cap e.wh }

/-- What a sample step answers when it completes: the state written, the outputs, and that nothing else changes (R130). -/
theorem sampleStepWith_eq_ok {N : Numerics S} {q : Params S} {x : Stereo S} {e e' : Engine S} {o : Stereo S} :
    sampleStepWith N q x e = .ok (e', o) ↔
      e.wh < e.cap ∧ ∃ y, interp N (readPositions N q e e) { e with dl := delayedRams N x e } = .ok y ∧
        e' = afterStep N q x y e ∧ o = mixOut N q x y := by
  unfold sampleStepWith
  by_cases h : e.wh < e.cap
  · rw [dlWriteStage_eq_ok.2 ⟨h, rfl⟩]
    have hi : interp N (readPositions N q { e with dl := delayedRams N x e }
        (phAdv N q { e with dl := delayedRams N x e })) (phAdv N q { e with dl := delayedRams N x e }) =
        interp N (readPositions N q e e) { e with dl := delayedRams N x e } := rfl
    simp only [h, true_and]
    rw [hi]
    cases interp N (readPositions N q e e) { e with dl := delayedRams N x e } with
    | error f => simp
    | ok y => simp [afterStep, whAdv, fbUpd, phAdv, nextPhase, eq_comm]
  · cases hd : dlWriteStage N x e with
    | error f => simp [h]
    | ok e₁ => exact absurd (dlWriteStage_eq_ok.1 hd).1 h

/-- The sample step, its snapshot included (R131). -/
theorem sampleStep_eq_ok {N : Numerics S} {b : Bool} {x : Stereo S} {e e' : Engine S} {o : Stereo S} :
    sampleStep N b x e = .ok (e', o) ↔
      e.wh < e.cap ∧ ∃ y, interp N (readPositions N (snapshot b e) e e) { e with dl := delayedRams N x e } = .ok y ∧
        e' = afterStep N (snapshot b e) x y (afterSnapshot e) ∧ o = mixOut N (snapshot b e) x y := by
  unfold sampleStep
  rw [sampleStepWith_eq_ok]
  exact Iff.rfl

end Sys2Proof.Machine
end

