-- ==== Sys2Proof/Laws/Commands.lean ====
section
/-! SUPPORT. What each command, each gap of a PROC and each step can do (R71, R80, R132, R133, R137, R38). -/

namespace Sys2Proof.Machine

variable {S : Type} [DecidableEq S]

omit [DecidableEq S] in
/-- What SETP can do (R71, R72). -/
theorem setParam_cases (N : Numerics S) (id : BitVec 3) (value : Word) (e : Engine S) :
    setParam N id value e = raiseIllegal e ∨
      ∃ k v, paramOfId id = some k ∧ notFinite value = false ∧ N.dec32 value = some v ∧
        setParam N id value e =
          respondOk 0#32 0#32 (setParamRegister k (clamp N ((paramTable N).get k) v) e) := by
  unfold setParam
  cases hk : paramOfId id with
  | none => exact Or.inl rfl
  | some k =>
    by_cases hn : notFinite value = true
    · simp [hn]
    · cases hv : N.dec32 value with
      | none => simp [hn]
      | some v => right; exact ⟨k, v, rfl, by simpa using hn, rfl, by simp [hn]⟩

omit [DecidableEq S] in
/-- What GETP can do (R73). -/
theorem getParam_cases (N : Numerics S) (id : BitVec 3) (e : Engine S) :
    getParam N id e = raiseIllegal e ∨
      ∃ k, paramOfId id = some k ∧ getParam N id e = respondOk (N.enc32 (e.p.get k)) 0#32 e := by
  unfold getParam
  cases paramOfId id with
  | none => exact Or.inl rfl
  | some k => exact Or.inr ⟨k, rfl, rfl⟩

omit [DecidableEq S] in
/-- What CFG can do (R80, R85). -/
theorem configure_cases (N : Numerics S) (a b : Word) (e : Engine S) :
    sessionOf N e.cfg a = none ∧ configure N a b e = raiseConfig (failSession N e) ∨
      ∃ fs cap, sessionOf N e.cfg a = some (fs, cap) ∧
        configure N a b e = respondOk 0#32 0#32 (openSession N fs b.toNat cap e) := by
  unfold configure
  cases sessionOf N e.cfg a with
  | none => exact Or.inl ⟨rfl, rfl⟩
  | some r => exact Or.inr ⟨r.1, r.2, rfl, rfl⟩

omit [DecidableEq S] in
/-- A session that can be configured passed the checks of the rate (R81) and of the capacity (R82). -/
theorem sessionOf_eq_some {N : Numerics S} {cfg : Config S} {a : Word} {fs : S} {cap : Nat} :
    sessionOf N cfg a = some (fs, cap) ↔ checkRate N a = some fs ∧ capacity N cfg fs = some cap := by
  unfold sessionOf
  cases checkRate N a with
  | none => simp
  | some f =>
    simp only [Option.some.injEq]
    constructor
    · intro h
      cases hc : capacity N cfg f with
      | none => rw [hc] at h; exact absurd h (by simp)
      | some c =>
        rw [hc] at h
        simp only [Option.some.injEq, Prod.mk.injEq] at h
        obtain ⟨rfl, rfl⟩ := h
        exact ⟨rfl, hc⟩
    · rintro ⟨rfl, h⟩
      rw [h]

/-- What SMP can do (R132). -/
theorem processSample_cases (N : Numerics S) (a b : Word) (e : Engine S) :
    ((N.dec32 a = none ∨ N.dec32 b = none) ∧ processSample N a b e = .next (raiseIllegal e)) ∨
      ∃ l r, N.dec32 a = some l ∧ N.dec32 b = some r ∧
        ((e.ready = false ∧ processSample N a b e = .next (raiseConfig e)) ∨
          (e.ready = true ∧ ∃ f, sampleStep N false ⟨l, r⟩ e = .error f ∧ processSample N a b e = .fault f) ∨
          (e.ready = true ∧ ∃ e' o, sampleStep N false ⟨l, r⟩ e = .ok (e', o) ∧
            processSample N a b e = .next (respondOk (N.enc32 o.left) (N.enc32 o.right) e'))) := by
  unfold processSample
  cases N.dec32 a with
  | none => simp
  | some l =>
    cases N.dec32 b with
    | none => simp
    | some r =>
      right
      refine ⟨l, r, rfl, rfl, ?_⟩
      by_cases hr : e.ready = true
      · right
        cases hs : sampleStep N false ⟨l, r⟩ e with
        | error f => left; exact ⟨hr, f, rfl, by simp [hr, hs]⟩
        | ok p => right; exact ⟨hr, p.1, p.2, rfl, by simp [hr, hs]⟩
      · left; exact ⟨by simpa using hr, by simp [hr]⟩

/-! The gaps of a PROC. -/

/-- What the host's acts in a gap leave alone: everything but the parameters and their history, the sample buffer, the
port, and the responses (R137, U13). -/
structure GapKeeps {S : Type} (e e' : Engine S) : Prop where
  cfg : e'.cfg = e.cfg
  fs : e'.fs = e.fs
  bs : e'.bs = e.bs
  cap : e'.cap = e.cap
  ready : e'.ready = e.ready
  wh : e'.wh = e.wh
  phase : e'.phase = e.phase
  fb : e'.fb = e.fb
  dl : e'.dl = e.dl
  histPrev : e'.histPrev = e.histPrev
  gaps : e'.gaps = e.gaps

omit [DecidableEq S] in
theorem GapKeeps.refl (e : Engine S) : GapKeeps e e := ⟨rfl, rfl, rfl, rfl, rfl, rfl, rfl, rfl, rfl, rfl, rfl⟩

omit [DecidableEq S] in
theorem GapKeeps.trans {a b c : Engine S} (h : GapKeeps a b) (k : GapKeeps b c) : GapKeeps a c :=
  ⟨k.cfg.trans h.cfg, k.fs.trans h.fs, k.bs.trans h.bs, k.cap.trans h.cap, k.ready.trans h.ready, k.wh.trans h.wh,
    k.phase.trans h.phase, k.fb.trans h.fb, k.dl.trans h.dl, k.histPrev.trans h.histPrev, k.gaps.trans h.gaps⟩

omit [DecidableEq S] in
theorem setParam_keeps (N : Numerics S) (id : BitVec 3) (v : Word) (e : Engine S) : GapKeeps e (setParam N id v e) := by
  obtain h | ⟨k, u, -, -, -, h⟩ := setParam_cases N id v e <;> rw [h] <;>
    exact ⟨rfl, rfl, rfl, rfl, rfl, rfl, rfl, rfl, rfl, rfl, rfl⟩

omit [DecidableEq S] in
theorem getParam_keeps (N : Numerics S) (id : BitVec 3) (e : Engine S) : GapKeeps e (getParam N id e) := by
  obtain h | ⟨k, -, h⟩ := getParam_cases N id e <;> rw [h] <;>
    exact ⟨rfl, rfl, rfl, rfl, rfl, rfl, rfl, rfl, rfl, rfl, rfl⟩

omit [DecidableEq S] in
theorem port_keeps (e : Engine S) (rest : List (HostAct S)) : GapKeeps e { e with port := rest } :=
  ⟨rfl, rfl, rfl, rfl, rfl, rfl, rfl, rfl, rfl, rfl, rfl⟩

/-- A host store in a gap finds no element, or puts some value there. -/
theorem gapStore_cases (N : Numerics S) (n nch ch idx : Nat) (v : S) (e : Engine S) :
    (gapStore N n nch ch idx v e = none ∧ ¬(ch < e.cfg.sbCh ∧ idx < e.cfg.sbLen)) ∨
      ∃ u fresh, gapStore N n nch ch idx v e =
          some { e with sb := Memory.write N.zero e.sb (ch, idx) u, fresh := fresh } ∧
        (ch < e.cfg.sbCh ∧ idx < e.cfg.sbLen) := by
  by_cases hr : ch < e.cfg.sbCh ∧ idx < e.cfg.sbLen
  · right
    unfold gapStore
    split
    · exact ⟨_, _, sbWrite_eq_some.2 ⟨hr, rfl⟩, hr⟩
    · exact ⟨_, e.fresh, sbWrite_eq_some.2 ⟨hr, rfl⟩, hr⟩
  · left
    refine ⟨?_, hr⟩
    unfold gapStore
    split <;>
    · unfold sbWrite
      rw [if_neg]
      rw [sbExists_iff]; exact hr

/-- A host store in a gap outside the block stores what the host says. -/
theorem gapStore_outside {N : Numerics S} {n nch ch idx : Nat} (v : S) (e : Engine S) (h : ¬(ch < nch ∧ idx < n)) :
    gapStore N n nch ch idx v e = sbWrite N e ch idx v := by
  unfold gapStore coversElement
  rw [if_neg]
  simpa using h

/-- Induction over the host's acts in a gap: a property that SETP, GETP and the host's own stores pass on. -/
theorem hostActs_induction {N : Numerics S} {P : Engine S → Prop}
    (hset : ∀ e id v w rest, P e → e.port = .command w :: rest → decode w = .ok (.setp id v) →
      P (setParam N id v { e with port := rest }))
    (hget : ∀ e id w rest, P e → e.port = .command w :: rest → decode w = .ok (.getp id) →
      P (getParam N id { e with port := rest }))
    (hstore : ∀ e ch idx v u fresh rest, P e → e.port = .store ch idx v :: rest →
      ch < e.cfg.sbCh ∧ idx < e.cfg.sbLen →
      P { e with port := rest, sb := Memory.write N.zero e.sb (ch, idx) u, fresh := fresh })
    (n nch k : Nat) (e : Engine S) (he : P e) :
    match hostActs N n nch k e with
    | .go e' => P e'
    | .abandoned e' => ∃ d, P d ∧ d.port = .reset :: e'.port ∧ e' = { d with port := e'.port }
    | .stop f => f = .hostStoreRange ∧ ∃ ch idx v rest d, P d ∧ d.port = .store ch idx v :: rest ∧
        ¬(ch < d.cfg.sbCh ∧ idx < d.cfg.sbLen) := by
  induction k generalizing e with
  | zero => exact he
  | succ k ih =>
    unfold hostActs
    cases hp : e.port with
    | nil => exact he
    | cons a rest =>
      cases a with
      | command w =>
        by_cases hc : e.cfg.ctrlInterleave = true
        · simp only [hc, if_true]
          cases hd : decode w with
          | error r => exact he
          | ok i =>
            cases i with
            | setp id v => exact ih _ (hset e id v w rest he hp hd)
            | getp id => exact ih _ (hget e id w rest he hp hd)
            | cfg a b => exact he
            | smp a b => exact he
            | proc a b => exact he
        · simp only [hc]; exact he
      | store ch idx v =>
        simp only
        obtain ⟨hw, hr⟩ | ⟨u, fresh, hw, hr⟩ := gapStore_cases N n nch ch idx v { e with port := rest } <;> rw [hw]
        · exact ⟨rfl, ch, idx, v, rest, e, he, hp, hr⟩
        · exact ih _ (hstore e ch idx v u fresh rest he hp hr)
      | reset => exact ⟨e, he, hp, rfl⟩

/-- What a gap leaves alone, whether the PROC goes on or is abandoned. -/
theorem hostActs_keeps (N : Numerics S) (n nch k : Nat) (e : Engine S) :
    (∀ e', hostActs N n nch k e = .go e' → GapKeeps e e') ∧ (∀ e', hostActs N n nch k e = .abandoned e' → GapKeeps e e') := by
  have h := hostActs_induction (N := N) (P := GapKeeps e)
    (fun d id v w rest hd _ _ => hd.trans ((port_keeps d rest).trans (setParam_keeps N id v _)))
    (fun d id w rest hd _ _ => hd.trans ((port_keeps d rest).trans (getParam_keeps N id _)))
    (fun d ch idx v u fresh rest hd _ _ => hd.trans ⟨rfl, rfl, rfl, rfl, rfl, rfl, rfl, rfl, rfl, rfl, rfl⟩)
    n nch k e (GapKeeps.refl e)
  constructor
  · intro e' he; rw [he] at h; exact h
  · intro e' he; rw [he] at h
    obtain ⟨d, hd, -, heq⟩ := h
    rw [heq]; exact hd.trans (port_keeps d _)

/-- With nothing placed in it, a gap does nothing but pass. -/
theorem hostGap_quiet (N : Numerics S) (n nch : Nat) {e : Engine S} (h : quietGaps e) :
    hostGap N n nch e = .go { e with gaps := e.gaps.tail } := by
  unfold hostGap
  have h0 : e.gaps.headD 0 = 0 := by
    cases hg : e.gaps with
    | nil => rfl
    | cons g gs => exact h g (by rw [hg]; exact List.mem_cons_self)
  rw [h0]; rfl

/-! The end of a PROC. -/

omit [DecidableEq S] in
theorem racedElements_within (n nch : Nat) (acts : List (HostAct S)) :
    ∀ a ∈ racedElements n nch acts, a.1 < nch ∧ a.2 < n := by
  induction acts with
  | nil => intro a ha; simp [racedElements] at ha
  | cons x rest ih =>
    intro a ha
    cases x with
    | command w => exact ih a ha
    | reset => exact ih a ha
    | store ch idx v =>
      unfold racedElements at ha
      split at ha
      · rename_i hc
        rcases List.mem_cons.1 ha with rfl | ha
        · simpa [coversElement] using hc
        · exact ih a ha
      · exact ih a ha

/-- Elements at free values: only `SB` and the counter of free values change. -/
theorem unspecifyElements_eq (N : Numerics S) (as : List (Nat × Nat)) (e : Engine S) :
    unspecifyElements N as e =
      { e with sb := (unspecifyElements N as e).sb, fresh := (unspecifyElements N as e).fresh } := by
  induction as generalizing e with
  | nil => rfl
  | cons a rest ih => unfold unspecifyElements; rw [ih]

/-- An element not among them keeps its value. -/
theorem unspecifyElements_other (N : Numerics S) {as : List (Nat × Nat)} {a : Nat × Nat} (h : a ∉ as) (e : Engine S) :
    Memory.read N.zero (unspecifyElements N as e).sb a = Memory.read N.zero e.sb a := by
  induction as generalizing e with
  | nil => rfl
  | cons b rest ih =>
    simp only [List.mem_cons, not_or] at h
    unfold unspecifyElements
    rw [ih h.2]
    exact Memory.read_write_other _ _ _ h.1

/-- The end of a PROC changes only `SB` and the counter of free values. -/
theorem finishBlock_eq (N : Numerics S) (n nch : Nat) (taken : List (HostAct S)) (e : Engine S) :
    finishBlock N n nch taken e =
      { e with sb := (finishBlock N n nch taken e).sb, fresh := (finishBlock N n nch taken e).fresh } :=
  unspecifyElements_eq N _ _

/-- When the host stored nothing, a PROC ends with the extra channels cleared. -/
theorem finishBlock_quiet (N : Numerics S) (n nch : Nat) (e : Engine S) : finishBlock N n nch [] e = clearExtra N n nch e :=
  rfl

/-! One iteration of PROC. -/

/-- The engine after iteration `s` of PROC: that of the sample step, with the two outputs in place (R127, R133). -/
def afterBlockSample (N : Numerics S) (s : Nat) (o : Stereo S) (e : Engine S) : Engine S :=
  { e with sb := Memory.write N.zero (Memory.write N.zero e.sb (0, s) o.left) (1, s) o.right }

theorem sampleStep_cfg {N : Numerics S} {b : Bool} {x o : Stereo S} {e e' : Engine S}
    (h : sampleStep N b x e = .ok (e', o)) : e'.cfg = e.cfg ∧ e'.sb = e.sb := by
  obtain ⟨-, y, -, rfl, -⟩ := sampleStep_eq_ok.1 h
  exact ⟨rfl, rfl⟩

/-- Iteration `s` of PROC completes exactly when its elements exist and its sample step completes. -/
theorem blockSample_eq_ok {N : Numerics S} {s : Nat} {e e' : Engine S} :
    blockSample N s e = .ok e' ↔
      (1 < e.cfg.sbCh ∧ s < e.cfg.sbLen) ∧ ∃ e₁ o,
        sampleStep N true ⟨Memory.read N.zero e.sb (0, s), Memory.read N.zero e.sb (1, s)⟩ e = .ok (e₁, o) ∧
          e' = afterBlockSample N s o e₁ := by
  unfold blockSample
  by_cases hb : 1 < e.cfg.sbCh ∧ s < e.cfg.sbLen
  · have h0 := sbRead_eq_some (N := N) (e := e) (ch := 0) (idx := s).2 ⟨⟨by omega, hb.2⟩, rfl⟩
    have h1 := sbRead_eq_some (N := N) (e := e) (ch := 1) (idx := s).2 ⟨hb, rfl⟩
    rw [h0, h1]
    simp only [hb, true_and, and_self]
    cases hs : sampleStep N true ⟨Memory.read N.zero e.sb (0, s), Memory.read N.zero e.sb (1, s)⟩ e with
    | error f => simp
    | ok p =>
      obtain ⟨e₁, o⟩ := p
      obtain ⟨hcfg, -⟩ := sampleStep_cfg hs
      have hw0 := sbWrite_eq_some (N := N) (e := e₁) (ch := 0) (idx := s) (v := o.left).2
        ⟨⟨by rw [hcfg]; omega, by rw [hcfg]; exact hb.2⟩, rfl⟩
      have hw1 := sbWrite_eq_some (N := N) (e := { e₁ with sb := Memory.write N.zero e₁.sb (0, s) o.left }) (ch := 1)
        (idx := s) (v := o.right).2 ⟨⟨by show 1 < e₁.cfg.sbCh; rw [hcfg]; exact hb.1, by
          show s < e₁.cfg.sbLen; rw [hcfg]; exact hb.2⟩, rfl⟩
      simp only [hw0, hw1, Except.ok.injEq, Prod.mk.injEq]
      constructor
      · rintro rfl; exact ⟨e₁, o, ⟨rfl, rfl⟩, rfl⟩
      · rintro ⟨e₂, o', ⟨rfl, rfl⟩, rfl⟩; rfl
  · have : sbRead N e 1 s = none := by
      unfold sbRead
      rw [if_neg]
      rw [sbExists_iff]; exact hb
    rw [this]
    cases sbRead N e 0 s <;> simp [hb]

/-! One step. -/

/-- What a step is, by what stands first at the port. -/
theorem step_cases {N : Numerics S} {inj : Engine S → State} (A : ActsOn N inj) (e : Engine S) :
    step (inj e) =
      match e.port with
      | [] => .next (inj e)
      | .command w :: rest =>
        match decode w with
        | .ok i => exec i (inj { e with port := rest })
        | .error _ => .next (inj (raiseIllegal { e with port := rest }))
      | .store ch idx v :: rest => mapNext inj (hostStore N ch idx v { e with port := rest })
      | .reset :: rest => .next (inj (powerOn N { e with port := rest })) := by
  unfold step
  rw [A.arrives]
  unfold engineArrival
  cases e.port with
  | nil => rfl
  | cons a rest =>
    cases a with
    | command w =>
      simp only
      unfold runWord
      cases decode w with
      | ok i => rfl
      | error r => exact A.illegal _
    | store ch idx v => rfl
    | reset => rfl

end Sys2Proof.Machine
end

