-- ==== Sys2Proof/Laws/Rounding.lean ====
section
/-! SUPPORT. Rounding to binary32: the units of a magnitude word are strictly monotone, `roundUnits` picks the word below
or above, is monotone, and leaves a representable number alone. -/

namespace Sys2Proof.Machine

/-- A magnitude word written as an exponent step and a significand. -/
theorem F32.units_of_significand (e q : Nat) (h : e = 0 ∧ q ≤ 2 ^ 24 ∨ 2 ^ 23 ≤ q ∧ q ≤ 2 ^ 24) :
    F32.units (e * 2 ^ 23 + q) = q * 2 ^ e := by
  unfold F32.units
  by_cases hlow : q < 2 ^ 23
  · obtain ⟨he, -⟩ | ⟨h1, -⟩ := h
    · subst he
      rw [if_pos (by omega)]
      simp; omega
    · omega
  by_cases htop : q = 2 ^ 24
  · subst htop
    have hd : (e * 2 ^ 23 + 2 ^ 24) / 2 ^ 23 = e + 2 := by omega
    have hm : (e * 2 ^ 23 + 2 ^ 24) % 2 ^ 23 = 0 := by omega
    rw [hd, hm, if_neg (by omega)]
    rw [show e + 2 - 1 = e + 1 by omega, pow_succ]
    ring
  · have hd : (e * 2 ^ 23 + q) / 2 ^ 23 = e + 1 := by omega
    have hm : (e * 2 ^ 23 + q) % 2 ^ 23 = q - 2 ^ 23 := by omega
    rw [hd, hm, if_neg (by omega)]
    rw [show e + 1 - 1 = e by omega, show 2 ^ 23 + (q - 2 ^ 23) = q by omega]

theorem F32.units_lt_succ (m : Nat) : F32.units m < F32.units (m + 1) := by
  by_cases h0 : m < 2 ^ 24
  · have h1 := F32.units_of_significand 0 m (Or.inl ⟨rfl, by omega⟩)
    have h2 := F32.units_of_significand 0 (m + 1) (Or.inl ⟨rfl, by omega⟩)
    simp at h1 h2
    omega
  · have hd : m = (m / 2 ^ 23 - 1) * 2 ^ 23 + (2 ^ 23 + m % 2 ^ 23) := by omega
    have h1 := F32.units_of_significand (m / 2 ^ 23 - 1) (2 ^ 23 + m % 2 ^ 23) (Or.inr ⟨by omega, by omega⟩)
    have h2 := F32.units_of_significand (m / 2 ^ 23 - 1) (2 ^ 23 + m % 2 ^ 23 + 1) (Or.inr ⟨by omega, by omega⟩)
    rw [← add_assoc, ← hd] at h2
    rw [← hd] at h1
    rw [h1, h2]
    exact Nat.mul_lt_mul_of_pos_right (by omega) (by positivity)

theorem F32.units_strictMono : StrictMono F32.units := strictMono_nat_of_lt_succ F32.units_lt_succ

theorem F32.units_zero : F32.units 0 = 0 := by decide

/-- The greatest magnitude word of at most `num / den` units. -/
def F32.floorMag (num den : Nat) : Nat :=
  F32.excess (num / den) * 2 ^ 23 + num / (den * 2 ^ F32.excess (num / den))

/-- The quotient that `roundUnits` rounds is a significand. -/
theorem F32.quotient_bounds (num den : Nat) :
    F32.excess (num / den) = 0 ∧ num / (den * 2 ^ F32.excess (num / den)) < 2 ^ 24 ∨
      2 ^ 23 ≤ num / (den * 2 ^ F32.excess (num / den)) ∧ num / (den * 2 ^ F32.excess (num / den)) < 2 ^ 24 := by
  set n := num / den with hn
  rw [← Nat.div_div_eq_div_mul, ← hn]
  unfold F32.excess
  by_cases h0 : n = 0
  · left; simp [h0]
  have hlo : 2 ^ Nat.log2 n ≤ n := Nat.log2_self_le h0
  have hhi : n < 2 ^ (Nat.log2 n + 1) := Nat.lt_log2_self
  by_cases hl : Nat.log2 n ≤ 23
  · left
    refine ⟨by omega, ?_⟩
    rw [show Nat.log2 n - 23 = 0 by omega]
    have : 2 ^ (Nat.log2 n + 1) ≤ 2 ^ 24 := Nat.pow_le_pow_right (by omega) (by omega)
    simp; omega
  · right
    have h1 : 2 ^ Nat.log2 n = 2 ^ 23 * 2 ^ (Nat.log2 n - 23) := by rw [← pow_add]; congr 1; omega
    have h2 : 2 ^ (Nat.log2 n + 1) = 2 ^ 24 * 2 ^ (Nat.log2 n - 23) := by rw [← pow_add]; congr 1; omega
    have hp : 0 < 2 ^ (Nat.log2 n - 23) := by positivity
    exact ⟨(Nat.le_div_iff_mul_le hp).2 (by omega), (Nat.div_lt_iff_lt_mul hp).2 (by omega)⟩

theorem F32.floorMag_units (num den : Nat) :
    F32.units (F32.floorMag num den) =
        num / (den * 2 ^ F32.excess (num / den)) * 2 ^ F32.excess (num / den) ∧
      F32.units (F32.floorMag num den + 1) =
        (num / (den * 2 ^ F32.excess (num / den)) + 1) * 2 ^ F32.excess (num / den) := by
  have h := F32.quotient_bounds num den
  unfold F32.floorMag
  constructor
  · apply F32.units_of_significand; omega
  · rw [add_assoc]; apply F32.units_of_significand; omega

theorem F32.floorMag_le (num den : Nat) : F32.units (F32.floorMag num den) * den ≤ num := by
  rw [(F32.floorMag_units num den).1]
  have := Nat.div_mul_le_self num (den * 2 ^ F32.excess (num / den))
  calc _ = num / (den * 2 ^ F32.excess (num / den)) * (den * 2 ^ F32.excess (num / den)) := by ring
    _ ≤ num := this

theorem F32.lt_floorMag_succ {num den : Nat} (hd : 0 < den) :
    num < F32.units (F32.floorMag num den + 1) * den := by
  rw [(F32.floorMag_units num den).2]
  have hp : 0 < den * 2 ^ F32.excess (num / den) := by positivity
  have := Nat.lt_div_mul_add hp (a := num)
  calc num < num / (den * 2 ^ F32.excess (num / den)) * (den * 2 ^ F32.excess (num / den))
        + den * 2 ^ F32.excess (num / den) := this
    _ = _ := by ring

/-- Whether the rounding goes up from the word below: the exact number is nearer to the word above, or it lies halfway
and the word below is odd. -/
def F32.roundsUp (num den : Nat) : Prop :=
  (F32.units (F32.floorMag num den) + F32.units (F32.floorMag num den + 1)) * den < 2 * num ∨
    (F32.units (F32.floorMag num den) + F32.units (F32.floorMag num den + 1)) * den = 2 * num ∧
      F32.floorMag num den % 2 = 1

open Classical in
/-- What `roundUnits` does: the word below or the word above, by `roundsUp`, and not past an infinity. -/
theorem F32.roundUnits_eq {num den : Nat} (hd : 0 < den) :
    F32.roundUnits num den =
      min (F32.floorMag num den + if F32.roundsUp num den then 1 else 0) F32.infMag := by
  have hu := F32.floorMag_units num den
  unfold F32.roundUnits F32.roundsUp
  rw [hu.1, hu.2]
  unfold F32.floorMag F32.roundHalfEven
  set e := F32.excess (num / den)
  have hp : 0 < den * 2 ^ e := by positivity
  set d := den * 2 ^ e with hdd
  have hdiv : d * (num / d) + num % d = num := Nat.div_add_mod num d
  have hlt : num % d < d := Nat.mod_lt _ hp
  set q := num / d
  have hsum : (q * 2 ^ e + (q + 1) * 2 ^ e) * den = 2 * (d * q) + d := by rw [hdd]; ring
  have hpar : (e * 2 ^ 23 + q) % 2 = q % 2 := by omega
  rw [hsum, hpar]
  rw [add_assoc]
  congr 2
  by_cases h1 : d < 2 * (num % d)
  · rw [if_pos h1, if_pos (Or.inl (by omega))]
  · rw [if_neg h1]
    by_cases h2 : 2 * (num % d) = d
    · rw [if_pos h2]
      by_cases h3 : q % 2 = 1
      · rw [h3, if_pos (Or.inr ⟨by omega, rfl⟩)]
      · rw [if_neg (by omega)]; omega
    · rw [if_neg h2, if_neg (by omega), add_zero]

/-- A word of at most `num / den` units lies at or below the word `floorMag`. -/
theorem F32.le_floorMag {num den m : Nat} (hd : 0 < den) (h : F32.units m * den ≤ num) : m ≤ F32.floorMag num den := by
  by_contra hc
  have h1 : F32.units (F32.floorMag num den + 1) ≤ F32.units m := F32.units_strictMono.monotone (by omega)
  have h2 := F32.lt_floorMag_succ (num := num) hd
  have h3 : F32.units (F32.floorMag num den + 1) * den ≤ F32.units m * den := Nat.mul_le_mul_right _ h1
  omega

/-- A larger number has a word below it that is not smaller. -/
theorem F32.floorMag_mono {n1 d1 n2 d2 : Nat} (h1 : 0 < d1) (h2 : 0 < d2) (h : n1 * d2 ≤ n2 * d1) :
    F32.floorMag n1 d1 ≤ F32.floorMag n2 d2 := by
  apply F32.le_floorMag h2
  have ha : F32.units (F32.floorMag n1 d1) * d1 ≤ n1 := F32.floorMag_le n1 d1
  have hb : F32.units (F32.floorMag n1 d1) * d1 * d2 ≤ n1 * d2 := Nat.mul_le_mul_right _ ha
  have hc : (F32.units (F32.floorMag n1 d1) * d2) * d1 ≤ n2 * d1 := by
    calc _ = F32.units (F32.floorMag n1 d1) * d1 * d2 := by ring
      _ ≤ n2 * d1 := hb.trans h
  exact Nat.le_of_mul_le_mul_right hc h1

open Classical in
/-- Rounding is monotone. -/
theorem F32.roundUnits_mono {n1 d1 n2 d2 : Nat} (h1 : 0 < d1) (h2 : 0 < d2) (h : n1 * d2 ≤ n2 * d1) :
    F32.roundUnits n1 d1 ≤ F32.roundUnits n2 d2 := by
  rw [F32.roundUnits_eq h1, F32.roundUnits_eq h2]
  apply min_le_min_right
  have hf := F32.floorMag_mono h1 h2 h
  rcases Nat.lt_or_eq_of_le hf with hlt | heq
  · split <;> split <;> omega
  · by_cases hu1 : F32.roundsUp n1 d1
    · have hu2 : F32.roundsUp n2 d2 := by
        unfold F32.roundsUp at *
        rw [heq] at hu1
        set U := F32.units (F32.floorMag n2 d2) + F32.units (F32.floorMag n2 d2 + 1)
        rcases hu1 with hu | ⟨hu, hodd⟩
        · left
          have : U * d1 * d2 < 2 * n1 * d2 := Nat.mul_lt_mul_of_pos_right hu h2
          have h3 : (U * d2) * d1 < (2 * n2) * d1 := by nlinarith
          exact Nat.lt_of_mul_lt_mul_right h3
        · have h3 : (U * d2) * d1 ≤ (2 * n2) * d1 := by nlinarith
          rcases Nat.lt_or_eq_of_le (Nat.le_of_mul_le_mul_right h3 h1) with hl | he
          · exact Or.inl hl
          · exact Or.inr ⟨he, hodd⟩
      rw [if_pos hu1, if_pos hu2, heq]
    · rw [if_neg hu1]; split <;> omega

/-- Rounding leaves a representable number alone. -/
theorem F32.roundUnits_exact {m den : Nat} (hd : 0 < den) (hm : m ≤ F32.infMag) :
    F32.roundUnits (F32.units m * den) den = m := by
  classical
  rw [F32.roundUnits_eq hd]
  have hf : F32.floorMag (F32.units m * den) den = m := by
    apply le_antisymm
    · have := F32.floorMag_le (F32.units m * den) den
      exact F32.units_strictMono.le_iff_le.1 (Nat.le_of_mul_le_mul_right this hd)
    · exact F32.le_floorMag hd le_rfl
  have hn : ¬ F32.roundsUp (F32.units m * den) den := by
    unfold F32.roundsUp
    rw [hf]
    have := Nat.mul_lt_mul_of_pos_right (F32.units_lt_succ m) hd
    have hexp : (F32.units m + F32.units (m + 1)) * den = F32.units m * den + F32.units (m + 1) * den := by ring
    rw [hexp]
    omega
  rw [if_neg hn, hf, add_zero, min_eq_left hm]

theorem F32.roundUnits_le_infMag (num den : Nat) : F32.roundUnits num den ≤ F32.infMag := min_le_right _ _

/-- Rounding a number of at most `m`'s units gives at most `m`. -/
theorem F32.roundUnits_le {num den m : Nat} (hd : 0 < den) (hm : m ≤ F32.infMag) (h : num ≤ F32.units m * den) :
    F32.roundUnits num den ≤ m := by
  rw [← F32.roundUnits_exact hd hm]
  exact F32.roundUnits_mono hd hd (Nat.mul_le_mul_right _ h)

/-- Rounding a number of at least `m`'s units gives at least `m`. -/
theorem F32.le_roundUnits {num den m : Nat} (hd : 0 < den) (hm : m ≤ F32.infMag) (h : F32.units m * den ≤ num) :
    m ≤ F32.roundUnits num den := by
  conv_lhs => rw [← F32.roundUnits_exact hd hm]
  exact F32.roundUnits_mono hd hd (Nat.mul_le_mul_right _ h)

end Sys2Proof.Machine
end

