-- ==== Sys2Proof/Laws/Float32.lean ====
section
/-! SUPPORT. Profile F32 through values: what each operation does to the value of finite data, and the monotonicity of the
rounded result. `F32.rounded x den` is the value of `x / den` units rounded. -/

namespace Sys2Proof.Machine

/-! Parts of a datum. -/

theorem F32.toNat_ofParts (s : Bool) {m : Nat} (hm : m < 2 ^ 31) :
    (F32.ofParts s m).toNat = if s then 2 ^ 31 + m else m := by
  unfold F32.ofParts
  rw [BitVec.toNat_ofNat, Nat.mod_eq_of_lt]
  split <;> omega

theorem F32.mag_ofParts (s : Bool) {m : Nat} (hm : m < 2 ^ 31) : F32.mag (F32.ofParts s m) = m := by
  unfold F32.mag
  rw [F32.toNat_ofParts s hm]
  split <;> omega

theorem F32.sign_ofParts (s : Bool) {m : Nat} (hm : m < 2 ^ 31) : F32.sign (F32.ofParts s m) = s := by
  unfold F32.sign
  rw [F32.toNat_ofParts s hm]
  cases s
  · simp; omega
  · simp

theorem F32.mag_lt (a : Word) : F32.mag a < 2 ^ 31 := Nat.mod_lt _ (by norm_num)

theorem F32.ofParts_parts (a : Word) : F32.ofParts (F32.sign a) (F32.mag a) = a := by
  apply BitVec.eq_of_toNat_eq
  rw [F32.toNat_ofParts _ (F32.mag_lt a)]
  unfold F32.sign F32.mag
  have := a.isLt
  by_cases h : 2 ^ 31 ≤ a.toNat
  · rw [if_pos (by simpa using h)]; omega
  · rw [if_neg (by simpa using h)]; omega

theorem F32.ext {a b : Word} (hs : F32.sign a = F32.sign b) (hm : F32.mag a = F32.mag b) : a = b := by
  rw [← F32.ofParts_parts a, ← F32.ofParts_parts b, hs, hm]

theorem F32.infMag_lt : F32.infMag < 2 ^ 31 := by decide

theorem F32.val_ofParts (s : Bool) {m : Nat} (hm : m < 2 ^ 31) :
    F32.val (F32.ofParts s m) = if s then -(F32.units m : Int) else (F32.units m : Int) := by
  unfold F32.val
  rw [F32.sign_ofParts s hm, F32.mag_ofParts s hm]

theorem F32.isNaN_ofParts (s : Bool) {m : Nat} (hm : m ≤ F32.infMag) : F32.isNaN (F32.ofParts s m) = false := by
  have := F32.infMag_lt
  unfold F32.isNaN
  rw [F32.mag_ofParts s (by omega)]
  simp; omega

theorem F32.isNaN_of_finite {a : Word} (h : F32.isFinite a = true) : F32.isNaN a = false := by
  unfold F32.isFinite at h; unfold F32.isNaN
  simp at *; omega

theorem F32.isInf_of_finite {a : Word} (h : F32.isFinite a = true) : F32.isInf a = false := by
  unfold F32.isFinite at h; unfold F32.isInf
  simp at *; omega

theorem F32.mag_le_of_not_nan {a : Word} (h : F32.isNaN a = false) : F32.mag a ≤ F32.infMag := by
  unfold F32.isNaN at h; simpa using h

theorem F32.isNaN_nan (op : FloatOp) (a b : Word) : F32.isNaN (F32.nan op a b) = true := by
  have h := (Config.nanChoice op a b).2.isLt
  unfold F32.nan F32.isNaN
  rw [F32.mag_ofParts _ (by unfold F32.infMag; omega)]
  simp; omega

theorem F32.val_neg (a : Word) : F32.val (F32.neg a) = -F32.val a := by
  unfold F32.neg
  rw [F32.val_ofParts _ (F32.mag_lt a)]
  unfold F32.val
  cases F32.sign a <;> simp

theorem F32.mag_neg (a : Word) : F32.mag (F32.neg a) = F32.mag a := F32.mag_ofParts _ (F32.mag_lt a)

theorem F32.sign_neg (a : Word) : F32.sign (F32.neg a) = !F32.sign a := F32.sign_ofParts _ (F32.mag_lt a)

theorem F32.isFinite_neg (a : Word) : F32.isFinite (F32.neg a) = F32.isFinite a := by
  unfold F32.isFinite; rw [F32.mag_neg]

/-- A datum that is not a NaN is finite exactly when its value is below an infinity's. -/
theorem F32.isFinite_of_val {a : Word} (hn : F32.isNaN a = false)
    (hlo : -(F32.units F32.infMag : Int) < F32.val a) (hhi : F32.val a < (F32.units F32.infMag : Int)) :
    F32.isFinite a = true := by
  have hm := F32.mag_le_of_not_nan hn
  unfold F32.isFinite
  have : F32.mag a ≠ F32.infMag := by
    intro h
    unfold F32.val at hlo hhi
    rw [h] at hlo hhi
    cases hs : F32.sign a <;> simp [hs] at hlo hhi
  simp; omega

/-! The rounded value. -/

/-- The value of `x / den` units rounded to binary32. -/
def F32.rounded (x : Int) (den : Nat) : Int := F32.val (F32.round x den)

theorem F32.roundUnits_lt (num den : Nat) : F32.roundUnits num den < 2 ^ 31 :=
  lt_of_le_of_lt (F32.roundUnits_le_infMag num den) F32.infMag_lt

theorem F32.rounded_eq (x : Int) (den : Nat) :
    F32.rounded x den =
      if x < 0 then -(F32.units (F32.roundUnits x.natAbs den) : Int) else (F32.units (F32.roundUnits x.natAbs den) : Int) := by
  unfold F32.rounded F32.round
  rw [F32.val_ofParts _ (F32.roundUnits_lt _ _)]
  by_cases h : x < 0 <;> simp [h]

theorem F32.isNaN_round (x : Int) (den : Nat) : F32.isNaN (F32.round x den) = false :=
  F32.isNaN_ofParts _ (F32.roundUnits_le_infMag _ _)

/-- The rounded value is monotone in the exact one. -/
theorem F32.rounded_mono {x y : Int} {d e : Nat} (hd : 0 < d) (he : 0 < e) (h : x * e ≤ y * d) :
    F32.rounded x d ≤ F32.rounded y e := by
  rw [F32.rounded_eq, F32.rounded_eq]
  have hd' : (0 : Int) < d := by exact_mod_cast hd
  have he' : (0 : Int) < e := by exact_mod_cast he
  by_cases hx : x < 0
  · by_cases hy : y < 0
    · rw [if_pos hx, if_pos hy]
      have hm : F32.roundUnits y.natAbs e ≤ F32.roundUnits x.natAbs d := by
        apply F32.roundUnits_mono he hd
        zify
        rw [abs_of_neg hx, abs_of_neg hy]
        linarith
      have := F32.units_strictMono.monotone hm
      omega
    · rw [if_pos hx, if_neg hy]; omega
  · by_cases hy : y < 0
    · exfalso; nlinarith
    · rw [if_neg hx, if_neg hy]
      have hm : F32.roundUnits x.natAbs d ≤ F32.roundUnits y.natAbs e := by
        apply F32.roundUnits_mono hd he
        zify
        rw [abs_of_nonneg (by omega), abs_of_nonneg (by omega)]
        linarith
      have := F32.units_strictMono.monotone hm
      omega

/-- A representable value is left alone. -/
theorem F32.rounded_exact {a : Word} (hn : F32.isNaN a = false) {d : Nat} (hd : 0 < d) :
    F32.rounded (F32.val a * d) d = F32.val a := by
  rw [F32.rounded_eq]
  have hm := F32.mag_le_of_not_nan hn
  have hd' : (0 : Int) < d := by exact_mod_cast hd
  have habs : (F32.val a * d).natAbs = F32.units (F32.mag a) * d := by
    unfold F32.val
    split <;> simp [Int.natAbs_mul]
  rw [habs, F32.roundUnits_exact hd hm]
  unfold F32.val
  by_cases hs : F32.sign a = true
  · simp only [hs, if_true]
    by_cases hz : F32.units (F32.mag a) = 0
    · simp [hz]
    · rw [if_pos]
      have : (0 : Int) < F32.units (F32.mag a) := by omega
      nlinarith
  · simp only [hs]
    have hnn : ¬((F32.units (F32.mag a) : Int) * d < 0) := by rw [not_lt]; positivity
    simp only [Bool.false_eq_true, if_false, if_neg hnn]

theorem F32.rounded_zero {d : Nat} (hd : 0 < d) : F32.rounded 0 d = 0 := by
  have := F32.rounded_exact (a := 0#32) (by decide) hd
  simpa [show F32.val 0#32 = 0 from by decide] using this

/-- A bound by a representable value is kept by rounding. -/
theorem F32.rounded_le {x : Int} {d : Nat} {a : Word} (hn : F32.isNaN a = false) (hd : 0 < d) (h : x ≤ F32.val a * d) :
    F32.rounded x d ≤ F32.val a := by
  rw [← F32.rounded_exact hn hd]
  exact F32.rounded_mono hd hd (mul_le_mul_of_nonneg_right h (by positivity))

theorem F32.le_rounded {x : Int} {d : Nat} {a : Word} (hn : F32.isNaN a = false) (hd : 0 < d) (h : F32.val a * d ≤ x) :
    F32.val a ≤ F32.rounded x d := by
  rw [← F32.rounded_exact hn hd]
  exact F32.rounded_mono hd hd (mul_le_mul_of_nonneg_right h (by positivity))

theorem F32.rounded_nonneg {x : Int} {d : Nat} (hd : 0 < d) (h : 0 ≤ x) : 0 ≤ F32.rounded x d := by
  rw [← F32.rounded_zero hd]
  exact F32.rounded_mono hd hd (by simpa using mul_nonneg h (by positivity : (0 : Int) ≤ d))

/-! The operations on finite data. -/

theorem F32.val_addWith {nan a b : Word} (ha : F32.isFinite a = true) (hb : F32.isFinite b = true) :
    F32.isNaN (F32.addWith nan a b) = false ∧ F32.val (F32.addWith nan a b) = F32.rounded (F32.val a + F32.val b) 1 := by
  unfold F32.addWith
  rw [F32.isInf_of_finite ha, F32.isInf_of_finite hb]
  by_cases h : F32.val a + F32.val b = 0
  · simp only [h, if_true, Bool.false_eq_true, if_false]
    rw [F32.rounded_zero one_pos]
    refine ⟨F32.isNaN_ofParts _ (by decide), ?_⟩
    rw [F32.val_ofParts _ (by norm_num)]
    simp [F32.units_zero]
  · simp only [h, Bool.false_eq_true, if_false]
    exact ⟨F32.isNaN_round _ _, rfl⟩

theorem F32.add_finite {a b : Word} (ha : F32.isFinite a = true) (hb : F32.isFinite b = true) :
    F32.isNaN (F32.add a b) = false ∧ F32.val (F32.add a b) = F32.rounded (F32.val a + F32.val b) 1 := by
  unfold F32.add
  rw [F32.isNaN_of_finite ha, F32.isNaN_of_finite hb]
  exact F32.val_addWith ha hb

theorem F32.sub_finite {a b : Word} (ha : F32.isFinite a = true) (hb : F32.isFinite b = true) :
    F32.isNaN (F32.sub a b) = false ∧ F32.val (F32.sub a b) = F32.rounded (F32.val a - F32.val b) 1 := by
  unfold F32.sub
  rw [F32.isNaN_of_finite ha, F32.isNaN_of_finite hb]
  have := F32.val_addWith (nan := F32.nan .sub a b) ha (b := F32.neg b) (by rw [F32.isFinite_neg]; exact hb)
  rw [F32.val_neg, ← sub_eq_add_neg] at this
  exact this

/-- A signed magnitude rounded, against the rounding of the signed value. -/
theorem F32.val_ofParts_roundUnits {s : Bool} {x : Int} {num den : Nat} (hd : 0 < den) (hn : x.natAbs = num)
    (hs : x ≠ 0 → (s = true ↔ x < 0)) : F32.val (F32.ofParts s (F32.roundUnits num den)) = F32.rounded x den := by
  subst hn
  rw [F32.val_ofParts _ (F32.roundUnits_lt _ _), F32.rounded_eq]
  by_cases h0 : x = 0
  · subst h0
    have : F32.roundUnits 0 den = 0 := by
      have := F32.roundUnits_exact (m := 0) hd (by decide)
      simpa [F32.units_zero] using this
    simp [this, F32.units_zero]
  · by_cases hx : x < 0
    · simp [(hs h0).2 hx, hx]
    · have : s = false := by
        cases s with
        | false => rfl
        | true => exact absurd ((hs h0).1 rfl) hx
      simp [this, hx]

theorem F32.units_pos {m : Nat} (h : m ≠ 0) : 0 < F32.units m := by
  rw [← F32.units_zero]; exact F32.units_strictMono (by omega)

theorem F32.val_natAbs (a : Word) : (F32.val a).natAbs = F32.units (F32.mag a) := by
  unfold F32.val; split <;> simp

theorem F32.val_neg_iff {a : Word} (h : F32.val a ≠ 0) : F32.val a < 0 ↔ F32.sign a = true := by
  unfold F32.val at *
  by_cases hs : F32.sign a = true
  · simp [hs] at *; omega
  · simp [hs] at *

theorem F32.mul_finite {a b : Word} (ha : F32.isFinite a = true) (hb : F32.isFinite b = true) :
    F32.isNaN (F32.mul a b) = false ∧ F32.val (F32.mul a b) = F32.rounded (F32.val a * F32.val b) (2 ^ 149) := by
  unfold F32.mul
  rw [F32.isNaN_of_finite ha, F32.isNaN_of_finite hb, F32.isInf_of_finite ha, F32.isInf_of_finite hb]
  simp only [Bool.or_self, Bool.false_eq_true, if_false]
  refine ⟨F32.isNaN_ofParts _ (F32.roundUnits_le_infMag _ _), ?_⟩
  apply F32.val_ofParts_roundUnits (by positivity)
  · rw [Int.natAbs_mul, F32.val_natAbs, F32.val_natAbs]
  · intro h0
    have ha0 : F32.val a ≠ 0 := left_ne_zero_of_mul h0
    have hb0 : F32.val b ≠ 0 := right_ne_zero_of_mul h0
    have h1 := F32.val_neg_iff ha0
    have h2 := F32.val_neg_iff hb0
    rw [mul_neg_iff]
    cases hsa : F32.sign a <;> cases hsb : F32.sign b <;> simp [hsa, hsb] at * <;> omega

theorem F32.div_finite {a b : Word} (ha : F32.isFinite a = true) (hb : F32.isFinite b = true) (hz : 0 < F32.val b) :
    F32.isNaN (F32.div a b) = false ∧
      F32.val (F32.div a b) = F32.rounded (F32.val a * 2 ^ 149) (F32.val b).toNat := by
  have hbs : F32.sign b = false := by
    have := F32.val_neg_iff (a := b) (by omega)
    cases h : F32.sign b <;> simp [h] at * ; omega
  have hbu : (F32.val b).toNat = F32.units (F32.mag b) := by
    unfold F32.val; simp [hbs]
  have hbm : F32.mag b ≠ 0 := by
    intro h; unfold F32.val at hz; rw [h, F32.units_zero] at hz; simp at hz
  unfold F32.div
  rw [F32.isNaN_of_finite ha, F32.isNaN_of_finite hb, F32.isInf_of_finite ha, F32.isInf_of_finite hb, hbu]
  simp only [Bool.or_self, Bool.false_eq_true, if_false, if_neg hbm]
  refine ⟨F32.isNaN_ofParts _ (F32.roundUnits_le_infMag _ _), ?_⟩
  apply F32.val_ofParts_roundUnits (F32.units_pos hbm)
  · rw [Int.natAbs_mul, F32.val_natAbs]; rfl
  · intro h0
    have ha0 : F32.val a ≠ 0 := left_ne_zero_of_mul h0
    have h1 := F32.val_neg_iff ha0
    rw [hbs]
    cases hsa : F32.sign a <;> simp [hsa] at * <;> omega

/-! Comparisons. -/

theorem F32.le_iff {a b : Word} :
    F32.le a b = true ↔ F32.isNaN a = false ∧ F32.isNaN b = false ∧ F32.val a ≤ F32.val b := by
  unfold F32.le; cases F32.isNaN a <;> cases F32.isNaN b <;> simp

theorem F32.lt_iff {a b : Word} :
    F32.lt a b = true ↔ F32.isNaN a = false ∧ F32.isNaN b = false ∧ F32.val a < F32.val b := by
  unfold F32.lt; cases F32.isNaN a <;> cases F32.isNaN b <;> simp

/-- A datum between two finite ones is finite. -/
theorem F32.isFinite_between {a b c : Word} (ha : F32.isFinite a = true) (hc : F32.isFinite c = true)
    (hn : F32.isNaN b = false) (h1 : F32.val a ≤ F32.val b) (h2 : F32.val b ≤ F32.val c) : F32.isFinite b = true := by
  have hlt : ∀ {x : Word}, F32.isFinite x = true →
      -(F32.units F32.infMag : Int) < F32.val x ∧ F32.val x < (F32.units F32.infMag : Int) := by
    intro x hx
    have hm : F32.units (F32.mag x) < F32.units F32.infMag := by
      apply F32.units_strictMono
      unfold F32.isFinite at hx; simpa using hx
    unfold F32.val
    split <;> omega
  have := hlt ha
  have := hlt hc
  exact F32.isFinite_of_val hn (by omega) (by omega)

/-- "`ofNat(n)` is exact for `n <= 2^24`" (R9). -/
theorem F32.ofNat_exact {n : Nat} (hn : n ≤ 2 ^ 24) :
    F32.isFinite (F32.ofNat n) = true ∧ F32.val (F32.ofNat n) = n * 2 ^ 149 := by
  have hrep : ∃ m, m < F32.infMag ∧ F32.units m = n * 2 ^ 149 := by
    by_cases h0 : n = 0
    · exact ⟨0, by decide, by simp [h0, F32.units_zero]⟩
    · by_cases htop : n = 2 ^ 24
      · exact ⟨150 * 2 ^ 23 + 2 ^ 23, by unfold F32.infMag; norm_num, by
          rw [F32.units_of_significand _ _ (Or.inr ⟨le_rfl, by norm_num⟩), htop]; norm_num⟩
      · have hlo : 2 ^ Nat.log2 n ≤ n := Nat.log2_self_le h0
        have hhi : n < 2 ^ (Nat.log2 n + 1) := Nat.lt_log2_self
        have hl : Nat.log2 n < 24 := by
          by_contra hc
          have : 2 ^ 24 ≤ 2 ^ Nat.log2 n := Nat.pow_le_pow_right (by norm_num) (by omega)
          omega
        refine ⟨(126 + Nat.log2 n) * 2 ^ 23 + n * 2 ^ (23 - Nat.log2 n), ?_, ?_⟩
        · have h1 : n * 2 ^ (23 - Nat.log2 n) < 2 ^ (Nat.log2 n + 1) * 2 ^ (23 - Nat.log2 n) :=
            Nat.mul_lt_mul_of_pos_right hhi (by positivity)
          rw [← pow_add, show Nat.log2 n + 1 + (23 - Nat.log2 n) = 24 by omega] at h1
          unfold F32.infMag; omega
        · rw [F32.units_of_significand, mul_assoc, ← pow_add]
          · congr 2; omega
          · right
            constructor
            · calc 2 ^ 23 = 2 ^ Nat.log2 n * 2 ^ (23 - Nat.log2 n) := by rw [← pow_add]; congr 1; omega
                _ ≤ _ := Nat.mul_le_mul_right _ hlo
            · calc _ ≤ 2 ^ (Nat.log2 n + 1) * 2 ^ (23 - Nat.log2 n) := Nat.mul_le_mul_right _ (by omega)
                _ = 2 ^ 24 := by rw [← pow_add]; congr 1; omega
  obtain ⟨m, hm, hu⟩ := hrep
  have hr : F32.roundUnits (n * 2 ^ 149) 1 = m := by
    have := F32.roundUnits_exact (m := m) one_pos hm.le
    rwa [mul_one, hu] at this
  have := F32.infMag_lt
  unfold F32.ofNat F32.isFinite
  rw [hr, F32.mag_ofParts _ (by omega), F32.val_ofParts _ (by omega), hu]
  simp [hm]

end Sys2Proof.Machine
end

