-- ==== Sys2Proof/Laws/SafeNumerics.lean ====
section
/-! SUPPORT. What the address safety of the core needs of a numerics profile (R95, R102, R104, R105, R114), and that both
profiles give it. -/

namespace Sys2Proof.Machine

/-- The facts about a numerics profile on which R24, R95, R105 and R114 rest. -/
structure SafeNumerics {S : Type} (N : Numerics S) : Prop where
  dfltInRange : ∀ k, inRange N ((paramTable N).get k) ((paramTable N).get k).dflt
  clampInRange : ∀ w v k, notFinite w = false → N.dec32 w = some v →
    inRange N ((paramTable N).get k) (clamp N ((paramTable N).get k) v)
  rate : ∀ a fs, checkRate N a = some fs → N.gt fs N.zero = true ∧ N.isFinite fs = true
  capacity : ∀ cfg fs cap, N.gt fs N.zero = true → N.isFinite fs = true → cfg.ramWords ≤ 2 ^ 24 →
    capacity N cfg fs = some cap → 1 ≤ cap ∧ cap ≤ cfg.ramWords ∧ N.le (N.mul N.tHi fs) (N.ofNat cap) = true
  phaseZero : N.ge N.zero N.zero = true ∧ N.le N.zero N.one = true
  phaseNext : ∀ q e, paramsInRange N q → N.gt e.fs N.zero = true → N.isFinite e.fs = true →
    N.ge e.phase N.zero = true → (N.ge e.fs (paramTable N).chorusRate.max = true → N.le e.phase N.one = true) →
    N.ge (nextPhase N q e) N.zero = true ∧
      (N.ge e.fs (paramTable N).chorusRate.max = true → N.le (nextPhase N q e) N.one = true)
  lfo : ∀ q ph, paramsInRange N q →
    N.le N.negOne (lfoAt N q ph) = true ∧ N.le (lfoAt N q ph) N.one = true
  time : ∀ l, N.le N.negOne l = true → N.le l N.one = true →
    N.le N.tLo (delayTime N l) = true ∧ N.le (delayTime N l) N.tHi = true
  position : ∀ t e, N.le N.tLo t = true → N.le t N.tHi = true → e.cap ≤ 2 ^ 24 → e.wh < e.cap →
    N.gt e.fs N.zero = true → N.isFinite e.fs = true → N.le (N.mul N.tHi e.fs) (N.ofNat e.cap) = true →
    ∃ i, N.floorNat (readPosition N e t) = some i ∧ i ≤ e.cap

/-! Profile F32. -/

@[simp] theorem f32_add (a b : Word) : Machine.f32.add a b = F32.add a b := rfl
@[simp] theorem f32_sub (a b : Word) : Machine.f32.sub a b = F32.sub a b := rfl
@[simp] theorem f32_mul (a b : Word) : Machine.f32.mul a b = F32.mul a b := rfl
@[simp] theorem f32_div (a b : Word) : Machine.f32.div a b = F32.div a b := rfl
@[simp] theorem f32_lt (a b : Word) : Machine.f32.lt a b = F32.lt a b := rfl
@[simp] theorem f32_gt (a b : Word) : Machine.f32.gt a b = F32.lt b a := rfl
@[simp] theorem f32_le (a b : Word) : Machine.f32.le a b = F32.le a b := rfl
@[simp] theorem f32_ge (a b : Word) : Machine.f32.ge a b = F32.le b a := rfl
@[simp] theorem f32_ofNat (n : Nat) : Machine.f32.ofNat n = F32.ofNat n := rfl
@[simp] theorem f32_floorNat (a : Word) : Machine.f32.floorNat a = F32.floorNat a := rfl
@[simp] theorem f32_isFinite (a : Word) : Machine.f32.isFinite a = F32.isFinite a := rfl
@[simp] theorem f32_dec32 (w : Word) : Machine.f32.dec32 w = some w := rfl
@[simp] theorem f32_enc32 (v : Word) : Machine.f32.enc32 v = v := rfl

theorem F32.isFinite_of_le_units {a : Word} (hn : F32.isNaN a = false) {b : Word} (hb : F32.isFinite b = true)
    (h1 : -F32.val b ≤ F32.val a) (h2 : F32.val a ≤ F32.val b) : F32.isFinite a = true := by
  have hb' : F32.isFinite (F32.neg b) = true := by rw [F32.isFinite_neg]; exact hb
  exact F32.isFinite_between hb' hb hn (by rw [F32.val_neg]; exact h1) h2

theorem F32.zero_facts : F32.isFinite Machine.f32.zero = true ∧ F32.val Machine.f32.zero = 0 := by decide
theorem F32.one_facts : F32.isFinite Machine.f32.one = true ∧ F32.val Machine.f32.one = 2 ^ 149 := by decide
theorem F32.negOne_facts : F32.isFinite Machine.f32.negOne = true ∧ F32.val Machine.f32.negOne = -2 ^ 149 := by decide

/-- A parameter in range is a finite scalar between the bounds. -/
theorem F32.of_inRange {lo hi v : Word} (hlo : F32.isFinite lo = true) (hhi : F32.isFinite hi = true)
    (h : F32.le lo v = true ∧ F32.le v hi = true) :
    F32.isFinite v = true ∧ F32.val lo ≤ F32.val v ∧ F32.val v ≤ F32.val hi := by
  obtain ⟨h1, h2⟩ := h
  rw [F32.le_iff] at h1 h2
  exact ⟨F32.isFinite_between hlo hhi h1.2.1 h1.2.2 h2.2.2, h1.2.2, h2.2.2⟩

/-- `SINF` is finite and in `[-1, 1]` (R9, R180). -/
theorem F32.sinf_facts (a : Word) :
    F32.isFinite (F32.sinf a) = true ∧ -2 ^ 149 ≤ F32.val (F32.sinf a) ∧ F32.val (F32.sinf a) ≤ 2 ^ 149 := by
  unfold F32.sinf
  split
  · decide
  · have hlt := (Config.sine a).2.isLt
    set m := (Config.sine a).2.val
    have hm : m ≤ 0x3F800000 := by omega
    have hu : F32.units m ≤ 2 ^ 149 := by
      have := F32.units_strictMono.monotone hm
      rwa [show F32.units 0x3F800000 = 2 ^ 149 from by decide] at this
    rw [F32.val_ofParts _ (by omega)]
    unfold F32.isFinite
    rw [F32.mag_ofParts _ (by omega)]
    refine ⟨?_, ?_⟩
    · unfold F32.infMag; simp; omega
    · split <;> omega

theorem F32.depth_range {q : Params Word} (h : paramsInRange Machine.f32 q) :
    F32.isFinite q.chorusDepth = true ∧ 0 ≤ F32.val q.chorusDepth ∧ F32.val q.chorusDepth ≤ 2 ^ 149 := by
  have := F32.of_inRange (by decide) (by decide) (h .chorusDepth)
  rwa [show F32.val ((paramTable Machine.f32).get .chorusDepth).min = 0 from by decide,
    show F32.val ((paramTable Machine.f32).get .chorusDepth).max = 2 ^ 149 from by decide] at this

theorem F32.rate_range {q : Params Word} (h : paramsInRange Machine.f32 q) :
    F32.isFinite q.chorusRate = true ∧ 0 ≤ F32.val q.chorusRate ∧ F32.val q.chorusRate ≤ 5 * 2 ^ 149 := by
  have := F32.of_inRange (by decide) (by decide) (h .chorusRate)
  rwa [show F32.val ((paramTable Machine.f32).get .chorusRate).min = 0 from by decide,
    show F32.val ((paramTable Machine.f32).get .chorusRate).max = 5 * 2 ^ 149 from by decide] at this

/-- "`-depth <= lfo[c] <= depth`, hence `-1 <= lfo[c] <= 1`" (R102). -/
theorem F32.lfoAt_facts {q : Params Word} (ph : Word) (h : paramsInRange Machine.f32 q) :
    F32.isFinite (lfoAt Machine.f32 q ph) = true ∧ -2 ^ 149 ≤ F32.val (lfoAt Machine.f32 q ph) ∧
      F32.val (lfoAt Machine.f32 q ph) ≤ 2 ^ 149 := by
  obtain ⟨hs, hs1, hs2⟩ := F32.sinf_facts (F32.mul F32.twoPi ph)
  obtain ⟨hd, hd1, hd2⟩ := F32.depth_range h
  obtain ⟨hn, hv⟩ := F32.mul_finite hs hd
  have h1 := F32.one_facts
  have h2 := F32.negOne_facts
  have hup : F32.val (lfoAt Machine.f32 q ph) ≤ F32.val Machine.f32.one := by
    show F32.val (F32.mul (F32.sinf (F32.mul F32.twoPi ph)) q.chorusDepth) ≤ _
    rw [hv]
    apply F32.rounded_le (F32.isNaN_of_finite h1.1) (by positivity)
    rw [h1.2]; push_cast; nlinarith
  have hlo : F32.val Machine.f32.negOne ≤ F32.val (lfoAt Machine.f32 q ph) := by
    show _ ≤ F32.val (F32.mul (F32.sinf (F32.mul F32.twoPi ph)) q.chorusDepth)
    rw [hv]
    apply F32.le_rounded (F32.isNaN_of_finite h2.1) (by positivity)
    rw [h2.2]; push_cast; nlinarith
  exact ⟨F32.isFinite_between h2.1 h1.1 hn hlo hup, by rw [← h2.2]; exact hlo, by rw [← h1.2]; exact hup⟩

theorem F32.span_facts :
    F32.isFinite (F32.sub Machine.f32.tHi Machine.f32.tLo) = true ∧
      F32.val (F32.sub Machine.f32.tHi Machine.f32.tLo) = F32.val 0x3CCCCCCC#32 ∧
      F32.isFinite (F32.sub Machine.f32.one Machine.f32.negOne) = true ∧
      F32.val (F32.sub Machine.f32.one Machine.f32.negOne) = 2 ^ 150 := by decide

/-- "`T_LO <= t[c] <= T_HI` for every `lfo[c]` in `[-1, 1]` in both profiles" (R104). -/
theorem F32.delayTime_facts {l : Word} (hf : F32.isFinite l = true) (h1 : -2 ^ 149 ≤ F32.val l)
    (h2 : F32.val l ≤ 2 ^ 149) :
    F32.isFinite (delayTime Machine.f32 l) = true ∧
      F32.val Machine.f32.tLo ≤ F32.val (delayTime Machine.f32 l) ∧
      F32.val (delayTime Machine.f32 l) ≤ F32.val Machine.f32.tHi := by
  obtain ⟨hsf, hsv, htf, htv⟩ := F32.span_facts
  obtain ⟨hmf, hmv⟩ := F32.negOne_facts
  -- lfo + 1
  obtain ⟨han, hav⟩ := F32.sub_finite hf hmf
  have ha1 : 0 ≤ F32.val (F32.sub l Machine.f32.negOne) := by
    rw [hav]; apply F32.rounded_nonneg one_pos; rw [hmv]; linarith
  have hav2 : F32.val (F32.sub l Machine.f32.negOne) ≤ F32.val 0x40000000#32 := by
    rw [hav]
    apply F32.rounded_le (by decide) one_pos
    rw [hmv, show F32.val 0x40000000#32 = 2 ^ 150 from by decide]; push_cast; linarith
  have haf : F32.isFinite (F32.sub l Machine.f32.negOne) = true :=
    F32.isFinite_between (a := 0#32) (c := 0x40000000#32) (by decide) (by decide) han
      (by rw [show F32.val 0#32 = 0 from by decide]; exact ha1) hav2
  rw [show F32.val 0x40000000#32 = 2 ^ 150 from by decide] at hav2
  -- times the span
  obtain ⟨hbn, hbv⟩ := F32.mul_finite hsf haf
  have hspan : F32.val 0x3CCCCCCC#32 = 0xCCCCCC * 2 ^ 120 := by decide
  have hb1 : 0 ≤ F32.val (F32.mul (F32.sub Machine.f32.tHi Machine.f32.tLo) (F32.sub l Machine.f32.negOne)) := by
    rw [hbv]; apply F32.rounded_nonneg (by positivity); rw [hsv, hspan]; positivity
  have hb2 : F32.val (F32.mul (F32.sub Machine.f32.tHi Machine.f32.tLo) (F32.sub l Machine.f32.negOne)) ≤
      F32.val 0x3D4CCCCC#32 := by
    rw [hbv]
    apply F32.rounded_le (by decide) (by positivity)
    rw [hsv, hspan, show F32.val 0x3D4CCCCC#32 = 0xCCCCCC * 2 ^ 121 from by decide]; push_cast; nlinarith
  have hbf := F32.isFinite_between (a := 0#32) (c := 0x3D4CCCCC#32) (by decide) (by decide) hbn
      (by rw [show F32.val 0#32 = 0 from by decide]; exact hb1) hb2
  rw [show F32.val 0x3D4CCCCC#32 = 0xCCCCCC * 2 ^ 121 from by decide] at hb2
  -- halved
  obtain ⟨hcn, hcv⟩ := F32.div_finite hbf htf (by rw [htv]; positivity)
  have hden : (F32.val (F32.sub Machine.f32.one Machine.f32.negOne)).toNat = 2 ^ 150 := by
    rw [htv, show (2 : Int) ^ 150 = ((2 ^ 150 : Nat) : Int) by norm_num, Int.toNat_natCast]
  rw [hden] at hcv
  set dv := F32.div (F32.mul (F32.sub Machine.f32.tHi Machine.f32.tLo) (F32.sub l Machine.f32.negOne))
    (F32.sub Machine.f32.one Machine.f32.negOne) with hdv
  have hc1 : 0 ≤ F32.val dv := by
    rw [hcv]; exact F32.rounded_nonneg (by positivity) (mul_nonneg hb1 (by norm_num))
  have hc2 : F32.val dv ≤ F32.val 0x3CCCCCCC#32 := by
    rw [hcv]
    apply F32.rounded_le (by decide) (by positivity)
    rw [hspan]; push_cast; nlinarith
  have hcf := F32.isFinite_between (a := 0#32) (c := 0x3CCCCCCC#32) (by decide) (by decide) hcn
      (by rw [show F32.val 0#32 = 0 from by decide]; exact hc1) hc2
  -- plus T_LO
  have hlof : F32.isFinite Machine.f32.tLo = true := by decide
  have hhif : F32.isFinite Machine.f32.tHi = true := by decide
  obtain ⟨hen, hev⟩ := F32.add_finite hlof hcf
  have he1 : F32.val Machine.f32.tLo ≤ F32.val (F32.add Machine.f32.tLo dv) := by
    rw [hev]; apply F32.le_rounded (F32.isNaN_of_finite hlof) one_pos; push_cast; linarith
  have he2 : F32.val (F32.add Machine.f32.tLo dv) ≤ F32.val Machine.f32.tHi := by
    have hmax : F32.rounded (F32.val Machine.f32.tLo + F32.val 0x3CCCCCCC#32) 1 ≤ F32.val Machine.f32.tHi := by decide
    refine le_trans ?_ hmax
    rw [hev]; apply F32.rounded_mono one_pos one_pos; push_cast; linarith
  exact ⟨F32.isFinite_between hlof hhif hen he1 he2, he1, he2⟩

/-- The read position of R91 lies between 0 and `CAP`, both included (R95), and has a floor. -/
theorem F32.position_facts {t : Word} {e : Engine Word} (ht : F32.isFinite t = true) (h0 : 0 ≤ F32.val t)
    (h1 : F32.val t ≤ F32.val Machine.f32.tHi) (hcap : e.cap ≤ 2 ^ 24) (hwh : e.wh < e.cap)
    (hfs : F32.isFinite e.fs = true) (hpos : 0 < F32.val e.fs)
    (hroom : F32.val (F32.mul Machine.f32.tHi e.fs) ≤ F32.val (F32.ofNat e.cap)) :
    ∃ i, F32.floorNat (readPosition Machine.f32 e t) = some i ∧ i ≤ e.cap := by
  obtain ⟨hcf, hcv⟩ := F32.ofNat_exact hcap
  obtain ⟨hwf, hwv⟩ := F32.ofNat_exact (n := e.wh) (by omega)
  have hhif : F32.isFinite Machine.f32.tHi = true := by decide
  obtain ⟨-, hmaxv⟩ := F32.mul_finite hhif hfs
  have hwhZ : (e.wh : Int) < e.cap := by exact_mod_cast hwh
  -- d
  obtain ⟨hdn, hdv⟩ := F32.mul_finite hfs ht
  have hd1 : 0 ≤ F32.val (F32.mul e.fs t) := by
    rw [hdv]; apply F32.rounded_nonneg (by positivity); positivity
  have hd2 : F32.val (F32.mul e.fs t) ≤ F32.val (F32.ofNat e.cap) := by
    refine le_trans ?_ hroom
    rw [hdv, hmaxv]
    apply F32.rounded_mono (by positivity) (by positivity)
    push_cast; nlinarith
  have hdf := F32.isFinite_between (a := 0#32) (by decide) hcf hdn
    (by rw [show F32.val 0#32 = 0 from by decide]; exact hd1) hd2
  -- WH - d
  obtain ⟨hsn, hsv⟩ := F32.sub_finite hwf hdf
  set s := F32.sub (F32.ofNat e.wh) (F32.mul e.fs t) with hs
  have hs1 : -F32.val (F32.ofNat e.cap) ≤ F32.val s := by
    rw [← F32.val_neg, hsv]
    apply F32.le_rounded (by rw [F32.isNaN_of_finite]; rw [F32.isFinite_neg]; exact hcf) one_pos
    rw [F32.val_neg, hcv, hwv]; rw [hcv] at hd2; push_cast; nlinarith
  have hs2 : F32.val s ≤ F32.val (F32.ofNat e.wh) := by
    rw [hsv]; apply F32.rounded_le (F32.isNaN_of_finite hwf) one_pos; push_cast; linarith
  have hwc : F32.val (F32.ofNat e.wh) ≤ F32.val (F32.ofNat e.cap) := by rw [hwv, hcv]; nlinarith
  have hsf : F32.isFinite s = true := F32.isFinite_of_le_units hsn hcf hs1 (hs2.trans hwc)
  -- the wrapped position
  have key : ∀ r : Word, F32.isFinite r = true → 0 ≤ F32.val r → F32.val r ≤ F32.val (F32.ofNat e.cap) →
      ∃ i, F32.floorNat r = some i ∧ i ≤ e.cap := by
    intro r hrf hr0 hr1
    refine ⟨F32.units (F32.mag r) / 2 ^ 149, ?_, ?_⟩
    · unfold F32.floorNat; simp [hrf, hr0]
    · have : F32.units (F32.mag r) ≤ e.cap * 2 ^ 149 := by
        have hz : ((F32.units (F32.mag r) : Nat) : Int) ≤ (e.cap : Int) * 2 ^ 149 := by
          rw [← F32.val_natAbs, Int.natAbs_of_nonneg hr0, ← hcv]; exact hr1
        exact_mod_cast hz
      exact Nat.div_le_of_le_mul (by rw [mul_comm]; exact this)
  show ∃ i, F32.floorNat (wrapPosition Machine.f32 e s) = some i ∧ i ≤ e.cap
  unfold wrapPosition
  show ∃ i, F32.floorNat (if F32.lt s Machine.f32.zero then F32.add s (F32.ofNat e.cap) else s) = some i ∧ i ≤ e.cap
  by_cases hneg : F32.lt s Machine.f32.zero = true
  · rw [if_pos hneg]
    have hsneg : F32.val s < 0 := by
      have := (F32.lt_iff.1 hneg).2.2; rwa [F32.zero_facts.2] at this
    obtain ⟨han, hav⟩ := F32.add_finite hsf hcf
    have ha1 : 0 ≤ F32.val (F32.add s (F32.ofNat e.cap)) := by
      rw [hav]; apply F32.rounded_nonneg one_pos; linarith
    have ha2 : F32.val (F32.add s (F32.ofNat e.cap)) ≤ F32.val (F32.ofNat e.cap) := by
      rw [hav]; apply F32.rounded_le (F32.isNaN_of_finite hcf) one_pos; push_cast; linarith
    exact key _ (F32.isFinite_between (a := 0#32) (by decide) hcf han
      (by rw [show F32.val 0#32 = 0 from by decide]; exact ha1) ha2) ha1 ha2
  · rw [if_neg hneg]
    have hs0 : 0 ≤ F32.val s := by
      by_contra hc
      apply hneg
      rw [F32.lt_iff]
      exact ⟨hsn, by decide, by rw [F32.zero_facts.2]; exact not_le.1 hc⟩
    exact key s hsf hs0 (hs2.trans hwc)

/-- A datum that is no NaN and no finite datum is an infinity. -/
theorem F32.isInf_of_not_finite {a : Word} (hn : F32.isNaN a = false) (hf : F32.isFinite a = false) :
    F32.isInf a = true := by
  have := F32.mag_le_of_not_nan hn
  unfold F32.isFinite at hf; unfold F32.isInf
  simp at *; omega

theorem F32.val_of_isInf {a : Word} (h : F32.isInf a = true) :
    F32.val a = if F32.sign a then -(F32.units F32.infMag : Int) else (F32.units F32.infMag : Int) := by
  unfold F32.isInf at h; unfold F32.val
  rw [of_decide_eq_true h]

/-- A sum of data that are not NaNs and not below zero. -/
theorem F32.add_nonneg {a b : Word} (ha : F32.isNaN a = false) (hb : F32.isNaN b = false) (h1 : 0 ≤ F32.val a)
    (h2 : 0 ≤ F32.val b) : F32.isNaN (F32.add a b) = false ∧ 0 ≤ F32.val (F32.add a b) := by
  by_cases hfa : F32.isFinite a = true
  · by_cases hfb : F32.isFinite b = true
    · obtain ⟨hn, hv⟩ := F32.add_finite hfa hfb
      exact ⟨hn, by rw [hv]; exact F32.rounded_nonneg one_pos (by linarith)⟩
    · have hib := F32.isInf_of_not_finite hb (by simpa using hfb)
      unfold F32.add F32.addWith
      rw [ha, hb, F32.isInf_of_finite hfa, hib]
      simp [hb, h2]
  · have hia := F32.isInf_of_not_finite ha (by simpa using hfa)
    have hsa : F32.sign a = false := by
      have := F32.val_of_isInf hia
      cases hs : F32.sign a
      · rfl
      · rw [hs] at this; simp at this
        have hpos : 0 < F32.units F32.infMag := F32.units_pos (by decide)
        omega
    unfold F32.add F32.addWith
    rw [ha, hb, hia, hsa]
    by_cases hib : F32.isInf b = true
    · have hsb : F32.sign b = false := by
        have := F32.val_of_isInf hib
        cases hs : F32.sign b
        · rfl
        · rw [hs] at this; simp at this
          have hpos : 0 < F32.units F32.infMag := F32.units_pos (by decide)
          omega
      simp [hib, hsb, ha, h1]
    · simp [show F32.isInf b = false by simpa using hib, ha, h1]

/-- One subtracted from a datum above one. -/
theorem F32.sub_one_nonneg {a : Word} (ha : F32.isNaN a = false) (h : 2 ^ 149 < F32.val a) :
    F32.isNaN (F32.sub a Machine.f32.one) = false ∧ 0 ≤ F32.val (F32.sub a Machine.f32.one) := by
  obtain ⟨h1f, h1v⟩ := F32.one_facts
  by_cases hfa : F32.isFinite a = true
  · obtain ⟨hn, hv⟩ := F32.sub_finite hfa h1f
    exact ⟨hn, by rw [hv, h1v]; exact F32.rounded_nonneg one_pos (by linarith)⟩
  · have hia := F32.isInf_of_not_finite ha (by simpa using hfa)
    unfold F32.sub F32.addWith
    rw [ha, F32.isNaN_of_finite h1f, hia, F32.isInf_of_finite (by rw [F32.isFinite_neg]; exact h1f)]
    simp [ha]; omega

theorem F32.phase_facts {q : Params Word} {e : Engine Word} (hq : paramsInRange Machine.f32 q)
    (hpos : 0 < F32.val e.fs) (hfs : F32.isFinite e.fs = true) (hn : F32.isNaN e.phase = false)
    (h0 : 0 ≤ F32.val e.phase) :
    F32.isNaN (nextPhase Machine.f32 q e) = false ∧ 0 ≤ F32.val (nextPhase Machine.f32 q e) ∧
      (5 * 2 ^ 149 ≤ F32.val e.fs → F32.val e.phase ≤ 2 ^ 149 → F32.val (nextPhase Machine.f32 q e) ≤ 2 ^ 149) := by
  obtain ⟨hrf, hr0, hr1⟩ := F32.rate_range hq
  obtain ⟨h1f, h1v⟩ := F32.one_facts
  obtain ⟨hin, hiv⟩ := F32.div_finite hrf hfs hpos
  have hposN : 0 < (F32.val e.fs).toNat := by omega
  set inc := F32.div q.chorusRate e.fs with hinc
  have hi0 : 0 ≤ F32.val inc := by rw [hiv]; exact F32.rounded_nonneg hposN (by positivity)
  obtain ⟨han, ha0⟩ := F32.add_nonneg hn hin h0 hi0
  have hgt : ∀ s : Word, F32.isNaN s = false → (Machine.f32.gt s Machine.f32.one = true ↔ 2 ^ 149 < F32.val s) := by
    intro s hs
    show F32.lt _ _ = true ↔ _
    rw [F32.lt_iff, h1v]
    exact ⟨fun h => h.2.2, fun h => ⟨F32.isNaN_of_finite h1f, hs, h⟩⟩
  show F32.isNaN (wrapPhase Machine.f32 (F32.add e.phase inc)) = false ∧
    0 ≤ F32.val (wrapPhase Machine.f32 (F32.add e.phase inc)) ∧
    (_ → _ → F32.val (wrapPhase Machine.f32 (F32.add e.phase inc)) ≤ _)
  unfold wrapPhase
  by_cases hw : Machine.f32.gt (F32.add e.phase inc) Machine.f32.one = true
  · rw [if_pos hw]
    have hgt1 := (hgt _ han).1 hw
    obtain ⟨hsn, hs0⟩ := F32.sub_one_nonneg han hgt1
    refine ⟨hsn, hs0, fun hfive hp1 => ?_⟩
    have hinc1 : F32.val inc ≤ F32.val Machine.f32.one := by
      rw [hiv]
      apply F32.rounded_le (F32.isNaN_of_finite h1f) hposN
      rw [h1v, Int.toNat_of_nonneg hpos.le]; nlinarith
    have hincf := F32.isFinite_between (a := 0#32) (by decide) h1f hin
      (by rw [show F32.val 0#32 = 0 from by decide]; exact hi0) hinc1
    have hpf := F32.isFinite_between (a := 0#32) (by decide) h1f hn
      (by rw [show F32.val 0#32 = 0 from by decide]; exact h0) (by rw [h1v]; exact hp1)
    obtain ⟨-, hav⟩ := F32.add_finite hpf hincf
    have ha2 : F32.val (F32.add e.phase inc) ≤ F32.val 0x40000000#32 := by
      rw [hav]
      apply F32.rounded_le (by decide) one_pos
      rw [show F32.val 0x40000000#32 = 2 ^ 150 from by decide]; rw [h1v] at hinc1; push_cast; linarith
    have haf := F32.isFinite_between (a := 0#32) (c := 0x40000000#32) (by decide) (by decide) han
      (by rw [show F32.val 0#32 = 0 from by decide]; exact ha0) ha2
    obtain ⟨-, hsv⟩ := F32.sub_finite haf h1f
    show F32.val (F32.sub _ Machine.f32.one) ≤ _
    rw [hsv, ← h1v]
    apply F32.rounded_le (F32.isNaN_of_finite h1f) one_pos
    rw [show F32.val 0x40000000#32 = 2 ^ 150 from by decide] at ha2
    rw [h1v]; push_cast; linarith
  · rw [if_neg hw]
    refine ⟨han, ha0, fun _ _ => ?_⟩
    by_contra hc
    exact hw ((hgt _ han).2 (by omega))

/-- The exponent test of the operands, against the magnitudes. -/
theorem notFinite_eq (w : Word) : notFinite w = !F32.isFinite w := by
  unfold notFinite F32.isFinite F32.mag F32.infMag
  have h : w.extractLsb' 23 8 = 0xFF#8 ↔ ¬ w.toNat % 2 ^ 31 < 0x7F800000 := by
    rw [← BitVec.toNat_inj, BitVec.extractLsb'_toNat, Nat.shiftRight_eq_div_pow]
    simp only [BitVec.toNat_ofNat]
    have := w.isLt
    omega
  by_cases hw : w.toNat % 2 ^ 31 < 0x7F800000
  · rw [decide_eq_true hw, decide_eq_false (fun hc => (h.1 hc) hw)]; rfl
  · rw [decide_eq_false hw, decide_eq_true (h.2 hw)]; rfl

/-- A bound that is not exceeded, for data that are not NaNs. -/
theorem F32.le_of_not_gt {a b : Word} (ha : F32.isNaN a = false) (hb : F32.isNaN b = false)
    (h : ¬ Machine.f32.gt a b = true) : F32.le a b = true := by
  rw [F32.le_iff]
  refine ⟨ha, hb, not_lt.1 fun hc => h ?_⟩
  show F32.lt b a = true
  exact F32.lt_iff.2 ⟨hb, ha, hc⟩

/-- Profile F32 gives what the address safety needs. -/
theorem f32_safe : SafeNumerics Machine.f32 where
  dfltInRange k := by cases k <;> exact ⟨by decide, by decide⟩
  clampInRange w v k hw hv := by
    have hv' : w = v := Option.some.inj hv
    subst hv'
    have hfin : F32.isFinite w = true := by rw [notFinite_eq] at hw; simpa using hw
    have hn := F32.isNaN_of_finite hfin
    have hb : F32.isNaN ((paramTable Machine.f32).get k).min = false ∧
        F32.isNaN ((paramTable Machine.f32).get k).max = false ∧
        F32.val ((paramTable Machine.f32).get k).min ≤ F32.val ((paramTable Machine.f32).get k).max := by
      cases k <;> decide
    generalize (paramTable Machine.f32).get k = r at hb ⊢
    have hge : ∀ {a b : Word}, F32.isNaN a = false → F32.isNaN b = false → ¬ F32.lt a b = true → F32.val b ≤ F32.val a := by
      intro a b ha hb h
      by_contra hc
      exact h (F32.lt_iff.2 ⟨ha, hb, not_le.1 hc⟩)
    unfold clamp inRange
    simp only [f32_lt, f32_gt, f32_le, F32.le_iff]
    by_cases h1 : F32.lt w r.min = true
    · simp only [h1, if_true]
      by_cases h2 : F32.lt r.max r.min = true
      · exact absurd (F32.lt_iff.1 h2).2.2 (not_lt.2 hb.2.2)
      · rw [if_neg h2]; exact ⟨⟨hb.1, hb.1, le_rfl⟩, hb.1, hb.2.1, hb.2.2⟩
    · simp only [show F32.lt w r.min = false by simpa using h1, Bool.false_eq_true, if_false]
      by_cases h2 : F32.lt r.max w = true
      · rw [if_pos h2]; exact ⟨⟨hb.1, hb.2.1, hb.2.2⟩, hb.2.1, hb.2.1, le_rfl⟩
      · rw [if_neg h2]; exact ⟨⟨hb.1, hn, hge hn hb.1 h1⟩, hn, hb.2.1, hge hb.2.1 hn h2⟩
  rate a fs h := by
    unfold checkRate at h
    split at h
    · exact absurd h (by simp)
    · rename_i hnf
      have h' : (if Machine.f32.gt a Machine.f32.zero = true then some a else none) = some fs := h
      split at h'
      · rename_i hg
        obtain rfl := Option.some.inj h'
        exact ⟨hg, show F32.isFinite a = true by rw [notFinite_eq] at hnf; simpa using hnf⟩
      · exact absurd h' (by simp)
  capacity cfg fs cap hpos hfin hram h := by
    have hpos' : 0 < F32.val fs := by
      have := (F32.lt_iff.1 (show F32.lt Machine.f32.zero fs = true from hpos)).2.2
      rwa [F32.zero_facts.2] at this
    unfold capacity at h
    split at h
    · split at h
      · exact absurd h (by simp)
      · split at h
        · exact absurd h (by simp)
        · split at h
          · exact absurd h (by simp)
          · split at h
            · exact absurd h (by simp)
            · rename_i h1 h2 h3
              obtain rfl := Option.some.inj h
              refine ⟨by omega, by omega, F32.le_of_not_gt ?_ ?_ h3⟩
              · exact (F32.mul_finite (by decide) hfin).1
              · exact F32.isNaN_of_finite (F32.ofNat_exact (by omega)).1
    · exact absurd h (by simp)
  phaseZero := by constructor <;> decide
  phaseNext q e hq hpos hfin h0 h1 := by
    have hpos' : 0 < F32.val e.fs := by
      have := (F32.lt_iff.1 (show F32.lt Machine.f32.zero e.fs = true from hpos)).2.2
      rwa [F32.zero_facts.2] at this
    have h0' := F32.le_iff.1 (show F32.le Machine.f32.zero e.phase = true from h0)
    rw [F32.zero_facts.2] at h0'
    have key := F32.phase_facts hq hpos' hfin h0'.2.1 h0'.2.2
    have hn1 := F32.isNaN_of_finite F32.one_facts.1
    constructor
    · show F32.le _ _ = true
      exact F32.le_iff.2 ⟨by decide, key.1, by rw [F32.zero_facts.2]; exact key.2.1⟩
    · intro hfive
      have hp1 := (F32.le_iff.1 (show F32.le e.phase Machine.f32.one = true from h1 hfive)).2.2
      have hf := (F32.le_iff.1 (show F32.le (paramTable Machine.f32).chorusRate.max e.fs = true from hfive)).2.2
      rw [show F32.val (paramTable Machine.f32).chorusRate.max = 5 * 2 ^ 149 from by decide] at hf
      rw [F32.one_facts.2] at hp1
      show F32.le _ _ = true
      exact F32.le_iff.2 ⟨key.1, hn1, by rw [F32.one_facts.2]; exact key.2.2 hf hp1⟩
  lfo q ph hq := by
    obtain ⟨hf, h1, h2⟩ := F32.lfoAt_facts ph hq
    have hn := F32.isNaN_of_finite hf
    constructor
    · exact F32.le_iff.2 ⟨by decide, hn, by rw [F32.negOne_facts.2]; exact h1⟩
    · exact F32.le_iff.2 ⟨hn, by decide, by rw [F32.one_facts.2]; exact h2⟩
  time l h1 h2 := by
    obtain ⟨hf, hl1, hl2⟩ := F32.of_inRange F32.negOne_facts.1 F32.one_facts.1 ⟨h1, h2⟩
    rw [F32.negOne_facts.2] at hl1; rw [F32.one_facts.2] at hl2
    obtain ⟨htf, ht1, ht2⟩ := F32.delayTime_facts hf hl1 hl2
    have hn := F32.isNaN_of_finite htf
    exact ⟨F32.le_iff.2 ⟨by decide, hn, ht1⟩, F32.le_iff.2 ⟨hn, by decide, ht2⟩⟩
  position t e h1 h2 hcap hwh hpos hfin hroom := by
    obtain ⟨htf, ht1, ht2⟩ := F32.of_inRange (lo := Machine.f32.tLo) (hi := Machine.f32.tHi) (by decide) (by decide) ⟨h1, h2⟩
    have hpos' : 0 < F32.val e.fs := by
      have := (F32.lt_iff.1 (show F32.lt Machine.f32.zero e.fs = true from hpos)).2.2
      rwa [F32.zero_facts.2] at this
    exact F32.position_facts htf (le_trans (by decide) ht1) ht2 hcap hwh hfin hpos' (F32.le_iff.1 hroom).2.2

/-! Profile REAL. -/

theorem real_zero : Machine.real.zero = 0 := by show mkRat 0 1 = 0; rfl
theorem real_one : Machine.real.one = 1 := by decide +kernel
theorem real_negOne : Machine.real.negOne = -1 := by decide +kernel
theorem real_tLo : Machine.real.tLo = 1 / 200 := by decide +kernel
theorem real_tHi : Machine.real.tHi = 3 / 100 := by decide +kernel

/-- The parameter table of profile REAL (R12). -/
theorem real_table : paramTable Machine.real =
    ⟨⟨0, 49 / 50, 1 / 2⟩, ⟨0, 1, 0⟩, ⟨0, 1, 1 / 2⟩, ⟨0, 1, 1 / 2⟩, ⟨0, 5, 1 / 2⟩⟩ := by decide +kernel

@[simp] theorem real_add (a b : Rat) : Machine.real.add a b = a + b := rfl
@[simp] theorem real_sub (a b : Rat) : Machine.real.sub a b = a - b := rfl
@[simp] theorem real_mul (a b : Rat) : Machine.real.mul a b = a * b := rfl
@[simp] theorem real_div (a b : Rat) : Machine.real.div a b = a / b := rfl
@[simp] theorem real_lt (a b : Rat) : (Machine.real.lt a b = true) = (a < b) := decide_eq_true_eq
@[simp] theorem real_gt (a b : Rat) : (Machine.real.gt a b = true) = (b < a) := decide_eq_true_eq
@[simp] theorem real_le (a b : Rat) : (Machine.real.le a b = true) = (a ≤ b) := decide_eq_true_eq
@[simp] theorem real_ge (a b : Rat) : (Machine.real.ge a b = true) = (b ≤ a) := decide_eq_true_eq
@[simp] theorem real_ofNat (n : Nat) : Machine.real.ofNat n = (n : Rat) := rfl
theorem real_floorNat (a : Rat) (h : 0 ≤ a) : Machine.real.floorNat a = some a.floor.toNat := if_pos h

/-- "`-1 <= sin2pi(p) <= 1`" (R9). -/
theorem Exact.sin2pi_bounds (p : Rat) : -1 ≤ Exact.sin2pi p ∧ Exact.sin2pi p ≤ 1 := by
  have hhalf : mkRat 1 2 = 1 / 2 := by decide +kernel
  have hnhalf : mkRat (-1) 2 = -1 / 2 := by decide +kernel
  unfold Exact.sin2pi Exact.sineUnit
  rw [hhalf, hnhalf]
  repeat' split
  all_goals constructor <;> norm_num

/-- R91 in exact arithmetic: the position lies in `[0, CAP)` (R95). -/
theorem real_position {t : Rat} {e : Engine Rat} (hwh : e.wh < e.cap)
    (hroom : e.fs * t ≤ e.cap) (hdpos : 0 < e.fs * t) :
    0 ≤ readPosition Machine.real e t ∧ readPosition Machine.real e t < e.cap := by
  have hwh' : (e.wh : Rat) < e.cap := by exact_mod_cast hwh
  have hw0 : (0 : Rat) ≤ e.wh := by positivity
  unfold readPosition wrapPosition delaySamples
  simp only [real_lt, real_zero, real_sub, real_mul, real_add, real_ofNat]
  split
  · constructor <;> linarith
  · constructor <;> linarith

/-- Profile REAL gives what the address safety needs. -/
theorem real_safe : SafeNumerics Machine.real where
  dfltInRange k := by cases k <;> exact ⟨by decide +kernel, by decide +kernel⟩
  clampInRange w v k _ _ := by
    have hb : ((paramTable Machine.real).get k).min ≤ ((paramTable Machine.real).get k).max := by
      cases k <;> decide +kernel
    generalize (paramTable Machine.real).get k = r at hb ⊢
    unfold clamp inRange
    simp only [real_lt, real_gt, real_le]
    split <;> split <;> constructor <;> linarith
  rate a fs h := by
    unfold checkRate at h
    split at h
    · exact absurd h (by simp)
    · split at h
      · exact absurd h (by simp)
      · split at h
        · obtain rfl := Option.some.inj h
          exact ⟨by assumption, rfl⟩
        · exact absurd h (by simp)
  capacity cfg fs cap hpos hfin hram h := by
    unfold capacity at h
    split at h
    · split at h
      · exact absurd h (by simp)
      · split at h
        · exact absurd h (by simp)
        · split at h
          · exact absurd h (by simp)
          · split at h
            · exact absurd h (by simp)
            · rename_i h1 h2 h3
              obtain rfl := Option.some.inj h
              rw [real_gt, not_lt] at h3
              exact ⟨by omega, by omega, by rw [real_le]; exact h3⟩
    · exact absurd h (by simp)
  phaseZero := by rw [real_zero, real_one]; simp
  phaseNext q e hq hpos _ h0 h1 := by
    have hr := hq .chorusRate
    rw [real_table] at *
    simp only [inRange, real_le, real_ge, real_gt, real_zero, real_one, Params.get] at *
    have hi0 : 0 ≤ q.chorusRate / e.fs := div_nonneg hr.1 hpos.le
    unfold nextPhase wrapPhase
    simp only [real_gt, real_one, real_add, real_sub, real_div]
    constructor
    · split <;> linarith
    · intro hfive
      have hp := h1 hfive
      have hi1 : q.chorusRate / e.fs ≤ 1 := by rw [div_le_one hpos]; linarith [hr.2]
      split <;> linarith
  lfo q ph hq := by
    have hd := hq .chorusDepth
    rw [real_table] at hd
    simp only [inRange, real_le, Params.get] at hd
    obtain ⟨hs1, hs2⟩ := Exact.sin2pi_bounds ph
    simp only [real_le, real_negOne, real_one]
    show -1 ≤ Exact.sin2pi ph * q.chorusDepth ∧ Exact.sin2pi ph * q.chorusDepth ≤ 1
    constructor <;> nlinarith
  time l h1 h2 := by
    simp only [real_le, real_negOne, real_one, real_tLo, real_tHi] at *
    unfold delayTime
    simp only [real_add, real_div, real_mul, real_sub, real_negOne, real_one, real_tLo, real_tHi]
    constructor <;> linarith
  position t e h1 h2 _ hwh hpos _ hroom := by
    simp only [real_le, real_gt, real_zero, real_tLo, real_tHi, real_mul, real_ofNat] at *
    have hd : 0 < e.fs * t := by nlinarith
    have hb := real_position hwh (by nlinarith) hd
    refine ⟨_, real_floorNat _ hb.1, ?_⟩
    have : (readPosition Machine.real e t).floor < (e.cap : Int) := by
      rw [Rat.floor_lt_iff] ; exact_mod_cast hb.2
    omega

end Sys2Proof.Machine
end

