-- ==== Sys2Proof/Laws/Invariant.lean ====
section
/-! SUPPORT. What each operation does to the invariant of R24, and that a sample step completes in a configured session
(R95, R114, R142, R159). -/

namespace Sys2Proof.Machine

variable {S : Type} [DecidableEq S]

/-- A claim about engines holds in both profiles when it holds wherever `exec` and `step` act as they do and the
numerics are safe. -/
theorem bothProfiles_safe {P : (S : Type) → [DecidableEq S] → Numerics S → (Engine S → State) → Prop}
    (h : ∀ (S : Type) [DecidableEq S] (N : Numerics S) (inj : Engine S → State), ActsOn N inj → SafeNumerics N →
      P S N inj) : BothProfiles P :=
  ⟨h Word _ _ actsOn_f32 f32_safe, h Rat _ _ actsOn_real real_safe⟩

/-! Snapshots. -/

omit [DecidableEq S] in
/-- The values a snapshot takes are in range (R13, R131, R41). -/
theorem snapshot_inRange {N : Numerics S} {e : Engine S} (b : Bool) (hp : paramsInRange N e.p)
    (h1 : historyInRange N e.histPrev) (h2 : historyInRange N e.histCur) : paramsInRange N (snapshot b e) := by
  intro k
  unfold snapshot
  split
  · rw [Params.get_tabulate]
    have hm := staleRead_mem b e k
    generalize staleRead b e k = v at hm ⊢
    unfold staleValues at hm
    simp only [List.mem_append, List.mem_singleton] at hm
    rcases hm with (hm | hm) | hm
    · split at hm
      · exact h1 k v hm
      · simp at hm
    · exact h2 k v hm
    · rw [hm]; exact hp k
  · exact hp k

/-! The sample step. -/

omit [DecidableEq S] in
/-- Both read positions of a configured session have a floor of at most `CAP` (R95, R111). -/
theorem readPositions_safe {N : Numerics S} (H : SafeNumerics N) {q : Params S} {e : Engine S} (hq : paramsInRange N q)
    (hcap : e.cap ≤ 2 ^ 24) (hwh : e.wh < e.cap) (hfs : N.gt e.fs N.zero = true) (hfin : N.isFinite e.fs = true)
    (hroom : N.le (N.mul N.tHi e.fs) (N.ofNat e.cap) = true) :
    (∃ i, N.floorNat (readPositions N q e e).left = some i ∧ i ≤ e.cap) ∧
      (∃ i, N.floorNat (readPositions N q e e).right = some i ∧ i ≤ e.cap) := by
  have key : ∀ ph, ∃ i, N.floorNat (readPosition N e (delayTime N (lfoAt N q ph))) = some i ∧ i ≤ e.cap := by
    intro ph
    obtain ⟨l1, l2⟩ := H.lfo q ph hq
    obtain ⟨t1, t2⟩ := H.time _ l1 l2
    exact H.position _ e t1 t2 hcap hwh hfs hfin hroom
  exact ⟨key _, key _⟩

/-- "no sample step can raise anything" (R159): in a configured session a sample step completes. -/
theorem sampleStepWith_completes {N : Numerics S} (H : SafeNumerics N) {q : Params S} {e : Engine S} (x : Stereo S)
    (hq : paramsInRange N q) (he : EngineInv N e) (hr : e.ready = true) :
    ∃ e' o, sampleStepWith N q x e = .ok (e', o) := by
  have s := he.session hr
  have hcap : e.cap ≤ 2 ^ 24 := s.capHigh.trans he.config.2.2.1
  obtain ⟨hl, hr'⟩ := readPositions_safe H hq hcap s.head s.ratePositive s.rateFinite s.headroom
  obtain ⟨y, hy⟩ := interp_completes (N := N) (e := { e with dl := delayedRams N x e })
    (rp := readPositions N q e e) s.capLow hl hr'
  exact ⟨_, _, sampleStepWith_eq_ok.2 ⟨s.head, y, hy, rfl, rfl⟩⟩

theorem EngineInv.afterSnapshot {N : Numerics S} {e : Engine S} (he : EngineInv N e) : EngineInv N (afterSnapshot e) :=
  ⟨he.config, he.params, he.historyPrev, he.historyCur, he.block, he.idle, he.session, he.delayForm, he.delayWithin,
    he.samplesForm, he.samplesWithin⟩

theorem sampleStep_completes {N : Numerics S} (H : SafeNumerics N) {e : Engine S} (b : Bool) (x : Stereo S)
    (he : EngineInv N e) (hr : e.ready = true) : ∃ e' o, sampleStep N b x e = .ok (e', o) :=
  sampleStepWith_completes H x (snapshot_inRange b he.params he.historyPrev he.historyCur) he.afterSnapshot hr

/-- The two delay RAMs stay canonical and within their words (R30, R90). -/
theorem delayedRams_form {N : Numerics S} {x : Stereo S} {e : Engine S} (hf : Memory.wf N.zero e.dl = true)
    (hw : Memory.within 2 e.cap e.dl = true) (hwh : e.wh < e.cap) :
    Memory.wf N.zero (delayedRams N x e) = true ∧ Memory.within 2 e.cap (delayedRams N x e) = true :=
  ⟨Memory.wf_write _ _ (Memory.wf_write _ _ hf),
    Memory.within_write _ (Memory.within_write _ hw (by norm_num) hwh) (by norm_num) hwh⟩

/-- A sample step keeps the invariant (R24). -/
theorem EngineInv.afterStep {N : Numerics S} (H : SafeNumerics N) {q : Params S} {x y : Stereo S} {e : Engine S}
    (hq : paramsInRange N q) (he : EngineInv N e) (hr : e.ready = true) : EngineInv N (afterStep N q x y e) := by
  have s := he.session hr
  obtain ⟨hf, hw⟩ := delayedRams_form (x := x) he.delayForm he.delayWithin s.head
  obtain ⟨p1, p2⟩ := H.phaseNext q e hq s.ratePositive s.rateFinite s.phaseLow s.phaseHigh
  exact ⟨he.config, he.params, he.historyPrev, he.historyCur, he.block, he.idle,
    fun _ => ⟨s.capLow, s.capHigh, nextHead_lt s.capLow, s.ratePositive, s.rateFinite, s.headroom, p1, p2⟩,
    hf, hw, he.samplesForm, he.samplesWithin⟩

theorem EngineInv.sampleStep {N : Numerics S} (H : SafeNumerics N) {b : Bool} {x o : Stereo S} {e e' : Engine S}
    (he : EngineInv N e) (hr : e.ready = true) (h : sampleStep N b x e = .ok (e', o)) : EngineInv N e' := by
  obtain ⟨-, y, -, rfl, -⟩ := sampleStep_eq_ok.1 h
  exact he.afterSnapshot.afterStep H (snapshot_inRange b he.params he.historyPrev he.historyCur) hr

/-- What a sample step leaves alone (R130: "State written: ...; nothing else"). -/
theorem sampleStep_keeps {N : Numerics S} {b : Bool} {x o : Stereo S} {e e' : Engine S}
    (h : sampleStep N b x e = .ok (e', o)) :
    e' = { e with dl := e'.dl, phase := e'.phase, fb := e'.fb, wh := e'.wh, fresh := e'.fresh } ∧
      e'.wh = nextHead e.cap e.wh ∧ e.wh < e.cap ∧
      ∀ c i, i ≠ e.wh → Memory.read N.zero e'.dl (c, i) = Memory.read N.zero e.dl (c, i) := by
  obtain ⟨hwh, y, -, rfl, -⟩ := sampleStep_eq_ok.1 h
  refine ⟨rfl, rfl, hwh, fun c i hi => ?_⟩
  show Memory.read N.zero (delayedRams N x e) (c, i) = _
  unfold delayedRams
  rw [Memory.read_write_other _ _ _ (by simp [hi]), Memory.read_write_other _ _ _ (by simp [hi])]

/-! Registers and responses. -/

theorem EngineInv.respond {N : Numerics S} {e : Engine S} (he : EngineInv N e) (st : Status) (r0 r1 : Word) :
    EngineInv N (respond st r0 r1 e) :=
  ⟨he.config, he.params, he.historyPrev, he.historyCur, he.block, he.idle, he.session, he.delayForm, he.delayWithin,
    he.samplesForm, he.samplesWithin⟩

theorem EngineInv.withPort {N : Numerics S} {e : Engine S} (he : EngineInv N e) (rest : List (HostAct S)) :
    EngineInv N { e with port := rest } :=
  ⟨he.config, he.params, he.historyPrev, he.historyCur, he.block, he.idle, he.session, he.delayForm, he.delayWithin,
    he.samplesForm, he.samplesWithin⟩

theorem EngineInv.withGaps {N : Numerics S} {e : Engine S} (he : EngineInv N e) (gs : List Nat) :
    EngineInv N { e with gaps := gs } :=
  ⟨he.config, he.params, he.historyPrev, he.historyCur, he.block, he.idle, he.session, he.delayForm, he.delayWithin,
    he.samplesForm, he.samplesWithin⟩

theorem EngineInv.withFresh {N : Numerics S} {e : Engine S} (he : EngineInv N e) (k : Nat) :
    EngineInv N { e with fresh := k } :=
  ⟨he.config, he.params, he.historyPrev, he.historyCur, he.block, he.idle, he.session, he.delayForm, he.delayWithin,
    he.samplesForm, he.samplesWithin⟩

/-- The sample buffer changed, its form kept. -/
theorem EngineInv.withSamples {N : Numerics S} {e : Engine S} (he : EngineInv N e) {m : Memory S}
    (hf : Memory.wf N.zero m = true) (hw : Memory.within e.cfg.sbCh e.cfg.sbLen m = true) :
    EngineInv N { e with sb := m } :=
  ⟨he.config, he.params, he.historyPrev, he.historyCur, he.block, he.idle, he.session, he.delayForm, he.delayWithin,
    hf, hw⟩

theorem EngineInv.sbWrite {N : Numerics S} {e e' : Engine S} {ch idx : Nat} {v : S} (he : EngineInv N e)
    (h : sbWrite N e ch idx v = some e') : EngineInv N e' := by
  obtain ⟨hr, rfl⟩ := sbWrite_eq_some.1 h
  exact he.withSamples (Memory.wf_write _ _ he.samplesForm) (Memory.within_write _ he.samplesWithin hr.1 hr.2)

omit [DecidableEq S] in
theorem paramsInRange_set {N : Numerics S} {p : Params S} {k : Param} {v : S} (hp : paramsInRange N p)
    (hv : inRange N ((paramTable N).get k) v) : paramsInRange N (p.set k v) := by
  intro j
  by_cases h : j = k
  · subst h; rw [Params.get_set_same]; exact hv
  · rw [Params.get_set_other _ _ h]; exact hp j

omit [DecidableEq S] in
theorem historyInRange_remember {N : Numerics S} {h : Params (List S)} {k : Param} {v : S} (hh : historyInRange N h)
    (hv : inRange N ((paramTable N).get k) v) : historyInRange N (remember k v h) := by
  intro j u hu
  unfold remember at hu
  by_cases hj : j = k
  · subst hj
    rw [Params.get_set_same] at hu
    simp only [List.mem_append, List.mem_singleton] at hu
    rcases hu with hu | hu
    · exact hh j u hu
    · rw [hu]; exact hv
  · rw [Params.get_set_other _ _ hj] at hu; exact hh j u hu

omit [DecidableEq S] in
theorem historyInRange_empty (N : Numerics S) : historyInRange N (emptyHistory : Params (List S)) := by
  intro k v hv; simp at hv

/-- SETP keeps the invariant (R13). -/
theorem EngineInv.setParam {N : Numerics S} (H : SafeNumerics N) {e : Engine S} (he : EngineInv N e) (id : BitVec 3)
    (value : Word) : EngineInv N (setParam N id value e) := by
  obtain h | ⟨k, v, -, hn, hv, h⟩ := setParam_cases N id value e <;> rw [h]
  · exact he.respond _ _ _
  · have hc := H.clampInRange value v k hn hv
    have hcur : historyInRange N (setParamRegister k (clamp N ((paramTable N).get k) v) e).histCur := by
      unfold setParamRegister
      show historyInRange N (if e.cfg.paramStale then _ else _)
      split
      · exact historyInRange_remember he.historyCur (he.params k)
      · exact he.historyCur
    exact ⟨he.config, paramsInRange_set he.params hc, he.historyPrev, hcur, he.block, he.idle, he.session, he.delayForm,
      he.delayWithin, he.samplesForm, he.samplesWithin⟩

theorem EngineInv.getParam {N : Numerics S} {e : Engine S} (he : EngineInv N e) (id : BitVec 3) :
    EngineInv N (getParam N id e) := by
  obtain h | ⟨k, -, h⟩ := getParam_cases N id e <;> rw [h] <;> exact he.respond _ _ _

/-- CFG keeps the invariant: a session it opens has it (R24), and one it closes leaves none (R85). -/
theorem EngineInv.configure {N : Numerics S} (H : SafeNumerics N) {e : Engine S} (he : EngineInv N e) (a b : Word) :
    EngineInv N (configure N a b e) := by
  obtain ⟨-, h⟩ | ⟨fs, cap, hs, h⟩ := configure_cases N a b e <;> rw [h]
  · refine EngineInv.respond ?_ _ _ _
    exact ⟨he.config, he.params, he.historyPrev, he.historyCur, Nat.mod_lt _ (by norm_num), fun _ => rfl,
      fun hr => absurd hr (by simp [failSession]), rfl, rfl, he.samplesForm, he.samplesWithin⟩
  · rw [sessionOf_eq_some] at hs
    obtain ⟨hp, hf⟩ := H.rate a fs hs.1
    obtain ⟨c1, c2, c3⟩ := H.capacity e.cfg fs cap hp hf he.config.2.2.1 hs.2
    refine EngineInv.respond ?_ _ _ _
    exact ⟨he.config, he.params, he.historyPrev, he.historyCur, b.isLt, fun hr => absurd hr (by simp [openSession]),
      fun _ => ⟨c1, c2, c1, hp, hf, c3, H.phaseZero.1, fun _ => H.phaseZero.2⟩, rfl, rfl, he.samplesForm,
      he.samplesWithin⟩

/-- The reset event establishes everything the invariant asks of the core (R25, R170). -/
theorem EngineInv.powerOn {N : Numerics S} (H : SafeNumerics N) {e : Engine S} (hc : configOk N e.cfg)
    (hf : Memory.wf N.zero e.sb = true) (hw : Memory.within e.cfg.sbCh e.cfg.sbLen e.sb = true) :
    EngineInv N (powerOn N e) := by
  refine ⟨hc, fun k => ?_, historyInRange_empty N, historyInRange_empty N, Nat.mod_lt _ (by norm_num), fun _ => rfl,
    fun hr => absurd hr (by simp [Machine.powerOn]), rfl, rfl, hf, hw⟩
  show inRange N _ ((paramDefaults N).get k)
  unfold paramDefaults
  rw [Params.get_tabulate]
  exact H.dfltInRange k

/-- The construction of R25 meets the invariant. -/
theorem engineInv_reset {N : Numerics S} (H : SafeNumerics N) {cfg : Config S} (hc : configOk N cfg) :
    EngineInv N (Engine.reset N cfg) := by
  refine ⟨hc, fun k => ?_, historyInRange_empty N, historyInRange_empty N, by show 0 < 2 ^ 32; norm_num, fun _ => rfl,
    fun hr => absurd hr (by simp [Engine.reset]), rfl, rfl, rfl, rfl⟩
  show inRange N _ ((paramDefaults N).get k)
  unfold paramDefaults
  rw [Params.get_tabulate]
  exact H.dfltInRange k

/-! Blocks. -/

theorem EngineInv.startBlock {N : Numerics S} {e : Engine S} (he : EngineInv N e) : EngineInv N (startBlock e) := by
  have h1 : historyInRange N (Machine.startBlock e).histPrev := by
    unfold Machine.startBlock
    show historyInRange N (if e.cfg.paramStale then e.histCur else e.histPrev)
    split
    · exact he.historyCur
    · exact he.historyPrev
  have h2 : historyInRange N (Machine.startBlock e).histCur := by
    unfold Machine.startBlock
    show historyInRange N (if e.cfg.paramStale then emptyHistory else e.histCur)
    split
    · exact historyInRange_empty N
    · exact he.historyCur
  exact ⟨he.config, he.params, h1, h2, he.block, he.idle, he.session, he.delayForm, he.delayWithin, he.samplesForm,
    he.samplesWithin⟩

/-- The acts of the host in a gap keep the invariant (R24: "between any two sample steps of a PROC"). -/
theorem EngineInv.hostActs {N : Numerics S} (H : SafeNumerics N) (n nch k : Nat) {e : Engine S} (he : EngineInv N e) :
    (∀ e', hostActs N n nch k e = .go e' → EngineInv N e') ∧ (∀ e', hostActs N n nch k e = .abandoned e' → EngineInv N e') := by
  have h := hostActs_induction (N := N) (P := EngineInv N)
    (fun d id v w rest hd _ _ => (hd.withPort rest).setParam H id v)
    (fun d id w rest hd _ _ => (hd.withPort rest).getParam id)
    (fun d ch idx v u fresh rest hd _ hr => ((hd.withPort rest).withSamples
      (Memory.wf_write _ _ hd.samplesForm) (Memory.within_write _ hd.samplesWithin hr.1 hr.2)).withFresh fresh)
    n nch k e he
  constructor
  · intro e' h'; rw [h'] at h; exact h
  · intro e' h'; rw [h'] at h
    obtain ⟨d, hd, -, heq⟩ := h
    rw [heq]; exact hd.withPort _

theorem EngineInv.hostGap {N : Numerics S} (H : SafeNumerics N) (n nch : Nat) {e : Engine S} (he : EngineInv N e) :
    (∀ e', hostGap N n nch e = .go e' → EngineInv N e') ∧ (∀ e', hostGap N n nch e = .abandoned e' → EngineInv N e') :=
  (he.withGaps e.gaps.tail).hostActs H n nch _

theorem hostGap_ready {N : Numerics S} {n nch : Nat} {e : Engine S} :
    (∀ e', hostGap N n nch e = .go e' → e'.ready = e.ready ∧ e'.cfg = e.cfg) ∧
      (∀ e', hostGap N n nch e = .abandoned e' → e'.ready = e.ready ∧ e'.cfg = e.cfg) := by
  obtain ⟨h1, h2⟩ := hostActs_keeps N n nch (e.gaps.headD 0) { e with gaps := e.gaps.tail }
  exact ⟨fun e' h => ⟨(h1 e' h).ready, (h1 e' h).cfg⟩, fun e' h => ⟨(h2 e' h).ready, (h2 e' h).cfg⟩⟩

theorem EngineInv.afterBlockSample {N : Numerics S} {s : Nat} {o : Stereo S} {e : Engine S} (he : EngineInv N e)
    (hs : 1 < e.cfg.sbCh ∧ s < e.cfg.sbLen) : EngineInv N (afterBlockSample N s o e) :=
  he.withSamples (Memory.wf_write _ _ (Memory.wf_write _ _ he.samplesForm))
    (Memory.within_write _ (Memory.within_write _ he.samplesWithin (by show 0 < e.cfg.sbCh; omega) hs.2) hs.1 hs.2)

theorem EngineInv.blockSample {N : Numerics S} (H : SafeNumerics N) {s : Nat} {e e' : Engine S} (he : EngineInv N e)
    (hr : e.ready = true) (h : blockSample N s e = .ok e') : EngineInv N e' ∧ e'.ready = true ∧ e'.cfg = e.cfg := by
  obtain ⟨hb, e₁, o, hs, rfl⟩ := blockSample_eq_ok.1 h
  obtain ⟨hcfg, -⟩ := sampleStep_cfg hs
  have hk := (sampleStep_keeps hs).1
  exact ⟨(he.sampleStep H hr hs).afterBlockSample (by rw [hcfg]; exact hb), by
    show e₁.ready = true; rw [hk]; exact hr, hcfg⟩

/-- What a PROC's loop keeps, whether it ends or is abandoned. -/
theorem EngineInv.blockLoop {N : Numerics S} (H : SafeNumerics N) (n nch left : Nat) {s : Nat} {e : Engine S}
    (he : EngineInv N e) (hr : e.ready = true) :
    (∀ e', blockLoop N n nch left s e = .go e' → EngineInv N e' ∧ e'.ready = true ∧ e'.cfg = e.cfg) ∧
      (∀ e', blockLoop N n nch left s e = .abandoned e' → EngineInv N e' ∧ e'.cfg = e.cfg) := by
  induction left generalizing s e with
  | zero =>
    exact ⟨fun e' h => ⟨(he.hostGap H n nch).1 e' h, (hostGap_ready.1 e' h).1.trans hr, (hostGap_ready.1 e' h).2⟩,
      fun e' h => ⟨(he.hostGap H n nch).2 e' h, (hostGap_ready.2 e' h).2⟩⟩
  | succ left ih =>
    unfold Machine.blockLoop
    cases hg : Machine.hostGap N n nch e with
    | abandoned e₁ =>
      refine ⟨fun e' h => by simp at h, fun e' h => ?_⟩
      simp only [Flow.abandoned.injEq] at h
      subst h
      exact ⟨(he.hostGap H n nch).2 _ hg, (hostGap_ready.2 _ hg).2⟩
    | stop f => exact ⟨fun e' h => by simp at h, fun e' h => by simp at h⟩
    | go e₁ =>
      have h1 := (he.hostGap H n nch).1 _ hg
      obtain ⟨hr1, hc1⟩ := hostGap_ready.1 _ hg
      simp only
      cases hb : Machine.blockSample N s e₁ with
      | error f => exact ⟨fun e' h => by simp at h, fun e' h => by simp at h⟩
      | ok e₂ =>
        obtain ⟨h2, hr2, hc2⟩ := h1.blockSample H (hr1.trans hr) hb
        obtain ⟨ih1, ih2⟩ := ih (s := s + 1) h2 hr2
        exact ⟨fun e' h => ⟨(ih1 e' h).1, (ih1 e' h).2.1, (ih1 e' h).2.2.trans (hc2.trans hc1)⟩,
          fun e' h => ⟨(ih2 e' h).1, (ih2 e' h).2.trans (hc2.trans hc1)⟩⟩

theorem EngineInv.clearExtra {N : Numerics S} {n nch : Nat} {e : Engine S} (he : EngineInv N e)
    (h1 : nch ≤ e.cfg.sbCh) (h2 : n ≤ e.cfg.sbLen) : EngineInv N (clearExtra N n nch e) := by
  refine he.withSamples (Memory.wf_fillRows _ _ _ _ he.samplesForm) ?_
  by_cases h : nch ≤ 2
  · have : nch - 2 = 0 := by omega
    rw [this]; exact he.samplesWithin
  · exact Memory.within_fillRows _ _ _ _ he.samplesWithin (by omega) h2

theorem EngineInv.unspecifyElements {N : Numerics S} (as : List (Nat × Nat)) {e : Engine S} (he : EngineInv N e)
    (h : ∀ a ∈ as, a.1 < e.cfg.sbCh ∧ a.2 < e.cfg.sbLen) : EngineInv N (unspecifyElements N as e) := by
  induction as generalizing e with
  | nil => exact he
  | cons a rest ih =>
    unfold Machine.unspecifyElements
    obtain ⟨h1, h2⟩ := h a List.mem_cons_self
    exact ih ((he.withSamples (Memory.wf_write _ _ he.samplesForm)
      (Memory.within_write _ he.samplesWithin h1 h2)).withFresh _) fun b hb => h b (List.mem_cons_of_mem _ hb)

/-- The end of a PROC keeps the invariant. -/
theorem EngineInv.finishBlock {N : Numerics S} {n nch : Nat} (taken : List (HostAct S)) {e : Engine S}
    (he : EngineInv N e) (h1 : nch ≤ e.cfg.sbCh) (h2 : n ≤ e.cfg.sbLen) : EngineInv N (finishBlock N n nch taken e) :=
  (he.clearExtra h1 h2).unspecifyElements _ fun a ha =>
    have h := racedElements_within n nch taken a ha
    ⟨h.1.trans_le h1, h.2.trans_le h2⟩

theorem EngineInv.abandonBlock {N : Numerics S} (H : SafeNumerics N) {n nch : Nat} {rs : List Response} {e : Engine S}
    (he : EngineInv N e) (h1 : nch ≤ e.cfg.sbCh) (h2 : n ≤ e.cfg.sbLen) : EngineInv N (abandonBlock N n nch rs e) :=
  EngineInv.powerOn H he.config (Memory.wf_fillRows _ _ _ _ he.samplesForm)
    (Memory.within_fillRows _ _ _ _ he.samplesWithin (by show 0 + nch ≤ e.cfg.sbCh; omega) h2)

end Sys2Proof.Machine
end

