-- ==== Sys2Proof/Laws/Blocks.lean ====
section
/-! SUPPORT. What a PROC takes off the port and answers there, that it does not fault, and what it does when nothing falls
into its gaps (R133, R137, R142). -/

namespace Sys2Proof.Machine

variable {S : Type} [DecidableEq S]

/-- A response as R51 has it: results only with `OK`. -/
def Response.plain (r : Response) : Prop := r.status ≠ .ok → r.res0 = 0#32 ∧ r.res1 = 0#32

/-- What stands between two engines in the gaps of a PROC: acts taken from the front of the port, the commands among them
SETP and GETP, and their responses (R137, R51). -/
structure PortTakes {S : Type} (e d : Engine S) : Prop where
  taken : ∃ acts, e.port = acts ++ d.port ∧ ∀ w, .command w ∈ acts → e.cfg.ctrlInterleave = true ∧
    ((∃ id value, decode w = .ok (.setp id value)) ∨ ∃ id, decode w = .ok (.getp id))
  cfg : d.cfg = e.cfg
  balance : d.responses.length + commandsWaiting d.port = e.responses.length + commandsWaiting e.port
  news : ∃ new, d.responses = e.responses ++ new ∧ ∀ r ∈ new, r.plain

omit [DecidableEq S] in
theorem PortTakes.refl (e : Engine S) : PortTakes e e :=
  ⟨⟨[], rfl, fun _ h => absurd h (by simp)⟩, rfl, rfl, ⟨[], by simp, fun _ h => absurd h (by simp)⟩⟩

omit [DecidableEq S] in
theorem PortTakes.trans {a b c : Engine S} (h : PortTakes a b) (k : PortTakes b c) : PortTakes a c := by
  obtain ⟨t, ht, htw⟩ := h.taken
  obtain ⟨u, hu, huw⟩ := k.taken
  obtain ⟨m, hm, hmp⟩ := h.news
  obtain ⟨n, hn, hnp⟩ := k.news
  refine ⟨⟨t ++ u, by rw [ht, hu, List.append_assoc], fun w hw => ?_⟩, k.cfg.trans h.cfg, k.balance.trans h.balance,
    ⟨m ++ n, by rw [hn, hm, List.append_assoc], fun r hr => ?_⟩⟩
  · rcases List.mem_append.1 hw with hw | hw
    · exact htw w hw
    · rw [← h.cfg]; exact huw w hw
  · rcases List.mem_append.1 hr with hr | hr
    · exact hmp r hr
    · exact hnp r hr

omit [DecidableEq S] in
/-- An engine with the same port, responses and configuration takes nothing. -/
theorem PortTakes.of_same {e d : Engine S} (h1 : d.port = e.port) (h2 : d.responses = e.responses) (h3 : d.cfg = e.cfg) :
    PortTakes e d := by
  refine ⟨⟨[], by rw [h1]; rfl, fun _ h => absurd h (by simp)⟩, h3, by rw [h1, h2],
    ⟨[], by rw [h2]; simp, fun _ h => absurd h (by simp)⟩⟩

omit [DecidableEq S] in
/-- One response of an engine that is otherwise unchanged at the port. -/
theorem PortTakes.of_command {e d : Engine S} {w : CommandWord} {r : Response} (h1 : e.port = .command w :: d.port)
    (h2 : d.responses = e.responses ++ [r]) (h3 : d.cfg = e.cfg) (hr : r.plain) (hc : e.cfg.ctrlInterleave = true)
    (hd : (∃ id value, decode w = .ok (.setp id value)) ∨ ∃ id, decode w = .ok (.getp id)) : PortTakes e d := by
  refine ⟨⟨[.command w], h1, fun w' hw => ?_⟩, h3, ?_, ⟨[r], h2, fun r' h => ?_⟩⟩
  · simp only [List.mem_singleton, HostAct.command.injEq] at hw
    subst hw; exact ⟨hc, hd⟩
  · rw [h1, h2]; simp only [commandsWaiting, List.length_append, List.length_cons, List.length_nil]; omega
  · simp only [List.mem_singleton] at h; subst h; exact hr

omit [DecidableEq S] in
theorem plain_ok (r0 r1 : Word) : Response.plain ⟨.ok, r0, r1⟩ := fun h => absurd rfl h

omit [DecidableEq S] in
theorem plain_zero (st : Status) : Response.plain ⟨st, 0#32, 0#32⟩ := fun _ => ⟨rfl, rfl⟩

omit [DecidableEq S] in
/-- SETP answers once. -/
theorem setParam_answers (N : Numerics S) (id : BitVec 3) (v : Word) (e : Engine S) :
    ∃ r, r.plain ∧ (setParam N id v e).responses = e.responses ++ [r] ∧ (setParam N id v e).port = e.port := by
  obtain h | ⟨k, u, -, -, -, h⟩ := setParam_cases N id v e <;> rw [h]
  · exact ⟨_, plain_zero .errIllegal, rfl, rfl⟩
  · exact ⟨_, plain_zero .ok, rfl, rfl⟩

omit [DecidableEq S] in
/-- GETP answers once. -/
theorem getParam_answers (N : Numerics S) (id : BitVec 3) (e : Engine S) :
    ∃ r, r.plain ∧ (getParam N id e).responses = e.responses ++ [r] ∧ (getParam N id e).port = e.port := by
  obtain h | ⟨k, -, h⟩ := getParam_cases N id e <;> rw [h]
  · exact ⟨_, plain_zero .errIllegal, rfl, rfl⟩
  · exact ⟨_, plain_ok _ _, rfl, rfl⟩

/-- What the acts of a gap take. -/
theorem hostActs_takes (N : Numerics S) (n nch k : Nat) (e : Engine S) :
    (∀ e', hostActs N n nch k e = .go e' → PortTakes e e') ∧
      (∀ e', hostActs N n nch k e = .abandoned e' →
        ∃ d, PortTakes e d ∧ d.port = .reset :: e'.port ∧ e' = { d with port := e'.port }) ∧
      (∀ f, hostActs N n nch k e = .stop f → f = .hostStoreRange ∧ ∃ ch idx v rest d, PortTakes e d ∧
        d.port = .store ch idx v :: rest ∧ ¬(ch < d.cfg.sbCh ∧ idx < d.cfg.sbLen)) := by
  by_cases hc : e.cfg.ctrlInterleave = true
  · have h := hostActs_induction (N := N) (P := PortTakes e)
      (fun d id v w rest hd hp hw => by
        obtain ⟨r, hr, h2, h3⟩ := setParam_answers N id v { d with port := rest }
        refine hd.trans (PortTakes.of_command (w := w) (r := r) ?_ h2 (setParam_keeps N id v _).cfg hr (by rw [hd.cfg]; exact hc)
          (Or.inl ⟨id, v, hw⟩))
        rw [h3]; exact hp)
      (fun d id w rest hd hp hw => by
        obtain ⟨r, hr, h2, h3⟩ := getParam_answers N id { d with port := rest }
        refine hd.trans (PortTakes.of_command (w := w) (r := r) ?_ h2 (getParam_keeps N id _).cfg hr (by rw [hd.cfg]; exact hc)
          (Or.inr ⟨id, hw⟩))
        rw [h3]; exact hp)
      (fun d ch idx v u fresh rest hd hp _ => by
        refine hd.trans ⟨⟨[.store ch idx v], hp, fun w hw => by simp at hw⟩, rfl, ?_, ⟨[], by simp, fun _ h => absurd h (by simp)⟩⟩
        rw [hp]; rfl)
      n nch k e (PortTakes.refl e)
    refine ⟨fun e' h' => ?_, fun e' h' => ?_, fun f h' => ?_⟩ <;> rw [h'] at h <;> exact h
  · induction k generalizing e with
    | zero => exact ⟨fun e' h => (by cases h; exact PortTakes.refl e), fun e' h => (by cases h), fun f h => (by cases h)⟩
    | succ k ih =>
      unfold hostActs
      cases hp : e.port with
      | nil => exact ⟨fun e' h => (by cases h; exact PortTakes.refl e), fun e' h => (by cases h), fun f h => (by cases h)⟩
      | cons a rest =>
        cases a with
        | command w =>
          simp only [hc]
          exact ⟨fun e' h => (by cases h; exact PortTakes.refl e), fun e' h => (by cases h), fun f h => (by cases h)⟩
        | reset =>
          exact ⟨fun e' h => (by cases h), fun e' h => (by cases h; exact ⟨e, PortTakes.refl e, hp, rfl⟩), fun f h => (by cases h)⟩
        | store ch idx v =>
          simp only
          obtain ⟨hw, hr⟩ | ⟨u, fresh, hw, -⟩ := gapStore_cases N n nch ch idx v { e with port := rest } <;> rw [hw]
          · refine ⟨fun e' h => (by cases h), fun e' h => (by cases h), fun f h => ?_⟩
            cases h
            exact ⟨rfl, ch, idx, v, rest, e, PortTakes.refl e, hp, hr⟩
          · have t : PortTakes e { e with port := rest, sb := Memory.write N.zero e.sb (ch, idx) u, fresh := fresh } := by
              refine ⟨⟨[.store ch idx v], hp, fun w hw => by simp at hw⟩, rfl, ?_,
                ⟨[], by simp, fun _ h => absurd h (by simp)⟩⟩
              rw [hp]; rfl
            obtain ⟨i1, i2, i3⟩ :=
              ih { e with port := rest, sb := Memory.write N.zero e.sb (ch, idx) u, fresh := fresh } hc
            refine ⟨fun e' h => t.trans (i1 e' h), fun e' h => ?_, fun f h => ?_⟩
            · obtain ⟨d, hd, h2, h3⟩ := i2 e' h
              exact ⟨d, t.trans hd, h2, h3⟩
            · obtain ⟨h0, ch', idx', v', rest', d, hd, h2, h3⟩ := i3 f h
              exact ⟨h0, ch', idx', v', rest', d, t.trans hd, h2, h3⟩

/-- A gap takes what its acts take. -/
theorem hostGap_takes (N : Numerics S) (n nch : Nat) (e : Engine S) :
    (∀ e', hostGap N n nch e = .go e' → PortTakes e e') ∧
      (∀ e', hostGap N n nch e = .abandoned e' →
        ∃ d, PortTakes e d ∧ d.port = .reset :: e'.port ∧ e' = { d with port := e'.port }) ∧
      (∀ f, hostGap N n nch e = .stop f → f = .hostStoreRange ∧ ∃ ch idx v rest d, PortTakes e d ∧
        d.port = .store ch idx v :: rest ∧ ¬(ch < d.cfg.sbCh ∧ idx < d.cfg.sbLen)) := by
  have t : PortTakes e { e with gaps := e.gaps.tail } := PortTakes.of_same rfl rfl rfl
  obtain ⟨h1, h2, h3⟩ := hostActs_takes N n nch (e.gaps.headD 0) { e with gaps := e.gaps.tail }
  refine ⟨fun e' h => t.trans (h1 e' h), fun e' h => ?_, fun f h => ?_⟩
  · obtain ⟨d, hd, k⟩ := h2 e' h
    exact ⟨d, t.trans hd, k⟩
  · obtain ⟨h0, ch, idx, v, rest, d, hd, k⟩ := h3 f h
    exact ⟨h0, ch, idx, v, rest, d, t.trans hd, k⟩

theorem blockSample_takes {N : Numerics S} {s : Nat} {e e' : Engine S} (h : blockSample N s e = .ok e') :
    PortTakes e e' := by
  obtain ⟨-, e₁, o, hs, rfl⟩ := blockSample_eq_ok.1 h
  have hk := (sampleStep_keeps hs).1
  refine PortTakes.of_same ?_ ?_ ?_
  · show e₁.port = _; rw [hk]
  · show e₁.responses = _; rw [hk]
  · show e₁.cfg = _; rw [hk]

/-- What a PROC's loop takes off the port. -/
theorem blockLoop_takes (N : Numerics S) (n nch left s : Nat) (e : Engine S) :
    (∀ e', blockLoop N n nch left s e = .go e' → PortTakes e e') ∧
      (∀ e', blockLoop N n nch left s e = .abandoned e' →
        ∃ d, PortTakes e d ∧ d.port = .reset :: e'.port ∧ e' = { d with port := e'.port }) := by
  induction left generalizing s e with
  | zero => exact ⟨(hostGap_takes N n nch e).1, (hostGap_takes N n nch e).2.1⟩
  | succ left ih =>
    unfold blockLoop
    cases hg : hostGap N n nch e with
    | abandoned e₁ =>
      refine ⟨fun e' h => (by cases h), fun e' h => ?_⟩
      simp only [Flow.abandoned.injEq] at h
      subst h
      exact (hostGap_takes N n nch e).2.1 _ hg
    | stop f => exact ⟨fun e' h => (by cases h), fun e' h => (by cases h)⟩
    | go e₁ =>
      have t1 := (hostGap_takes N n nch e).1 _ hg
      simp only
      cases hb : blockSample N s e₁ with
      | error f => exact ⟨fun e' h => (by cases h), fun e' h => (by cases h)⟩
      | ok e₂ =>
        have t2 := t1.trans (blockSample_takes hb)
        obtain ⟨i1, i2⟩ := ih (s + 1) e₂
        refine ⟨fun e' h => t2.trans (i1 e' h), fun e' h => ?_⟩
        obtain ⟨d, hd, k⟩ := i2 e' h
        exact ⟨d, t2.trans hd, k⟩

omit [DecidableEq S] in
/-- The host's coming stores stay in the buffer. -/
theorem PortTakes.keepsTo {e d : Engine S} (h : PortTakes e d) (hp : portKeepsTo e) : portKeepsTo d := by
  obtain ⟨t, ht, -⟩ := h.taken
  intro a ha
  rw [h.cfg]
  exact hp a (by rw [ht]; exact List.mem_append_right _ ha)

/-- A gap does not stop the machine while the host's stores stay in the buffer. -/
theorem hostGap_no_stop {N : Numerics S} {n nch : Nat} {e : Engine S} (hp : portKeepsTo e) (f : Fault) : hostGap N n nch e ≠ .stop f := by
  intro h
  obtain ⟨-, ch, idx, v, rest, d, hd, hport, hr⟩ := (hostGap_takes N n nch e).2.2 f h
  have hk : HostAct.keepsTo d.cfg (.store ch idx v) := hd.keepsTo hp _ (by rw [hport]; exact List.mem_cons_self)
  exact hr hk

/-- "no sample step can raise anything" (R159), and no access of a PROC is out of range (R142). -/
theorem blockLoop_no_stop {N : Numerics S} (H : SafeNumerics N) (n nch left : Nat) {s : Nat} {e : Engine S}
    (he : EngineInv N e) (hr : e.ready = true) (hp : portKeepsTo e) (hn : s + left ≤ e.cfg.sbLen) (f : Fault) :
    blockLoop N n nch left s e ≠ .stop f := by
  induction left generalizing s e with
  | zero => exact hostGap_no_stop hp f
  | succ left ih =>
    unfold blockLoop
    cases hg : hostGap N n nch e with
    | abandoned e₁ => simp
    | stop f' => exact absurd hg (hostGap_no_stop hp f')
    | go e₁ =>
      have h1 := (he.hostGap H n nch).1 _ hg
      obtain ⟨hr1, hc1⟩ := hostGap_ready.1 _ hg
      obtain ⟨e', o, hs⟩ := sampleStep_completes H true
        ⟨Memory.read N.zero e₁.sb (0, s), Memory.read N.zero e₁.sb (1, s)⟩ h1 (hr1.trans hr)
      have hch : 2 ≤ e₁.cfg.sbCh := h1.config.2.2.2.1
      have hb := blockSample_eq_ok.2 ⟨⟨by omega, by rw [hc1]; omega⟩, e', o, hs, rfl⟩
      obtain ⟨h2, hr2, hc2⟩ := h1.blockSample H (hr1.trans hr) hb
      simp only [hb]
      exact ih h2 hr2 (((hostGap_takes N n nch e).1 _ hg).trans (blockSample_takes hb) |>.keepsTo hp)
        (by rw [hc2, hc1]; omega)

/-! The commands. -/

/-- What PROC does: it is refused by one of its checks (R155), or it runs its block. -/
theorem processBlock_cases (N : Numerics S) (n nch : Word) (e : Engine S) :
    processBlock N n nch e = .next (raiseIllegal e) ∨ processBlock N n nch e = .next (raiseConfig e) ∨
      (2 ≤ nch.toNat ∧ nch.toNat ≤ e.cfg.sbCh ∧ n.toNat ≤ e.cfg.sbLen ∧ e.ready = true ∧
        processBlock N n nch e = runBlock N n.toNat nch.toNat e) := by
  unfold processBlock naturalOperand
  split
  · exact Or.inl rfl
  split
  · exact Or.inl rfl
  split
  · exact Or.inr (Or.inr ⟨by omega, by omega, by omega, ‹_›, rfl⟩)
  · exact Or.inr (Or.inl rfl)

/-- A PROC whose checks pass runs its block. -/
theorem processBlock_runs {N : Numerics S} {n nch : Word} {e : Engine S} (h1 : 2 ≤ nch.toNat) (h2 : nch.toNat ≤ e.cfg.sbCh)
    (h3 : n.toNat ≤ e.cfg.sbLen) (hr : e.ready = true) :
    processBlock N n nch e = runBlock N n.toNat nch.toNat e := by
  unfold processBlock naturalOperand
  rw [if_neg (by omega), if_neg (by omega), if_pos hr]

/-- An SMP whose sample step completes answers its outputs. -/
theorem processSample_runs {N : Numerics S} {a b : Word} {l r : S} {o : Stereo S} {e e' : Engine S}
    (ha : N.dec32 a = some l) (hb : N.dec32 b = some r) (hr : e.ready = true)
    (hs : sampleStep N false ⟨l, r⟩ e = .ok (e', o)) :
    processSample N a b e = .next (respondOk (N.enc32 o.left) (N.enc32 o.right) e') := by
  unfold processSample
  rw [ha, hb]
  simp only [hr, hs, if_true]

/-- One SMP more. -/
theorem samplesThrough_succ {N : Numerics S} {x y : Nat → Stereo S} {k : Nat} {e d : Engine S} :
    samplesThrough N x (k + 1) e = some (d, y) ↔
      ∃ e₁ y₁ o, samplesThrough N x k e = some (e₁, y₁) ∧ sampleStep N false (x k) e₁ = .ok (d, o) ∧
        y = fun s => if s = k then o else y₁ s := by
  rw [samplesThrough]
  cases samplesThrough N x k e with
  | none => simp
  | some p =>
    obtain ⟨e₁, y₁⟩ := p
    simp only
    cases hs : sampleStep N false (x k) e₁ with
    | error f => simp [hs]
    | ok q =>
      obtain ⟨a, b⟩ := q
      simp only [Option.some.injEq, Prod.mk.injEq]
      constructor
      · rintro ⟨rfl, rfl⟩; exact ⟨e₁, y₁, b, ⟨rfl, rfl⟩, hs, rfl⟩
      · rintro ⟨e₂, y₂, o, ⟨rfl, rfl⟩, h, rfl⟩
        rw [hs] at h
        simp only [Except.ok.injEq, Prod.mk.injEq] at h
        exact ⟨h.1, by rw [h.2]⟩

/-! Blocks with nothing in their gaps. -/

omit [DecidableEq S] in
theorem quietGaps_tail {e : Engine S} (h : quietGaps e) : quietGaps { e with gaps := e.gaps.tail } :=
  fun g hg => h g (List.mem_of_mem_tail hg)

/-- One iteration of a quiet block. -/
theorem blockLoop_quiet_succ {N : Numerics S} {n nch left s : Nat} {e : Engine S} (h : quietGaps e) :
    blockLoop N n nch (left + 1) s e =
      match blockSample N s { e with gaps := e.gaps.tail } with
      | .error f => .stop f
      | .ok e' => blockLoop N n nch left (s + 1) e' := by
  cases hb : blockSample N s { e with gaps := e.gaps.tail } <;> simp only [blockLoop, hostGap_quiet N n nch h, hb]

theorem blockLoop_quiet_zero {N : Numerics S} {n nch s : Nat} {e : Engine S} (h : quietGaps e) :
    blockLoop N n nch 0 s e = .go { e with gaps := e.gaps.tail } := hostGap_quiet N n nch h

/-- An iteration leaves the gaps of the coming PROCs as they are. -/
theorem blockSample_gaps {N : Numerics S} {s : Nat} {e e' : Engine S} (h : blockSample N s e = .ok e') :
    e'.gaps = e.gaps := by
  obtain ⟨-, e₁, o, hs, rfl⟩ := blockSample_eq_ok.1 h
  show e₁.gaps = _; rw [(sampleStep_keeps hs).1]

/-- A quiet block passes over one gap before each iteration and one after the last, and takes nothing off the port;
which elements it covers makes no difference to its iterations. -/
theorem blockLoop_quiet {N : Numerics S} {n nch left s : Nat} {e : Engine S} (h : quietGaps e) :
    (∀ n' nch', blockLoop N n' nch' left s e = blockLoop N n nch left s e) ∧
      (∀ e', blockLoop N n nch left s e ≠ .abandoned e') ∧
      (∀ e', blockLoop N n nch left s e = .go e' → e'.port = e.port ∧ e'.gaps = e.gaps.drop (left + 1) ∧
        (Memory.wf N.zero e.sb = true → Memory.wf N.zero e'.sb = true)) := by
  induction left generalizing s e with
  | zero =>
    refine ⟨fun n' nch' => by rw [blockLoop_quiet_zero h, blockLoop_quiet_zero h], fun e' k => ?_, fun e' k => ?_⟩
    · rw [blockLoop_quiet_zero h] at k; cases k
    · rw [blockLoop_quiet_zero h] at k; cases k
      exact ⟨rfl, by simp, fun hw => hw⟩
  | succ left ih =>
    have hg := quietGaps_tail h
    cases hb : blockSample N s { e with gaps := e.gaps.tail } with
    | error f =>
      refine ⟨fun n' nch' => ?_, fun e' k => ?_, fun e' k => ?_⟩
      · simp only [blockLoop_quiet_succ h, hb]
      · rw [blockLoop_quiet_succ h, hb] at k; cases k
      · rw [blockLoop_quiet_succ h, hb] at k; cases k
    | ok e₂ =>
      have hgaps := blockSample_gaps hb
      have hq : quietGaps e₂ := fun g hm => hg g (hgaps ▸ hm)
      obtain ⟨i1, i2, i3⟩ := ih (s := s + 1) hq
      refine ⟨fun n' nch' => ?_, fun e' k => ?_, fun e' k => ?_⟩
      · simp only [blockLoop_quiet_succ h, hb]; exact i1 n' nch'
      · simp only [blockLoop_quiet_succ h, hb] at k; exact i2 e' k
      · simp only [blockLoop_quiet_succ h, hb] at k
        obtain ⟨k1, k2, k3⟩ := i3 e' k
        obtain ⟨-, e₁, o, hs, rfl⟩ := blockSample_eq_ok.1 hb
        have hk := (sampleStep_keeps hs).1
        refine ⟨k1.trans ?_, ?_, fun hw => k3 (Memory.wf_write _ _ (Memory.wf_write _ _ ?_))⟩
        · show e₁.port = _; rw [hk]
        · rw [k2, hgaps]; simp
        · have : e₁.sb = e.sb := by rw [hk]
          rw [this]; exact hw

/-- A block that takes nothing off the port ends with its extra channels cleared. -/
theorem runBlock_untaken {N : Numerics S} {n nch : Nat} {e e' : Engine S}
    (h : blockLoop N n nch n 0 (respondOk 0#32 0#32 (startBlock e)) = .go e') (hp : e'.port = e.port) :
    runBlock N n nch e = .next (clearExtra N n nch e') := by
  unfold runBlock
  rw [h]
  simp only [hp, Nat.sub_self, List.take_zero]
  rw [finishBlock_quiet]

end Sys2Proof.Machine
end

