-- ==== Sys2Proof/Laws/Decode.lean ====
section
/-! SUPPORT. The fields of a command word put together from its fields (R50). -/

namespace Sys2Proof

@[simp] theorem opField_commandWord (op : BitVec 8) (a b : Word) : opField (commandWord op a b) = op := by
  unfold opField commandWord
  apply BitVec.eq_of_getLsbD_eq
  intro i hi
  simp only [BitVec.getLsbD_extractLsb', BitVec.getLsbD_append]
  have h1 : ¬ 64 + i < 32 := by omega
  have h2 : ¬ 64 + i - 32 < 32 := by omega
  have h3 : 64 + i - 32 - 32 = i := by omega
  simp [hi, h1, h2, h3]

@[simp] theorem aField_commandWord (op : BitVec 8) (a b : Word) : aField (commandWord op a b) = a := by
  unfold aField commandWord
  apply BitVec.eq_of_getLsbD_eq
  intro i hi
  simp only [BitVec.getLsbD_extractLsb', BitVec.getLsbD_append]
  have h1 : ¬ 32 + i < 32 := by omega
  have h2 : 32 + i - 32 = i := by omega
  simp [hi, h1, h2]

@[simp] theorem bField_commandWord (op : BitVec 8) (a b : Word) : bField (commandWord op a b) = b := by
  unfold bField commandWord
  apply BitVec.eq_of_getLsbD_eq
  intro i hi
  simp only [BitVec.getLsbD_extractLsb', BitVec.getLsbD_append]
  simp [hi]

@[simp] theorem idField_idOperand (id : BitVec 3) : idField (idOperand id) = id := by
  revert id; decide

@[simp] theorem reservedField_idOperand (id : BitVec 3) : reservedField (idOperand id) = 0#29 := by
  revert id; decide

/-- The reserved bits and the id of a command word of format P, by their places in the word (R50). -/
theorem formatP_fields (w : CommandWord) :
    w.extractLsb' 35 29 = reservedField (aField w) ∧ w.extractLsb' 32 3 = idField (aField w) := by
  constructor
  · unfold reservedField aField
    apply BitVec.eq_of_getLsbD_eq
    intro i hi
    simp only [BitVec.getLsbD_extractLsb']
    have h : 3 + i < 32 := by omega
    have h' : 32 + (3 + i) = 35 + i := by omega
    simp [h, h', hi]
  · unfold idField aField
    apply BitVec.eq_of_getLsbD_eq
    intro i hi
    simp only [BitVec.getLsbD_extractLsb']
    have h : i < 32 := by omega
    simp [h, hi]

/-- A mask acts field by field. -/
theorem commandWord_and (op m : BitVec 8) (a b ma mb : Word) :
    commandWord op a b &&& commandWord m ma mb = commandWord (op &&& m) (a &&& ma) (b &&& mb) := by
  unfold commandWord
  apply BitVec.eq_of_getLsbD_eq
  intro i hi
  simp only [BitVec.getLsbD_and, BitVec.getLsbD_append]
  split <;> [rfl; split <;> rfl]

/-- A word is its three fields (R50). -/
theorem commandWord_fields (w : CommandWord) : commandWord (opField w) (aField w) (bField w) = w := by
  unfold commandWord opField aField bField
  apply BitVec.eq_of_getLsbD_eq
  intro i hi
  simp only [BitVec.getLsbD_append, BitVec.getLsbD_extractLsb']
  by_cases h1 : i < 32
  · simp [h1]
  · by_cases h2 : i - 32 < 32
    · have : 32 + (i - 32) = i := by omega
      simp [h1, h2, this]
    · have : 64 + (i - 32 - 32) = i := by omega
      have h3 : i - 32 - 32 < 8 := by omega
      simp [h1, h2, h3, this]

/-- The operand `A` of format P is its reserved bits and its id (R50). -/
theorem idOperand_of_reserved {a : Word} (h : reservedField a = 0#29) : idOperand (idField a) = a := by
  unfold idOperand
  rw [← h]
  unfold reservedField idField
  apply BitVec.eq_of_getLsbD_eq
  intro i hi
  simp only [BitVec.getLsbD_append, BitVec.getLsbD_extractLsb']
  by_cases h1 : i < 3
  · simp [h1]
  · have h2 : i - 3 < 29 := by omega
    have h3 : 3 + (i - 3) = i := by omega
    simp [h1, h2, h3]

/-- Masking the reserved bits of an id operand leaves nothing. -/
theorem idOperand_and (id : BitVec 3) : idOperand id &&& 0xFFFFFFF8#32 = 0#32 := by revert id; decide

end Sys2Proof
end

