-- ==== Sys2Proof/Laws/PerInstr.lean ====
section
/-! SUPPORT. Per command: its word selects its row of R52's table, and decodes to a command of the same row. -/

namespace Sys2Proof.Laws.TableMatch

/-- "A word `CW` selects the row when `CW AND mask = match`" (R52), for the word of a well-formed command. -/
def Statement (i : Instr) : Prop := i.wf = true → i.row.selects (encode i) = true

theorem cfg (rate block : Word) : Statement (.cfg rate block) := by
  intro _
  have h : (0xFF0000000000000000#72) = commandWord 0xFF#8 0#32 0#32 := by decide
  simp only [Instr.row, OpcodeRow.selects, rowCfg, encode, h, commandWord_and, decide_eq_true_eq, BitVec.and_zero]
  decide

theorem setp (id : BitVec 3) (value : Word) : Statement (.setp id value) := by
  intro _
  have h : (0xFFFFFFFFF800000000#72) = commandWord 0xFF#8 0xFFFFFFF8#32 0#32 := by decide
  simp only [Instr.row, OpcodeRow.selects, rowSetp, encode, h, commandWord_and, decide_eq_true_eq, BitVec.and_zero,
    idOperand_and]
  decide

theorem getp (id : BitVec 3) : Statement (.getp id) := by
  intro _
  have h : (0xFFFFFFFFF8FFFFFFFF#72) = commandWord 0xFF#8 0xFFFFFFF8#32 0xFFFFFFFF#32 := by decide
  simp only [Instr.row, OpcodeRow.selects, rowGetp, encode, h, commandWord_and, decide_eq_true_eq, idOperand_and]
  decide

theorem smp (left right : Word) : Statement (.smp left right) := by
  intro _
  have h : (0xFF0000000000000000#72) = commandWord 0xFF#8 0#32 0#32 := by decide
  simp only [Instr.row, OpcodeRow.selects, rowSmp, encode, h, commandWord_and, decide_eq_true_eq, BitVec.and_zero]
  decide

theorem proc (n nch : Word) : Statement (.proc n nch) := by
  intro _
  have h : (0xFF0000000000000000#72) = commandWord 0xFF#8 0#32 0#32 := by decide
  simp only [Instr.row, OpcodeRow.selects, rowProc, encode, h, commandWord_and, decide_eq_true_eq, BitVec.and_zero]
  decide

end Sys2Proof.Laws.TableMatch
end

