-- ==== Sys2Proof/Tests/Slice0.lean ====
section
/-! SUPPORT. Tests: well-formedness, words written out from the spec's encodings, the spec's own vectors
(`95_test_vectors.md`) one step at a time, and for each statement a witness that meets its hypotheses. -/

namespace Sys2Proof.Tests

open Sys2Proof Sys2Proof.Machine

set_option Elab.async false

/-! Well-formedness: ids 5, 6 and 7 name no parameter (R54). -/

theorem wf_refuses_setp_5 : (Instr.setp 5#3 0x3F000000#32).wf = false := by decide
theorem wf_refuses_setp_7 : (Instr.setp 7#3 0#32).wf = false := by decide
theorem wf_refuses_getp_5 : (Instr.getp 5#3).wf = false := by decide
theorem wf_refuses_getp_6 : (Instr.getp 6#3).wf = false := by decide
theorem wf_admits_the_rest : (Instr.cfg 0x7FC00000#32 0#32).wf = true ∧ (Instr.setp 4#3 0#32).wf = true ∧
    (Instr.getp 0#3).wf = true ∧ (Instr.smp 0#32 0#32).wf = true ∧ (Instr.proc 8#32 1#32).wf = true := by decide

/-! Words of the spec, vectors E1 to E14 (R50, R52, R56). -/

theorem decode_E1_cfg : decode 0x01472C440000000200#72 = .ok (.cfg 0x472C4400#32 512#32) := by decide
theorem decode_E2_setp : decode 0x02000000023F000000#72 = .ok (.setp 2#3 0x3F000000#32) := by decide
theorem decode_E3_getp : decode 0x030000000400000000#72 = .ok (.getp 4#3) := by decide
theorem decode_E4_smp : decode 0x043F8000003F800000#72 = .ok (.smp 0x3F800000#32 0x3F800000#32) := by decide
theorem decode_E5_proc : decode 0x050000000300000002#72 = .ok (.proc 3#32 2#32) := by decide
theorem decode_E6_opcode_00 : decode 0#72 = .error .reservedOpcode := by decide
theorem decode_E8_opcode_FF : decode 0xFF0000000000000000#72 = .error .reservedOpcode := by decide
theorem decode_E10_setp_field : decode 0x02000000083F000000#72 = .error .reservedField := by decide
theorem decode_E12_getp_id_7 : decode 0x030000000700000000#72 = .error .noSuchParameter := by decide
theorem decode_E14_proc_one_channel : decode 0x050000000800000001#72 = .ok (.proc 8#32 1#32) := by decide
theorem decode_table_row : decodeTableWord 72 0x050000000300000002 = some (.proc 3#32 2#32) := by decide

/-! Small engines. -/

/-- `T_MAX = 1/16`, `RAM_WORDS = 64`, four channels of eight samples. -/
def cfgW : Config Word := ⟨0x3D800000#32, 64, 4, 8, false, true⟩
/-- The same under profile REAL. -/
def cfgR : Config Rat := ⟨1 / 16, 64, 4, 8, false, true⟩
/-- `T_MAX = 2`, `RAM_WORDS = 2^24`. -/
def cfgLarge : Config Word := ⟨0x40000000#32, 16777216, 4, 8, false, true⟩
/-- The same under profile REAL. -/
def cfgLargeR : Config Rat := ⟨2, 16777216, 4, 8, false, true⟩

/-- Power-on. -/
def onW : Engine Word := Engine.reset Machine.f32 cfgW
/-- Power-on, profile REAL. -/
def onR : Engine Rat := Engine.reset Machine.real cfgR

/-- After `CFG 1000, 64` (K3): `CAP = 62`. -/
def sessW : Engine Word := configure Machine.f32 0x447A0000#32 64#32 onW
/-- The same under profile REAL. -/
def sessR : Engine Rat := configure Machine.real 0x447A0000#32 64#32 onR

/-- The session with the LFO standing still (CHORUSRATE 0). -/
def stillW : Engine Word := setParam Machine.f32 4#3 0#32 sessW
/-- The same under profile REAL. -/
def stillR : Engine Rat := setParam Machine.real 4#3 0#32 sessR

theorem configOk_W : configOk Machine.f32 cfgW :=
  ⟨by decide +kernel, by decide, by decide, by decide, by decide, by decide⟩
theorem configOk_R : configOk Machine.real cfgR :=
  ⟨by decide +kernel, by decide, by decide, by decide, by decide, by decide⟩

theorem inv_onW : EngineInv Machine.f32 onW := engineInv_reset f32_safe configOk_W
theorem inv_onR : EngineInv Machine.real onR := engineInv_reset real_safe configOk_R
theorem inv_sessW : EngineInv Machine.f32 sessW := inv_onW.configure f32_safe _ _
theorem inv_sessR : EngineInv Machine.real sessR := inv_onR.configure real_safe _ _
theorem inv_stillW : EngineInv Machine.f32 stillW := inv_sessW.setParam f32_safe _ _
theorem inv_stillR : EngineInv Machine.real stillR := inv_sessR.setParam real_safe _ _

/-- The engine a step leaves, where it leaves one in profile F32. -/
def nextW : Host.Outcome State Fault Refusal → Option (Engine Word)
  | .next ⟨.f32 e⟩ => some e
  | _ => none

/-- The same for profile REAL. -/
def nextR : Host.Outcome State Fault Refusal → Option (Engine Rat)
  | .next ⟨.real e⟩ => some e
  | _ => none

/-- The last response word. -/
def lastWord {S : Type} (e : Engine S) : Option ResponseWord := e.responses.getLast?.map Response.word

/-! The spec's vectors, one step each. -/

/-- K3: `CFG 1000, 64` with `T_MAX = 1/16`: the product 62.5 gives `CAP = 62`. -/
theorem test_cfg_K3 : ((nextW (exec (.cfg 0x447A0000#32 64#32) (State.f32 onW))).map fun e =>
    (e.ready, e.cap, e.bs, e.fs, lastWord e)) = some (true, 62, 64, 0x447A0000#32, some 0#72) := by decide +kernel

/-- K10: `CFG 60, 1` with `T_MAX = 1/32` has no headroom. -/
theorem test_cfg_K10 : ((nextW (exec (.cfg 0x42700000#32 1#32)
    (State.f32 (Engine.reset Machine.f32 ⟨0x3D000000#32, 64, 4, 8, false, true⟩)))).map fun e =>
      (e.ready, e.cap, lastWord e)) = some (false, 0, some 0x010000000000000000#72) := by decide +kernel

/-- P4: `SETP FEEDBACK, 1.5` stores `lit(0.98)`. -/
theorem test_setp_P4 : ((nextW (exec (.setp 0#3 0x3FC00000#32) (State.f32 onW))).map fun e =>
    (e.p.feedback, lastWord e)) = some (0x3F7AE148#32, some 0#72) := by decide +kernel

/-- P13: minus zero is stored as it is. -/
theorem test_setp_P13 : ((nextW (exec (.setp 2#3 0x80000000#32) (State.f32 onW))).map fun e =>
    (e.p.mix, lastWord e)) = some (0x80000000#32, some 0#72) := by decide +kernel

/-- E3: `GETP CHORUSRATE` after reset. -/
theorem test_getp_E3 : ((nextW (exec (.getp 4#3) (State.f32 onW))).map lastWord) =
    some (some 0x003F00000000000000#72) := by decide +kernel

/-- P2 under profile REAL. -/
theorem test_getp_P2 : ((nextR (exec (.getp 1#3) (State.real onR))).map lastWord) = some (some 0#72) := by
  decide +kernel

/-- Program 1, the source's scenario (S1): `SMP 1.0, 1.0` after `CFG 44100, 512` with `T_MAX = 2`. -/
theorem test_smp_program_1 : ((nextW (exec (.smp 0x3F800000#32 0x3F800000#32)
    (State.f32 (configure Machine.f32 0x472C4400#32 512#32 (Engine.reset Machine.f32 cfgLarge))))).map fun e =>
      (lastWord e, e.wh, e.phase)) = some (some 0x003F0000003F000000#72, 1, 0x373E37C6#32) := by decide +kernel

/-- Program 4, step 1, profile REAL: outputs 17/10 and 39/20, the phase from 1/4 to 1/2. -/
theorem test_smp_program_4 :
    (match sampleStep Machine.real false ⟨2, 2⟩
        { onR with p := ⟨0, 1 / 2, 1 / 2, 1, 5⟩, fs := 20, cap := 10, ready := true, wh := 1, phase := 1 / 4,
                   dl := [((0, 0), 1), ((1, 0), 1)] } with
      | .ok (e, o) => some (e.phase, e.wh, o)
      | .error _ => none) = some (1 / 2, 2, ⟨17 / 10, 39 / 20⟩) := by decide +kernel

/-- B4, the LFO standing still: `PROC 3, 2` on (1, 0, 0) in both channels. -/
theorem test_proc_B4 : ((nextW (exec (.proc 3#32 2#32)
    (State.f32 { stillW with sb := [((0, 0), 0x3F800000#32), ((1, 0), 0x3F800000#32)] }))).map fun e =>
      (e.sb, e.wh, lastWord e)) =
    some ([((0, 0), 0x3F000000#32), ((1, 0), 0x3F000000#32)], 3, some 0#72) := by decide +kernel

/-- B9: `PROC 4, 3` clears channel 2 below index 4 and leaves index 4 alone. -/
theorem test_proc_B9 : ((nextR (exec (.proc 4#32 3#32)
    (State.real { stillR with sb := [((2, 0), 9), ((2, 3), 9), ((2, 4), 9)] }))).map fun e => (e.sb, e.wh)) =
    some ([((2, 4), 9)], 4) := by decide +kernel

/-! Vectors of the stage operations. -/

/-- L3: the right phase 5/4 wraps to 1/4. -/
theorem test_lfoEval_L3 : lfoEval Machine.real ⟨0, 1 / 2, 0, 1, 0⟩ { onR with phase := 3 / 4 } = ⟨-1, 1⟩ := by
  decide +kernel

/-- L4: a right phase of exactly 1 is kept. -/
theorem test_lfoPhases_L4 : lfoPhases Machine.real ⟨0, 1 / 2, 0, 1, 0⟩ { onR with phase := 1 / 2 } = ⟨1 / 2, 1⟩ := by
  decide +kernel

/-- D8: the read position 87428.25 in profile F32. -/
theorem test_rdPos_D8 : readPosition Machine.f32 { onW with fs := 0x472C4400#32, cap := 88200, wh := 0 } 0x3C8F5C28#32 =
    0x47AAC220#32 := by decide +kernel

/-- I1: `rp = 123/2`, the second index wrapped. -/
theorem test_interp_I1 : interpAt Machine.real { onR with cap := 62, dl := [((0, 0), 1)] } 0 (123 / 2) = .ok (1 / 2) := by
  decide +kernel

/-- I4: `rp = CAP`, the first index normalised, in profile F32. -/
theorem test_interp_I4 : interpAt Machine.f32 { onW with cap := 66286, dl := [((0, 0), 0x40400000#32)] } 0 0x47817700#32 =
    .ok 0x40400000#32 := by decide +kernel

/-- K8: `CFG -0.0, 512` is assembled with its sign (R60). -/
theorem test_assembler_K8 : (AsmLine.cfg (.decimal true 0 1) 512#32).word = 0x018000000000000200#72 := by
  decide +kernel

/-! Witnesses: for each statement with hypotheses, states and operands that meet all of them, at the boundaries of
each clause. Statements not named here have no hypotheses. -/

/-- DecodeOfEncodeIsTheCommand. -/
theorem witness_wf : (Instr.setp 0#3 0xFFFFFFFF#32).wf = true ∧ (Instr.setp 4#3 0#32).wf = true ∧
    (Instr.getp 4#3).wf = true := by decide

/-- EncodeOfDecodeIsTheWord, DecoderAgreesWithOpcodeTable. -/
theorem witness_decodes : decode 0x0200000004FFFFFFFF#72 = .ok (.setp 4#3 0xFFFFFFFF#32) ∧
    (∃ r ∈ opcodeTable, r.selects 0x0200000004FFFFFFFF#72 = true) := by decide

/-- RejectionChecksInOrder: each clause, and a word with two causes. -/
theorem witness_rejections :
    decode 0x06FFFFFFFFFFFFFFFF#72 = .error .reservedOpcode ∧ decode 0#72 = .error .reservedOpcode ∧
    decode 0x02000000083F000000#72 = .error .reservedField ∧ decode 0x030000000200000001#72 = .error .reservedField ∧
    decode 0x02000000053F000000#72 = .error .noSuchParameter ∧ decode 0x030000000700000000#72 = .error .noSuchParameter ∧
    decode 0x028000000700000000#72 = .error .reservedField ∧ decode 0x030000000500000001#72 = .error .reservedField := by
  decide

/-- StepRunsDecodedCommand: a command at the head of the port, and a word of the table presented. -/
theorem witness_stepRuns :
    ({ onW with port := [.command 0x030000000200000000#72, .reset] } : Engine Word).port =
      .command 0x030000000200000000#72 :: [.reset] ∧
    decode 0x030000000200000000#72 = .ok (.getp 2#3) ∧
    decodeTableWord 72 0x030000000200000000 = some (.getp 2#3) ∧
    step (State.reset.withFetchWord 72 0x030000000200000000) = exec (.getp 2#3) State.reset :=
  ⟨rfl, by decide, by decide, rfl⟩

/-- IllegalWordsChangeNothing: R56 (a) at both ends of each range, (b), (c), (d). -/
theorem witness_illegal : illegalWord 0#72 ∧ illegalWord 0x060000000000000000#72 ∧ illegalWord 0xFF0000000000000000#72 ∧
    illegalWord 0x02000000083F000000#72 ∧ illegalWord 0x030000000200000001#72 ∧ illegalWord 0x02000000053F000000#72 ∧
    illegalWord 0x030000000700000000#72 ∧ ¬ illegalWord 0x050000000800000001#72 ∧
    ({ onW with port := [.command 0#72] } : Engine Word).port = .command 0#72 :: [] := by
  refine ⟨?_, ?_, ?_, ?_, ?_, ?_, ?_, ?_, rfl⟩ <;> unfold illegalWord <;> decide

/-- IdleCoreHoldsItsState. -/
theorem witness_idle : sessW.port = [] ∧ sessR.port = [] := by decide +kernel

/-- HostStoreChangesOneElement: the last element of the buffer, and the first ones beyond it. -/
theorem witness_hostStore :
    ({ onW with port := [.store 3 7 5#32] } : Engine Word).port = .store 3 7 5#32 :: [] ∧
    Memory.wf Machine.f32.zero onW.sb = true ∧ (3 < onW.cfg.sbCh ∧ 7 < onW.cfg.sbLen) ∧
    ¬(4 < onW.cfg.sbCh ∧ 7 < onW.cfg.sbLen) ∧ ¬(3 < onW.cfg.sbCh ∧ 8 < onW.cfg.sbLen) := by decide +kernel

/-- FloatOperationsRoundToNearestEven: the smallest and the largest finite data. -/
theorem witness_float : F32.isFinite 0x00000001#32 = true ∧ F32.isFinite 0xFF7FFFFF#32 = true ∧
    F32.val 0x00000001#32 ≠ 0 ∧ F32.val 0xFF7FFFFF#32 ≠ 0 := by decide +kernel

/-- SetpClampsAndStores: values above, in, at the end of and below the range, in both profiles. -/
theorem witness_setp : notFinite 0x3FC00000#32 = false ∧ notFinite 0xBF800000#32 = false ∧ notFinite 0x3F7AE148#32 = false ∧
    Machine.f32.dec32 0x3FC00000#32 = some 0x3FC00000#32 ∧ Machine.real.dec32 0x3FC00000#32 = some (3 / 2) ∧
    Machine.real.dec32 0xBF800000#32 = some (-1) ∧ (Machine.real.dec32 0x3F7AE148#32).isSome = true := by decide +kernel

/-- SetpRefusesNonFiniteValues: a NaN and both infinities. -/
theorem witness_setpRefuses : (0x7FC00000#32).extractLsb' 23 8 = 0xFF#8 ∧ (0x7F800000#32).extractLsb' 23 8 = 0xFF#8 ∧
    (0xFF800000#32).extractLsb' 23 8 = 0xFF#8 := by decide

/-- GetpReturnsTheParameter, LfoStaysWithinDepth. -/
theorem witness_getp : paramsInRange Machine.f32 onW.p ∧ paramsInRange Machine.real onR.p :=
  ⟨inv_onW.params, inv_onR.params⟩

/-- UnknownParameterIsIllegal. -/
theorem witness_unknown : 5 ≤ (5#3).toNat ∧ 5 ≤ (7#3).toNat := by decide

/-- An SMP in a configured session answers, whatever the sine is. -/
theorem smp_answers {S : Type} [DecidableEq S] {N : Numerics S} {inj : Engine S → State} (A : ActsOn N inj)
    (H : SafeNumerics N) {e : Engine S} (he : EngineInv N e) (hr : e.ready = true) {a b : Word} {l r : S}
    (ha : N.dec32 a = some l) (hb : N.dec32 b = some r) :
    ∃ e' o, exec (.smp a b) (inj e) = .next (inj e') ∧
      e'.responses = e.responses ++ [⟨.ok, N.enc32 (o : Stereo S).left, N.enc32 o.right⟩] := by
  obtain ⟨e', o, hs⟩ := sampleStep_completes H false ⟨l, r⟩ he hr
  refine ⟨_, o, by rw [A.smp, processSample_runs ha hb hr hs]; rfl, ?_⟩
  show e'.responses ++ _ = _
  rw [(sampleStep_keeps hs).1]

/-- A session of the option `PARAM_STALE`, a parameter just changed. -/
def staleW : Engine Word := setParam Machine.f32 2#3 0#32 { sessW with cfg := { cfgW with paramStale := true } }

theorem inv_staleW : EngineInv Machine.f32 staleW := by
  have h := inv_sessW
  exact EngineInv.setParam f32_safe
    (e := { sessW with cfg := { cfgW with paramStale := true } })
    ⟨configOk_W, h.params, h.historyPrev, h.historyCur, h.block, h.idle,
      fun hr => let s := h.session hr; ⟨s.capLow, s.capHigh, s.head, s.ratePositive, s.rateFinite, s.headroom, s.phaseLow, s.phaseHigh⟩,
      h.delayForm, h.delayWithin, h.samplesForm, h.samplesWithin⟩ 2#3 0#32

/-- SampleStepReadsHeldValues: with the option, where MIX held two values, and without it. -/
theorem witness_heldValues :
    (staleW.ready = true ∧ staleW.histCur.mix = [0x3F000000#32] ∧ staleW.p.mix = 0#32 ∧
      ∃ e', exec (.smp 0x3F800000#32 0#32) (State.f32 staleW) = .next (State.f32 e')) ∧
    (sessR.ready = true ∧ Machine.real.dec32 0x3F800000#32 = some 1 ∧ Machine.real.dec32 0#32 = some 0 ∧
      ∃ e', exec (.smp 0x3F800000#32 0#32) (State.real sessR) = .next (State.real e')) := by
  obtain ⟨e₁, _, h₁, -⟩ := smp_answers actsOn_f32 f32_safe inv_staleW (by decide +kernel)
    (a := 0x3F800000#32) (b := 0#32) rfl rfl
  have d1 : Machine.real.dec32 0x3F800000#32 = some 1 := by decide +kernel
  have d0 : Machine.real.dec32 0#32 = some 0 := by decide +kernel
  obtain ⟨e₂, _, h₂, -⟩ := smp_answers actsOn_real real_safe inv_sessR (by decide +kernel) d1 d0
  exact ⟨⟨by decide +kernel, by decide +kernel, by decide +kernel, e₁, h₁⟩, by decide +kernel, d1, d0, e₂, h₂⟩

/-- CfgOpensASession: K3 in both profiles, and K5, where `CAP = 1`. -/
theorem witness_cfgOpens :
    ((0x447A0000#32).extractLsb' 23 8 ≠ 0xFF#8 ∧ Machine.f32.gt 0x447A0000#32 (Machine.f32.lit 0 1) = true ∧
      Machine.f32.isFinite (Machine.f32.mul 0x447A0000#32 cfgW.tMax) = true ∧
      Machine.f32.floorNat (Machine.f32.mul 0x447A0000#32 cfgW.tMax) = some 62 ∧ 62 ≤ cfgW.ramWords ∧
      Machine.f32.gt (Machine.f32.mul (Machine.f32.lit 3 100) 0x447A0000#32) (Machine.f32.ofNat 62) = false) ∧
    (Machine.real.dec32 0x447A0000#32 = some 1000 ∧ Machine.real.gt 1000 (Machine.real.lit 0 1) = true ∧
      Machine.real.floorNat (Machine.real.mul 1000 cfgR.tMax) = some 62 ∧ 62 ≤ cfgR.ramWords ∧
      Machine.real.gt (Machine.real.mul (Machine.real.lit 3 100) 1000) (Machine.real.ofNat 62) = false) ∧
    (Machine.real.dec32 0x41A00000#32 = some 20 ∧ Machine.real.floorNat (Machine.real.mul 20 cfgR.tMax) = some 1 ∧
      Machine.real.gt (Machine.real.mul (Machine.real.lit 3 100) 20) (Machine.real.ofNat 1) = false) := by decide +kernel

/-- FailedCfgClosesTheSession: K9, K8, K14, K4, K6 and K10, one for each cause. -/
theorem witness_failedCfg :
    (0x7FC00000#32).extractLsb' 23 8 = 0xFF#8 ∧
    Machine.f32.gt 0x80000000#32 (Machine.f32.lit 0 1) = false ∧
    Machine.f32.isFinite (Machine.f32.mul 0x7F61B1E6#32 cfgLarge.tMax) = false ∧
    Machine.f32.floorNat (Machine.f32.mul 0x3ECCCCCD#32 cfgLarge.tMax) = some 0 ∧
    (Machine.f32.floorNat (Machine.f32.mul 0x4E6E6B28#32 cfgLarge.tMax) = some 2000000000 ∧
      cfgLarge.ramWords < 2000000000) ∧
    (Machine.f32.floorNat (Machine.f32.mul 0x42700000#32 0x3D000000#32) = some 1 ∧
      Machine.f32.gt (Machine.f32.mul (Machine.f32.lit 3 100) 0x42700000#32) (Machine.f32.ofNat 1) = true) ∧
    (Machine.real.dec32 0x4E6E6B28#32 = some 1000000000 ∧
      Machine.real.floorNat (Machine.real.mul 1000000000 cfgLargeR.tMax) = some 2000000000 ∧
      cfgLargeR.ramWords < 2000000000) := by decide +kernel

/-- CfgIsIdempotent: a session opened from power-on, and again from another one. -/
theorem witness_idempotent :
    (exec (.cfg 0x447A0000#32 64#32) (State.f32 onW) = .next (State.f32 sessW) ∧ sessW.ready = true ∧
      stillW.cfg = onW.cfg ∧ stillW ≠ onW) ∧
    (exec (.cfg 0x447A0000#32 64#32) (State.real onR) = .next (State.real sessR) ∧ sessR.ready = true ∧
      stillR.cfg = onR.cfg) :=
  ⟨⟨rfl, by decide +kernel, rfl, by decide +kernel⟩, rfl, by decide +kernel, by decide +kernel⟩

/-- ResetEventRestoresDefaults: a reset of a running session. -/
theorem witness_resetEvent : ({ sessW with port := [.reset] } : Engine Word).port = .reset :: [] ∧
    ({ sessR with port := [.reset] } : Engine Rat).port = .reset :: [] := ⟨rfl, rfl⟩

/-- UnspecifiedRegistersUnobservable: two different power-on states. -/
theorem witness_unspecified : SameWhileIdle onW { onW with wh := 3, bs := 5 } ∧ onW ≠ { onW with wh := 3, bs := 5 } ∧
    SameWhileIdle onR { onR with phase := 1 / 3 } :=
  ⟨⟨rfl, rfl⟩, by decide +kernel, ⟨rfl, rfl⟩⟩

/-- DelayTimeMap: both ends of the LFO's range. -/
theorem witness_delayTime :
    (Machine.f32.le Machine.f32.negOne Machine.f32.negOne = true ∧ Machine.f32.le Machine.f32.negOne Machine.f32.one = true ∧
      Machine.f32.le Machine.f32.one Machine.f32.one = true) ∧
    Machine.real.le Machine.real.negOne (-1) = true ∧ Machine.real.le (-1) 1 = true ∧
      Machine.real.le 1 Machine.real.one = true := by decide +kernel

/-- ZeroDepthFixesTheDelay, SilenceStaysSilent: both zeros of profile F32. -/
theorem witness_isZero : isZero Machine.f32 0x00000000#32 ∧ isZero Machine.f32 0x80000000#32 ∧ isZero Machine.real 0 :=
  ⟨⟨by decide +kernel, by decide +kernel⟩, ⟨by decide +kernel, by decide +kernel⟩, by decide +kernel, by decide +kernel⟩

/-- PhasesStayInTheUnitInterval: at 5 Hz, from the phase 1. -/
theorem witness_phases :
    (Machine.f32.gt 0x40A00000#32 Machine.f32.zero = true ∧ Machine.f32.isFinite 0x40A00000#32 = true ∧
      Machine.f32.le 0x40A00000#32 0x40A00000#32 = true ∧ Machine.f32.le Machine.f32.zero 0x3F800000#32 = true ∧
      Machine.f32.le 0x3F800000#32 Machine.f32.one = true) ∧
    (Machine.real.gt 5 Machine.real.zero = true ∧ Machine.real.isFinite 5 = true ∧ Machine.real.le 5 5 = true ∧
      Machine.real.le Machine.real.zero 1 = true ∧ Machine.real.le 1 Machine.real.one = true) := by decide +kernel

/-- ReadPositionRange: configured sessions, the delay times at both ends, and the position `CAP` (D9). -/
theorem witness_readPosition :
    (EngineInv Machine.real sessR ∧ sessR.ready = true ∧ Machine.real.tLo ≤ 3 / 100 ∧ (3 / 100 : Rat) ≤ Machine.real.tHi) ∧
    (EngineInv Machine.f32 sessW ∧ sessW.ready = true ∧ Machine.f32.le Machine.f32.tLo Machine.f32.tLo = true ∧
      Machine.f32.le Machine.f32.tLo Machine.f32.tHi = true ∧ Machine.f32.le Machine.f32.tHi Machine.f32.tHi = true) ∧
    ∃ e : Engine Word, e.fs = 0x47017700#32 ∧ e.wh = 580 ∧ e.cap = 66286 :=
  ⟨⟨inv_sessR, by decide +kernel, by decide +kernel, by decide +kernel⟩,
    ⟨inv_sessW, by decide +kernel, by decide +kernel, by decide +kernel, by decide +kernel⟩,
    { onW with fs := 0x47017700#32, wh := 580, cap := 66286 }, rfl, rfl, rfl⟩

/-- ReadAtCapacityReturnsFirstWord: the capacities 1 and 2^24. -/
theorem witness_readAtCapacity : ∀ cap ∈ [1, 2, 2 ^ 24],
    let e : Engine Word := { onW with cap := cap, dl := [((0, 0), 0x00000001#32)] }
    1 ≤ e.cap ∧ e.cap ≤ 2 ^ 24 ∧ F32.isFinite (Memory.read Machine.f32.zero e.dl (0, 0)) = true ∧
      F32.val (Memory.read Machine.f32.zero e.dl (0, 0)) ≠ 0 ∧
      F32.isFinite (Memory.read Machine.f32.zero e.dl (0, nextIndex e.cap 0)) = true := by decide +kernel

/-- InterpolatorIsConvex: both ends of the range of positions, at the capacities 1 and 62. -/
theorem witness_interp : 1 ≤ 1 ∧ (0 : Rat) ≤ 0 ∧ (0 : Rat) ≤ (1 : Nat) ∧ (62 : Rat) ≤ (62 : Nat) := by decide +kernel

/-- MixBoundaryLaws: ordinary data, both zeros, and data that are not finite. -/
theorem witness_mix : F32.isFinite 0x3F800000#32 = true ∧ F32.val 0x3F800000#32 ≠ 0 ∧ F32.isFinite 0x00000000#32 = true ∧
    F32.sign 0x00000000#32 = false ∧ F32.isFinite 0x7F800000#32 = false ∧ F32.isFinite 0x7FC00000#32 = false := by
  decide +kernel

/-- SmpComputesTheSampleStep: the read positions of the first SMP of a session, in both profiles. -/
theorem witness_smpComputes :
    (sessW.ready = true ∧ sessW.cfg.paramStale = false ∧ sessW.wh < sessW.cap ∧
      Machine.f32.floorNat (readPositions Machine.f32 sessW.p sessW sessW).left = some 44 ∧
      Machine.f32.floorNat (readPositions Machine.f32 sessW.p sessW sessW).right = some 44 ∧ 44 ≤ sessW.cap) ∧
    (sessR.ready = true ∧ sessR.cfg.paramStale = false ∧ sessR.wh < sessR.cap ∧
      Machine.real.dec32 0x3F800000#32 = some 1 ∧
      Machine.real.floorNat (readPositions Machine.real sessR.p sessR sessR).left = some 44 ∧
      Machine.real.floorNat (readPositions Machine.real sessR.p sessR sessR).right = some 44 ∧ 44 ≤ sessR.cap) := by
  decide +kernel

/-- SmpAlwaysCompletes, NonFiniteSamples: configured sessions, and samples that are and are not numbers. -/
theorem witness_smpCompletes :
    (EngineInv Machine.f32 sessW ∧ sessW.ready = true ∧ Machine.f32.dec32 0x7FC00000#32 ≠ none) ∧
    (EngineInv Machine.real sessR ∧ sessR.ready = true ∧ Machine.real.dec32 0x3F800000#32 ≠ none) ∧
    (0x7FC00000#32).extractLsb' 23 8 = 0xFF#8 :=
  ⟨⟨inv_sessW, by decide +kernel, by decide +kernel⟩, ⟨inv_sessR, by decide +kernel, by decide +kernel⟩, by decide⟩

theorem quiet_of_nil {S : Type} {e : Engine S} (h : e.gaps = []) : quietGaps e :=
  fun g hg => absurd (h ▸ hg) (by simp)

/-- ProcAlwaysCompletes: the smallest and the largest block. -/
theorem witness_procCompletes :
    EngineInv Machine.f32 sessW ∧ EngineInv Machine.real sessR ∧ sessW.ready = true ∧ sessR.ready = true ∧
    quietGaps sessW ∧ quietGaps { sessR with gaps := [0, 0] } ∧
    (2 ≤ (2#32).toNat ∧ (4#32).toNat ≤ sessW.cfg.sbCh ∧ (0#32).toNat ≤ sessW.cfg.sbLen ∧ (8#32).toNat ≤ sessW.cfg.sbLen) :=
  ⟨inv_sessW, inv_sessR, by decide +kernel, by decide +kernel, quiet_of_nil (by decide +kernel),
    fun g hg => by simpa using hg, by decide +kernel⟩

/-- ProcEqualsConsecutiveSmps, WriteHeadAdvancesModuloCapacity: two SMPs of a session, in both profiles. -/
theorem witness_through :
    ((samplesThrough Machine.f32 (fun s => ⟨Memory.read Machine.f32.zero stillW.sb (0, s),
      Memory.read Machine.f32.zero stillW.sb (1, s)⟩) 2 stillW).isSome = true ∧ stillW.wh < stillW.cap ∧
      stillW.ready = true ∧ stillW.cfg.paramStale = false ∧ 2 ≤ stillW.cfg.sbCh ∧ 2 ≤ stillW.cfg.sbLen ∧
      Memory.wf Machine.f32.zero stillW.sb = true) ∧
    ((samplesThrough Machine.real (fun s => ⟨Memory.read Machine.real.zero stillR.sb (0, s),
      Memory.read Machine.real.zero stillR.sb (1, s)⟩) 2 stillR).isSome = true ∧ stillR.wh < stillR.cap ∧
      stillR.ready = true ∧ Memory.wf Machine.real.zero stillR.sb = true) ∧
    quietGaps stillW ∧ quietGaps stillR ∧
    (∃ d o, sampleStep Machine.f32 false ⟨0x3F800000#32, 0#32⟩ sessW = .ok (d, o)) ∧
    ∃ d o, sampleStep Machine.real false ⟨1, 0⟩ sessR = .ok (d, o) :=
  ⟨by decide +kernel, by decide +kernel, quiet_of_nil (by decide +kernel),
    quiet_of_nil (by decide +kernel), sampleStep_completes f32_safe false _ inv_sessW (by decide +kernel),
    sampleStep_completes real_safe false _ inv_sessR (by decide +kernel)⟩

/-- ExtraChannelsAreCleared, OnlySetpAndGetpInterleave: a PROC that answers. -/
theorem witness_extraChannels :
    (∃ d, exec (.proc 0#32 2#32) (State.f32 sessW) = .next (State.f32 d)) ∧
    (∃ d, exec (.proc 0#32 2#32) (State.real sessR) = .next (State.real d)) ∧
    Memory.wf Machine.f32.zero sessW.sb = true ∧ (4#32).toNat ≤ sessW.cfg.sbCh := by
  have h : exec (.proc 0#32 2#32) (State.real sessR) = mapNext State.real (runBlock Machine.real 0 2 sessR) := by
    rw [actsOn_real.proc, processBlock_runs (by decide) (by decide +kernel) (by decide +kernel) (by decide +kernel)]
    rfl
  have hq : quietGaps (respondOk 0#32 0#32 (startBlock sessR)) := quiet_of_nil (by decide +kernel)
  rw [runBlock_untaken (blockLoop_quiet_zero hq) (by decide +kernel)] at h
  exact ⟨⟨_, rfl⟩, ⟨_, h⟩, by decide +kernel, by decide⟩

/-- TooFewChannelsIsIllegal, BlockBeyondBufferIsIllegal: the first values beyond each bound. -/
theorem witness_procRefused : onW.cfg.sbCh < (5#32).toNat ∧ onW.cfg.sbLen < (9#32).toNat ∧ onR.cfg.sbCh < (5#32).toNat := by
  decide

/-- NoSessionNoAudio. -/
theorem witness_noSession : onW.ready = false ∧ onR.ready = false ∧ Machine.real.dec32 0#32 ≠ none ∧
    2 ≤ (2#32).toNat ∧ (2#32).toNat ≤ onW.cfg.sbCh ∧ (8#32).toNat ≤ onW.cfg.sbLen := by decide +kernel

/-- AddressesAreDataIndependent: two sessions with different samples in their memories; a step that completes, and one
that stops because no buffer exists. -/
theorem witness_sameTiming :
    sameTiming sessW { sessW with fb := ⟨1#32, 2#32⟩, dl := [((0, 3), 5#32)] } ∧
    (∃ d o, sampleStepWith Machine.f32 sessW.p ⟨0#32, 0#32⟩ sessW = .ok (d, o)) ∧
    (∃ d o, sampleStepWith Machine.real sessR.p ⟨0, 0⟩ sessR = .ok (d, o)) ∧
    sampleStepWith Machine.f32 onW.p ⟨0#32, 0#32⟩ onW = .error .delayRange ∧ sameTiming onR onR :=
  ⟨⟨rfl, rfl, rfl, rfl⟩, sampleStepWith_completes f32_safe _ inv_sessW.params inv_sessW (by decide +kernel),
    sampleStepWith_completes real_safe _ inv_sessR.params inv_sessR (by decide +kernel), rfl, ⟨rfl, rfl, rfl, rfl⟩⟩

/-- LanesAreIndependent, MixDoesNotTouchTheState: two sessions alike in the left lane only, both answering. -/
theorem witness_lanes :
    (LeftLaneAlike Machine.f32 sessW { sessW with fb := ⟨sessW.fb.left, 7#32⟩ } ∧
      RightLaneAlike Machine.f32 sessW { sessW with fb := ⟨7#32, sessW.fb.right⟩ }) ∧
    (Memory.wf Machine.f32.zero sessW.dl = true ∧ sessW.cfg.paramStale = false ∧
      Memory.wf Machine.real.zero sessR.dl = true ∧ sessR.cfg.paramStale = false) ∧
    (∃ d r0 r1, exec (.smp 0x3F800000#32 0#32) (State.f32 sessW) = .next (State.f32 d) ∧
      d.responses = sessW.responses ++ [⟨.ok, r0, r1⟩]) ∧
    (∃ d r0 r1, exec (.smp 0#32 0#32) (State.real sessR) = .next (State.real d) ∧
      d.responses = sessR.responses ++ [⟨.ok, r0, r1⟩]) := by
  have d0 : Machine.real.dec32 0#32 = some 0 := by decide +kernel
  obtain ⟨e₁, o₁, h₁, k₁⟩ := smp_answers actsOn_f32 f32_safe inv_sessW (by decide +kernel) (a := 0x3F800000#32) (b := 0#32) rfl rfl
  obtain ⟨e₂, o₂, h₂, k₂⟩ := smp_answers actsOn_real real_safe inv_sessR (by decide +kernel) d0 d0
  exact ⟨⟨⟨rfl, ⟨rfl, rfl, rfl, rfl⟩, rfl, fun _ => rfl⟩, ⟨rfl, ⟨rfl, rfl, rfl, rfl⟩, rfl, fun _ => rfl⟩⟩,
    by decide +kernel, ⟨e₁, _, _, h₁, k₁⟩, e₂, _, _, h₂, k₂⟩

/-- SilenceStaysSilent: the first SMP of a session, in both profiles. -/
theorem witness_silence :
    (EngineInv Machine.f32 sessW ∧ sessW.ready = true ∧ sessW.cfg.paramStale = false ∧ sessW.dl = [] ∧
      isZero Machine.f32 sessW.fb.left ∧ isZero Machine.f32 sessW.fb.right) ∧
    (EngineInv Machine.real sessR ∧ sessR.ready = true ∧ sessR.cfg.paramStale = false ∧ sessR.dl = [] ∧
      isZero Machine.real sessR.fb.left ∧ isZero Machine.real sessR.fb.right) :=
  ⟨⟨inv_sessW, by decide +kernel, by decide +kernel, by decide +kernel, ⟨by decide +kernel, by decide +kernel⟩,
      by decide +kernel, by decide +kernel⟩,
    inv_sessR, by decide +kernel, by decide +kernel, by decide +kernel, ⟨by decide +kernel, by decide +kernel⟩,
      by decide +kernel, by decide +kernel⟩

/-- A session with a sound in its left delay line. -/
def soundR : Engine Rat := { sessR with dl := [((0, 5), 1 / 2)], fb := ⟨1 / 4, 0⟩ }

/-- FeedbackDecays. -/
theorem witness_decay :
    EngineInv Machine.real soundR ∧ soundR.ready = true ∧ soundR.cfg.paramStale = false ∧
    (∀ c i, i < soundR.cap → |Memory.read 0 soundR.dl (c, i)| ≤ (1 : Rat)) ∧
    |soundR.fb.left| ≤ 98 / 100 * (1 : Rat) ∧ |soundR.fb.right| ≤ 98 / 100 * (1 : Rat) := by
  have h := inv_sessR
  refine ⟨⟨h.config, h.params, h.historyPrev, h.historyCur, h.block, h.idle, h.session, by decide +kernel,
    by decide +kernel, h.samplesForm, h.samplesWithin⟩, by decide +kernel, by decide +kernel, fun c i _ => ?_, by decide +kernel,
    by decide +kernel⟩
  show |if ((0, 5) : Nat × Nat) = (c, i) then (1 / 2 : Rat) else 0| ≤ 1
  split <;> norm_num [abs_of_pos]

/-- FirstOutputIsDry: the first SMP after `CFG 1000, 64`, whose delay is 35/2 samples. -/
theorem witness_firstOutput :
    (EngineInv Machine.real sessR ∧ sessR.ready = true ∧ sessR.cfg.paramStale = false ∧ sessR.dl = [] ∧
      sessR.fb = ⟨0, 0⟩ ∧ sessR.wh = 0 ∧ Machine.real.dec32 0x3F800000#32 = some 1) ∧
    (∀ ph, ph = (lfoPhases Machine.real sessR.p sessR).left ∨ ph = (lfoPhases Machine.real sessR.p sessR).right →
      1 < sessR.fs * delayTime Machine.real (lfoAt Machine.real sessR.p ph) ∧
      sessR.fs * delayTime Machine.real (lfoAt Machine.real sessR.p ph) ≤ (sessR.cap : Rat) - 1) := by
  refine ⟨⟨inv_sessR, by decide +kernel, by decide +kernel, by decide +kernel, by decide +kernel, by decide +kernel,
    by decide +kernel⟩, ?_⟩
  rintro ph (rfl | rfl) <;> decide +kernel

/-- SetpInAGapActsBeforeTheNextSample, HostStoreInAGap, ResetAbandonsAProc: an act placed in the first gap. -/
theorem witness_gaps :
    let e : Engine Word := { sessW with gaps := [1], port := [.command 0x020000000200000000#72] }
    let d : Engine Word := { sessW with gaps := [1], port := [.store 3 7 0#32] }
    let r : Engine Word := { sessW with gaps := [1], port := [.reset] }
    (e.cfg.ctrlInterleave = true ∧ e.gaps = (0 + 1) :: [] ∧ e.port = .command 0x020000000200000000#72 :: [] ∧
      decode 0x020000000200000000#72 = .ok (.setp 2#3 0#32)) ∧
    (d.gaps = (0 + 1) :: [] ∧ d.port = .store 3 7 0#32 :: [] ∧ 3 < d.cfg.sbCh ∧ 7 < d.cfg.sbLen) ∧
    (r.ready = true ∧ (4#32).toNat ≤ r.cfg.sbCh ∧ (8#32).toNat ≤ r.cfg.sbLen ∧ Memory.wf Machine.f32.zero r.sb = true ∧
      r.gaps = (0 + 1) :: [] ∧ r.port = .reset :: []) := by decide +kernel

/-- EveryStepKeepsTheInvariant, NoCommandStops, OneResponsePerCommand, ResponsesAndTheirWords: a step from a state that
meets the invariant, with a command and a host store at its port. -/
theorem witness_step :
    let e : Engine Word := { sessW with port := [.command 0x030000000200000000#72, .store 0 0 1#32] }
    StateInv (State.f32 e) ∧ portKeepsTo e ∧ (∀ a ∈ e.port, a ≠ .reset) ∧
      ∃ e', step (State.f32 e) = .next (State.f32 e') := by
  refine ⟨inv_sessW.withPort _, ?_, ?_, _, rfl⟩
  · intro a ha
    simp only [List.mem_cons, List.not_mem_nil, or_false] at ha
    rcases ha with rfl | rfl
    · trivial
    · exact ⟨by decide +kernel, by decide +kernel⟩
  · intro a ha
    simp only [List.mem_cons, List.not_mem_nil, or_false] at ha
    rcases ha with rfl | rfl <;> simp

/-- ResetMeetsTheInvariant. -/
theorem witness_configOk : configOk Machine.real cfgR := configOk_R

end Sys2Proof.Tests
end

section
/-! SUPPORT. Profile F32 rounds to nearest, ties to even (R9, D4): where `roundUnits` changes from one magnitude word to
the next, how near its result is, and the signed result of each operation on finite data. -/

namespace Sys2Proof.Machine

/-! Where the rounding changes: the midpoint of two neighbouring magnitude words. -/

/-- The rounded word lies above the finite word `m` exactly from the midpoint of `m` and its successor on; at the
midpoint itself only when `m` is odd. -/
theorem F32.lt_roundUnits_iff {num den m : Nat} (hd : 0 < den) (hm : m < F32.infMag) :
    m < F32.roundUnits num den ↔
      2 * num > (F32.units m + F32.units (m + 1)) * den ∨
        2 * num = (F32.units m + F32.units (m + 1)) * den ∧ m % 2 = 1 := by
  classical
  have hlow := F32.floorMag_le num den
  have hhigh := F32.lt_floorMag_succ (num := num) hd
  have hstep := Nat.mul_lt_mul_of_pos_right (F32.units_lt_succ m) hd
  rw [F32.roundUnits_eq hd, lt_min_iff, and_iff_left hm, add_mul]
  rcases lt_trichotomy m (F32.floorMag num den) with hlt | rfl | hgt
  · have : F32.units (m + 1) * den ≤ F32.units (F32.floorMag num den) * den :=
      Nat.mul_le_mul_right _ (F32.units_strictMono.monotone hlt)
    exact iff_of_true (by omega) (Or.inl (by omega))
  · unfold F32.roundsUp
    rw [add_mul]
    split <;> omega
  · have : F32.units (F32.floorMag num den + 1) * den ≤ F32.units m * den :=
      Nat.mul_le_mul_right _ (F32.units_strictMono.monotone hgt)
    exact iff_of_false (by split <;> omega) (by omega)

/-- Rounding stays finite exactly below half a step above the largest finite datum. -/
theorem F32.roundUnits_lt_infMag_iff {num den : Nat} (hd : 0 < den) :
    F32.roundUnits num den < F32.infMag ↔ num < (2 ^ 25 - 1) * 2 ^ 252 * den := by
  have hmid : F32.units (F32.infMag - 1) + F32.units (F32.infMag - 1 + 1) = 2 * ((2 ^ 25 - 1) * 2 ^ 252) := by decide
  have hodd : (F32.infMag - 1) % 2 = 1 := by decide
  have hpred : F32.roundUnits num den < F32.infMag ↔ ¬ F32.infMag - 1 < F32.roundUnits num den := by
    unfold F32.infMag; omega
  rw [hpred, F32.lt_roundUnits_iff hd (by decide), hmid, hodd, mul_assoc 2]
  omega

theorem F32.roundUnits_zero {den : Nat} (hd : 0 < den) : F32.roundUnits 0 den = 0 := by
  simpa [F32.units_zero] using F32.roundUnits_exact (m := 0) hd (by decide)

/-- Of two points on the two sides of a midpoint, the one on the side of `n` is the nearer. -/
theorem abs_sub_le_of_midpoint {a c n : Nat} (h : a < c ∧ a + c ≤ 2 * n ∨ c < a ∧ 2 * n ≤ a + c) :
    |(c : Int) - n| ≤ |(a : Int) - n| ∧ (|(c : Int) - n| = |(a : Int) - n| → a + c = 2 * n) := by
  rcases abs_cases ((c : Int) - n) with hc | hc <;> rcases abs_cases ((a : Int) - n) with ha | ha <;> omega

/-- A finite rounded word is as near to the exact number as every other word, and even where another is as near. -/
theorem F32.roundUnits_nearest {num den m : Nat} (hd : 0 < den) (hf : F32.roundUnits num den < F32.infMag)
    (hm : m ≠ F32.roundUnits num den) :
    |((F32.units (F32.roundUnits num den) * den : Nat) : Int) - num| ≤ |((F32.units m * den : Nat) : Int) - num| ∧
      (|((F32.units (F32.roundUnits num den) * den : Nat) : Int) - num| = |((F32.units m * den : Nat) : Int) - num| →
        F32.roundUnits num den % 2 = 0) := by
  have hiff := fun k => F32.lt_roundUnits_iff (num := num) (m := k) hd
  generalize F32.roundUnits num den = r at *
  simp only [add_mul] at hiff
  have hscale : StrictMono fun k => F32.units k * den := F32.units_strictMono.mul_const hd
  rcases lt_or_gt_of_ne hm with hlt | hgt
  · -- from below: the midpoint under `r` is not above the number
    obtain ⟨k, rfl⟩ : ∃ k, r = k + 1 := ⟨r - 1, by omega⟩
    have hmid := (hiff k (by omega)).1 (by omega)
    have hmk : F32.units m * den ≤ F32.units k * den := hscale.monotone (by omega)
    have hmr : F32.units m * den < F32.units (k + 1) * den := hscale hlt
    obtain ⟨hle, heq⟩ := abs_sub_le_of_midpoint (Or.inl ⟨hmr, by omega⟩ : _ ∨ _ ∧ 2 * num ≤ _)
    exact ⟨hle, fun h => by have := heq h; omega⟩
  · -- from above: the midpoint over `r` is not below the number
    have hmid := (hiff r hf).not.1 (by omega)
    have hmr : F32.units (r + 1) * den ≤ F32.units m * den := hscale.monotone hgt
    have hrm : F32.units r * den < F32.units m * den := hscale hgt
    obtain ⟨hle, heq⟩ := abs_sub_le_of_midpoint (Or.inr ⟨hrm, by omega⟩ : _ ∧ _ ≤ 2 * num ∨ _)
    exact ⟨hle, fun h => by have := heq h; omega⟩

/-! The signed result. -/

theorem F32.abs_val (a : Word) : |F32.val a| = F32.units (F32.mag a) := by
  rw [Int.abs_eq_natAbs, F32.val_natAbs]

/-- The distance of a datum to a number of the same sign is that of their magnitudes. -/
theorem F32.abs_val_mul_sub {a : Word} {x : Int} (d : Nat) (h : x ≠ 0 → (F32.sign a = true ↔ x < 0))
    (h0 : x = 0 → F32.val a = 0) :
    |F32.val a * d - x| = |((F32.units (F32.mag a) * d : Nat) : Int) - x.natAbs| := by
  by_cases hx : x = 0
  · subst hx
    have hu := F32.abs_val a
    rw [h0 rfl] at hu ⊢
    simp [← hu]
  · rw [F32.val]
    by_cases hs : F32.sign a = true
    · rw [if_pos hs, ← abs_neg, Int.ofNat_natAbs_of_nonpos ((h hx).1 hs).le]
      push_cast; congr 1; ring
    · rw [if_neg hs, Int.natAbs_of_nonneg (not_lt.1 ((h hx).not.1 hs))]
      push_cast; rfl

/-- The distance of the magnitudes of a datum and a number is at most their own. -/
theorem F32.abs_units_sub_le (c : Word) (x : Int) (d : Nat) :
    |((F32.units (F32.mag c) * d : Nat) : Int) - x.natAbs| ≤ |F32.val c * d - x| := by
  have h := abs_abs_sub_abs_le (F32.val c * d) x
  rwa [abs_mul, F32.abs_val, Nat.abs_cast, Int.abs_eq_natAbs x, ← Nat.cast_mul] at h

/-- Of two data of one magnitude that are equally near to a number that is not zero, both are the same. -/
theorem F32.val_eq_of_mag_eq {a c : Word} {x : Int} {d : Nat} (hd : 0 < d) (hx : x ≠ 0) (hm : F32.mag c = F32.mag a)
    (h : |F32.val a * d - x| = |F32.val c * d - x|) : F32.val c = F32.val a := by
  have habs : |F32.val c| = |F32.val a| := by rw [F32.abs_val, F32.abs_val, hm]
  rcases abs_eq_abs.1 habs with heq | hneg
  · exact heq
  · have hd' : (d : Int) ≠ 0 := by omega
    have hz : F32.val a = 0 := by
      rw [hneg] at h
      rcases abs_eq_abs.1 h with h | h
      · have : F32.val a * d = 0 := by linarith
        exact (mul_eq_zero.1 this).resolve_right hd'
      · exact absurd (by linarith) hx
    rw [hneg, hz, neg_zero]

/-- A magnitude rounded, with the sign of the exact result, is the nearest datum to it. The sign of a zero is free. -/
theorem F32.nearestEven_ofParts {s : Bool} {x : Int} {den : Nat} (hd : 0 < den) (hs : x ≠ 0 → (s = true ↔ x < 0)) :
    NearestEven (F32.ofParts s (F32.roundUnits x.natAbs den)) x den := by
  have hlt := F32.roundUnits_lt x.natAbs den
  have hzero : x = 0 → F32.roundUnits x.natAbs den = 0 := fun h => by rw [h]; exact F32.roundUnits_zero hd
  have hnear := fun m => F32.roundUnits_nearest (num := x.natAbs) (m := m) hd
  have hinf := F32.roundUnits_lt_infMag_iff (num := x.natAbs) hd
  have hnan := F32.isNaN_ofParts s (F32.roundUnits_le_infMag x.natAbs den)
  have hsign := F32.sign_ofParts s hlt
  have hmag := F32.mag_ofParts s hlt
  generalize F32.ofParts s (F32.roundUnits x.natAbs den) = r at *
  rw [← hmag] at hzero hnear hinf
  have hfin : F32.isFinite r = true ↔ F32.mag r < F32.infMag := decide_eq_true_iff
  refine ⟨hnan, ?_, fun hr => hsign ▸ hs fun hx => ?_, fun hr c _ => ?_⟩
  · rw [hfin, hinf, Int.abs_eq_natAbs]
    omega
  · rw [← Bool.not_eq_true, hfin, hzero hx] at hr
    exact hr (by decide)
  · have hval : |F32.val r * den - x| = |((F32.units (F32.mag r) * den : Nat) : Int) - x.natAbs| :=
      F32.abs_val_mul_sub den (hsign ▸ hs) fun hx => by
        rw [← abs_eq_zero, F32.abs_val, hzero hx, F32.units_zero, Nat.cast_zero]
    have hle := F32.abs_units_sub_le c x den
    by_cases hm : F32.mag c = F32.mag r
    · rw [hm, ← hval] at hle
      refine ⟨hle, fun heq hne => ?_⟩
      by_cases hx : x = 0
      · rw [hzero hx]
      · exact absurd (F32.val_eq_of_mag_eq hd hx hm heq) hne
    · obtain ⟨hnle, heven⟩ := hnear _ (hfin.1 hr) hm
      rw [← hval] at hnle heven
      exact ⟨hnle.trans hle, fun heq _ => heven (le_antisymm hnle (heq ▸ hle))⟩

/-! The operations on finite data. -/

/-- The sum of two finite data, whatever the NaN case is. -/
theorem F32.nearestEven_addWith {nan a b : Word} (ha : F32.isFinite a = true) (hb : F32.isFinite b = true) :
    NearestEven (F32.addWith nan a b) (F32.val a + F32.val b) 1 := by
  rw [F32.addWith, F32.isInf_of_finite ha, F32.isInf_of_finite hb, if_neg Bool.false_ne_true,
    if_neg Bool.false_ne_true]
  split
  case isTrue h =>
    have := F32.nearestEven_ofParts (s := F32.sign a && F32.sign b) (x := 0) one_pos (absurd rfl)
    rwa [Int.natAbs_zero, F32.roundUnits_zero one_pos, ← h] at this
  case isFalse => exact F32.nearestEven_ofParts one_pos fun _ => decide_eq_true_iff

theorem F32.nearestEven_add {a b : Word} (ha : F32.isFinite a = true) (hb : F32.isFinite b = true) :
    NearestEven (F32.add a b) (F32.val a + F32.val b) 1 := by
  rw [F32.add, F32.isNaN_of_finite ha, F32.isNaN_of_finite hb]
  exact F32.nearestEven_addWith ha hb

theorem F32.nearestEven_sub {a b : Word} (ha : F32.isFinite a = true) (hb : F32.isFinite b = true) :
    NearestEven (F32.sub a b) (F32.val a - F32.val b) 1 := by
  rw [F32.sub, F32.isNaN_of_finite ha, F32.isNaN_of_finite hb, sub_eq_add_neg, ← F32.val_neg]
  exact F32.nearestEven_addWith ha (by rwa [F32.isFinite_neg])

/-- The sign that `mul` and `div` give their results. -/
theorem F32.sign_bne_iff {a b : Word} (ha : F32.val a ≠ 0) (hb : F32.val b ≠ 0) :
    (F32.sign a != F32.sign b) = true ↔ 0 < F32.val a ∧ F32.val b < 0 ∨ F32.val a < 0 ∧ 0 < F32.val b := by
  rw [bne_iff_ne, ne_eq, Bool.eq_iff_iff, ← F32.val_neg_iff ha, ← F32.val_neg_iff hb]
  omega

theorem F32.nearestEven_mul {a b : Word} (ha : F32.isFinite a = true) (hb : F32.isFinite b = true) :
    NearestEven (F32.mul a b) (F32.val a * F32.val b) (2 ^ 149) := by
  rw [F32.mul, F32.isNaN_of_finite ha, F32.isNaN_of_finite hb, F32.isInf_of_finite ha, F32.isInf_of_finite hb,
    ← F32.val_natAbs, ← F32.val_natAbs, ← Int.natAbs_mul]
  refine F32.nearestEven_ofParts (by positivity) fun hx => ?_
  obtain ⟨ha0, hb0⟩ := mul_ne_zero_iff.1 hx
  rw [F32.sign_bne_iff ha0 hb0, mul_neg_iff]

/-- The quotient is formed over the magnitude of the divisor, whose sign moves to the dividend. -/
theorem F32.nearestEven_div {a b : Word} (ha : F32.isFinite a = true) (hb : F32.isFinite b = true)
    (h0 : F32.val b ≠ 0) :
    NearestEven (F32.div a b) (F32.val a * 2 ^ 149 * (F32.val b).sign) (F32.val b).natAbs := by
  have hmag : F32.mag b ≠ 0 := fun h => h0 (by rw [← Int.natAbs_eq_zero, F32.val_natAbs, h, F32.units_zero])
  have hnum : (F32.val a * 2 ^ 149 * (F32.val b).sign).natAbs = F32.units (F32.mag a) * 2 ^ 149 := by
    rw [Int.natAbs_mul, Int.natAbs_mul, F32.val_natAbs, Int.natAbs_sign_of_ne_zero h0, mul_one]
    rfl
  rw [F32.div, F32.isNaN_of_finite ha, F32.isNaN_of_finite hb, F32.isInf_of_finite ha, F32.isInf_of_finite hb,
    if_neg hmag, ← hnum, ← F32.val_natAbs b]
  refine F32.nearestEven_ofParts (Int.natAbs_pos.2 h0) fun hx => ?_
  have ha0 : F32.val a ≠ 0 := left_ne_zero_of_mul (left_ne_zero_of_mul hx)
  rw [F32.sign_bne_iff ha0 h0, mul_neg_iff, Int.sign_neg_iff, Int.sign_pos_iff]
  omega

end Sys2Proof.Machine

section

open Sys2Proof Sys2Proof.Machine

/-- Settles O13: each operation rounds the magnitude of its exact result once and gives it the result's sign. -/
theorem floatOperationsRoundToNearestEven : Obligations.FloatOperationsRoundToNearestEven := fun _ _ ha hb =>
  ⟨F32.nearestEven_add ha hb, F32.nearestEven_sub ha hb, F32.nearestEven_mul ha hb, F32.nearestEven_div ha hb⟩

end
end

section
/-! SUPPORT. The constants of profile F32 and the sine of both profiles (R9). -/

namespace Sys2Proof.Machine

/-- `SINF` lies between `lit(-1)` and `lit(1)`. -/
theorem F32.sin2pi_bounds (p : Word) :
    Machine.f32.le Machine.f32.negOne (F32.sin2pi p) = true ∧ Machine.f32.le (F32.sin2pi p) Machine.f32.one = true := by
  obtain ⟨hf, hlo, hhi⟩ := F32.sinf_facts (F32.mul F32.twoPi p)
  obtain ⟨hf1, hv1⟩ := F32.one_facts
  obtain ⟨hfn, hvn⟩ := F32.negOne_facts
  have hn := F32.isNaN_of_finite hf
  exact ⟨F32.le_iff.2 ⟨F32.isNaN_of_finite hfn, hn, hvn ▸ hlo⟩, F32.le_iff.2 ⟨hn, F32.isNaN_of_finite hf1, hv1 ▸ hhi⟩⟩

/-- `TWO_PI` times `+0` is `+0`, where `SINF` is `+0` by definition. -/
theorem F32.sin2pi_zero : F32.sin2pi 0#32 = 0#32 := by
  have h : F32.mul F32.twoPi 0#32 = 0#32 := by decide
  rw [F32.sin2pi, h, F32.sinf, if_pos rfl]

/-- The period 1: the phase less its floor does not change. -/
theorem Exact.sin2pi_add_one (p : Rat) : Exact.sin2pi (p + 1) = Exact.sin2pi p := by
  have h : p + 1 - (p + 1).floor = p - p.floor := by
    have hf : (p + 1).floor = p.floor + 1 := Int.floor_add_one p
    rw [hf]; push_cast; ring
  rw [Exact.sin2pi, h, Exact.sin2pi]

/-- In the first period the phase is its own fraction. -/
theorem Exact.sin2pi_eq_sineUnit {p : Rat} (h0 : 0 ≤ p) (h1 : p < 1) : Exact.sin2pi p = Exact.sineUnit p := by
  have hf : p.floor = 0 := Int.floor_eq_zero_iff.2 ⟨h0, h1⟩
  rw [Exact.sin2pi, hf, Int.cast_zero, sub_zero]

/-- The values R9 lists inside one period. -/
theorem Exact.sin2pi_listed :
    Exact.sin2pi 0 = 0 ∧ Exact.sin2pi (1 / 2) = 0 ∧ Exact.sin2pi (1 / 4) = 1 ∧ Exact.sin2pi (3 / 4) = -1 ∧
      Exact.sin2pi (1 / 12) = 1 / 2 ∧ Exact.sin2pi (5 / 12) = 1 / 2 ∧
      Exact.sin2pi (7 / 12) = -1 / 2 ∧ Exact.sin2pi (11 / 12) = -1 / 2 := by
  norm_num [Exact.sin2pi_eq_sineUnit, Exact.sineUnit, Rat.mkRat_eq_div]

/-- Profile REAL's range in the terms of the numerics record. -/
theorem real_sin2pi_bounds (p : Rat) :
    Machine.real.le Machine.real.negOne (Exact.sin2pi p) = true ∧
      Machine.real.le (Exact.sin2pi p) Machine.real.one = true := by
  rw [real_le, real_le, real_negOne, real_one]
  exact Exact.sin2pi_bounds p

end Sys2Proof.Machine

section

open Sys2Proof Sys2Proof.Machine

/-- Settles O11: each literal is rounded by evaluation. -/
theorem constantsOfProfileF32 : Obligations.ConstantsOfProfileF32 := by
  unfold Obligations.ConstantsOfProfileF32
  decide

/-- Settles O14: the range in each profile, `SINF(+0)`, the period, and the listed values, of which the one at 1 is that
at 0 a period later. -/
theorem sineOfTheTwoProfiles : Obligations.SineOfTheTwoProfiles := by
  obtain ⟨h0, h6, h3, h9, h1, h5, h7, h11⟩ := Exact.sin2pi_listed
  have h12 : Exact.sin2pi 1 = 0 := by simpa [h0] using Exact.sin2pi_add_one 0
  exact ⟨⟨F32.sin2pi_bounds, real_sin2pi_bounds⟩, F32.sin2pi_zero, Exact.sin2pi_add_one,
    h0, h6, h12, h3, h9, h1, h5, h7, h11⟩

end
end

section
/-! SUPPORT. Every step keeps the invariant of R24. -/

namespace Sys2Proof.Machine

variable {S : Type} [DecidableEq S]

/-! The invariant along each command (R24). -/

theorem EngineInv.processSample {N : Numerics S} (H : SafeNumerics N) {a b : Word} {e d : Engine S}
    (he : EngineInv N e) (h : processSample N a b e = .next d) : EngineInv N d := by
  obtain ⟨-, k⟩ | ⟨l, r, -, -, ⟨-, k⟩ | ⟨-, f, -, k⟩ | ⟨hr, e', o, hs, k⟩⟩ := processSample_cases N a b e <;>
    rw [k] at h <;> cases h
  · exact he.respond _ _ _
  · exact he.respond _ _ _
  · exact (he.sampleStep H hr hs).respond _ _ _

/-- A PROC past its checks keeps the invariant, whether it ends or a reset abandons it (R133, R170). -/
theorem EngineInv.runBlock {N : Numerics S} (H : SafeNumerics N) {n nch : Nat} {e d : Engine S} (he : EngineInv N e)
    (hr : e.ready = true) (hch : nch ≤ e.cfg.sbCh) (hlen : n ≤ e.cfg.sbLen) (h : runBlock N n nch e = .next d) :
    EngineInv N d := by
  obtain ⟨hgo, hab⟩ := (he.startBlock.respond .ok 0#32 0#32).blockLoop H n nch n (s := 0) hr
  unfold Machine.runBlock at h
  split at h
  case h_1 e' hl =>
    obtain ⟨hi, -, hc⟩ := hgo e' hl
    cases h
    exact hi.finishBlock _ (hc ▸ hch) (hc ▸ hlen)
  case h_2 e' hl =>
    obtain ⟨hi, hc⟩ := hab e' hl
    cases h
    exact hi.abandonBlock H (hc ▸ hch) (hc ▸ hlen)
  case h_3 => cases h

theorem EngineInv.processBlock {N : Numerics S} (H : SafeNumerics N) {n nch : Word} {e d : Engine S}
    (he : EngineInv N e) (h : processBlock N n nch e = .next d) : EngineInv N d := by
  obtain k | k | ⟨-, hch, hlen, hr, k⟩ := processBlock_cases N n nch e <;> rw [k] at h
  · cases h
    exact he.respond _ _ _
  · cases h
    exact he.respond _ _ _
  · exact he.runBlock H hr hch hlen h

theorem EngineInv.hostStore {N : Numerics S} {ch idx : Nat} {v : S} {e d : Engine S} (he : EngineInv N e)
    (h : hostStore N ch idx v e = .next d) : EngineInv N d := by
  unfold Machine.hostStore at h
  split at h
  case h_1 => cases h
  case h_2 e' hw =>
    cases h
    exact he.sbWrite hw

/-! The invariant along a step of the machine. -/

/-- Every state an outcome goes on to meets the invariant. -/
def KeepsInv (o : Host.Outcome State Fault Refusal) : Prop := ∀ s, o = .next s → StateInv s

theorem ActsOn.keepsInv_next {N : Numerics S} {inj : Engine S → State} (A : ActsOn N inj) {e : Engine S}
    (he : EngineInv N e) : KeepsInv (.next (inj e)) := by
  rintro _ ⟨⟩
  exact (A.inv e).2 he

theorem ActsOn.keepsInv_mapNext {N : Numerics S} {inj : Engine S → State} (A : ActsOn N inj)
    {o : Host.Outcome (Engine S) Fault Refusal} (h : ∀ d, o = .next d → EngineInv N d) : KeepsInv (mapNext inj o) := by
  intro s hs
  obtain ⟨d, hd, rfl⟩ := mapNext_eq_next hs
  exact (A.inv d).2 (h d hd)

theorem ActsOn.exec_keepsInv {N : Numerics S} {inj : Engine S → State} (A : ActsOn N inj) (H : SafeNumerics N)
    {e : Engine S} (he : EngineInv N e) (i : Instr) : KeepsInv (exec i (inj e)) := by
  cases i with
  | cfg a b => exact A.cfg a b e ▸ A.keepsInv_next (he.configure H a b)
  | setp id v => exact A.setp id v e ▸ A.keepsInv_next (he.setParam H id v)
  | getp id => exact A.getp id e ▸ A.keepsInv_next (he.getParam id)
  | smp a b => exact A.smp a b e ▸ A.keepsInv_mapNext fun _ => he.processSample H
  | proc n nch => exact A.proc n nch e ▸ A.keepsInv_mapNext fun _ => he.processBlock H

/-- The invariant is kept by whatever stands first at the port: nothing, a command word, a host store or a reset. -/
theorem ActsOn.step_keepsInv {N : Numerics S} {inj : Engine S → State} (A : ActsOn N inj) (H : SafeNumerics N)
    {e : Engine S} (he : EngineInv N e) : KeepsInv (step (inj e)) := by
  rw [step_cases A e]
  cases e.port with
  | nil => exact A.keepsInv_next he
  | cons act rest =>
    have hp := he.withPort rest
    cases act with
    | command w =>
      dsimp only
      cases decode w with
      | ok i => exact A.exec_keepsInv H hp i
      | error r => exact A.keepsInv_next (hp.respond _ _ _)
    | store ch idx v => exact A.keepsInv_mapNext fun _ => hp.hostStore
    | reset => exact A.keepsInv_next (EngineInv.powerOn H hp.config hp.samplesForm hp.samplesWithin)

end Sys2Proof.Machine

section

open Sys2Proof Sys2Proof.Machine

/-- Settles O56: the step lemma of the invariant, in the profile the state is in. -/
theorem everyStepKeepsTheInvariant : Obligations.EveryStepKeepsTheInvariant := by
  rintro ⟨e | e⟩ s' h hs
  · exact actsOn_f32.step_keepsInv f32_safe h s' hs
  · exact actsOn_real.step_keepsInv real_safe h s' hs

end
end

section
/-! SUPPORT. The registers that R25 leaves unspecified cannot be observed while no session is configured. -/

namespace Sys2Proof.Machine

variable {S : Type}

/-! What an idle core does not look at (R25, R85). -/

theorem SameWhileIdle.cfg {e e' : Engine S} (h : SameWhileIdle e e') : e'.cfg = e.cfg := by rw [h.same]

theorem SameWhileIdle.p {e e' : Engine S} (h : SameWhileIdle e e') : e'.p = e.p := by rw [h.same]

theorem SameWhileIdle.sb {e e' : Engine S} (h : SameWhileIdle e e') : e'.sb = e.sb := by rw [h.same]

theorem SameWhileIdle.sbExists_eq {e e' : Engine S} (h : SameWhileIdle e e') {ch idx : Nat} :
    sbExists e' ch idx = sbExists e ch idx := by
  rw [sbExists, sbExists, h.cfg]

theorem SameWhileIdle.port {e e' : Engine S} (h : SameWhileIdle e e') : e'.port = e.port := by rw [h.same]

theorem SameWhileIdle.idle_right {e e' : Engine S} (h : SameWhileIdle e e') : e'.ready = false := by
  rw [h.same]
  exact h.idle

theorem SameWhileIdle.withPort {e e' : Engine S} (h : SameWhileIdle e e') (rest : List (HostAct S)) :
    SameWhileIdle { e with port := rest } { e' with port := rest } :=
  ⟨h.idle, congrArg (fun d : Engine S => { d with port := rest }) h.same⟩

theorem SameWhileIdle.withSamples {e e' : Engine S} (h : SameWhileIdle e e') (m : Memory S) :
    SameWhileIdle { e with sb := m } { e' with sb := m } :=
  ⟨h.idle, congrArg (fun d : Engine S => { d with sb := m }) h.same⟩

theorem SameWhileIdle.respond {e e' : Engine S} (h : SameWhileIdle e e') (st : Status) (r0 r1 : Word) :
    SameWhileIdle (respond st r0 r1 e) (respond st r0 r1 e') :=
  ⟨h.idle, congrArg (Machine.respond st r0 r1) h.same⟩

theorem SameWhileIdle.setParamRegister {e e' : Engine S} (h : SameWhileIdle e e') (k : Param) (v : S) :
    SameWhileIdle (setParamRegister k v e) (setParamRegister k v e') :=
  ⟨h.idle, congrArg (Machine.setParamRegister k v) h.same⟩

theorem SameWhileIdle.setParam {e e' : Engine S} (h : SameWhileIdle e e') (N : Numerics S) (id : BitVec 3)
    (value : Word) : SameWhileIdle (setParam N id value e) (setParam N id value e') := by
  unfold Machine.setParam
  split
  · exact h.respond _ _ _
  · split
    · exact h.respond _ _ _
    · split
      · exact h.respond _ _ _
      · exact (h.setParamRegister _ _).respond _ _ _

theorem SameWhileIdle.getParam {e e' : Engine S} (h : SameWhileIdle e e') (N : Numerics S) (id : BitVec 3) :
    SameWhileIdle (getParam N id e) (getParam N id e') := by
  unfold Machine.getParam
  rw [h.p]
  split
  · exact h.respond _ _ _
  · exact h.respond _ _ _

/-- CFG writes every register left unspecified, whether it opens a session or fails (R80, R85). -/
theorem SameWhileIdle.configure_eq {e e' : Engine S} (h : SameWhileIdle e e') (N : Numerics S) (a b : Word) :
    configure N a b e = configure N a b e' := by
  rw [h.same]
  unfold configure
  dsimp only
  split <;> rfl

/-- The reset event writes every register left unspecified (R170). -/
theorem SameWhileIdle.powerOn_eq {e e' : Engine S} (h : SameWhileIdle e e') (N : Numerics S) :
    powerOn N e = powerOn N e' := by
  rw [h.same]
  rfl

/-! Outcomes that cannot be told apart. -/

/-- Two outcomes no observer can tell apart: the same fault, or engines that are equal or differ only in the unspecified
registers. -/
def Indistinct (inj : Engine S → State) (o o' : Host.Outcome State Fault Refusal) : Prop :=
  (∃ f, o = .fault f ∧ o' = .fault f) ∨
    ∃ d d', o = .next (inj d) ∧ o' = .next (inj d') ∧ (d = d' ∨ SameWhileIdle d d')

theorem Indistinct.of_eq (inj : Engine S → State) {d d' : Engine S} (h : d = d') :
    Indistinct inj (.next (inj d)) (.next (inj d')) := Or.inr ⟨d, d', rfl, rfl, Or.inl h⟩

theorem Indistinct.of_same (inj : Engine S → State) {d d' : Engine S} (h : SameWhileIdle d d') :
    Indistinct inj (.next (inj d)) (.next (inj d')) := Or.inr ⟨d, d', rfl, rfl, Or.inr h⟩

/-! The audio commands and the host's stores. -/

variable [DecidableEq S]

/-- An idle core answers SMP with an error that depends on the operands alone (R132, R153). -/
theorem processSample_of_idle (N : Numerics S) (a b : Word) :
    ∃ st, ∀ e, e.ready = false → processSample N a b e = .next (respond st 0#32 0#32 e) := by
  unfold processSample
  split
  · exact ⟨.errConfig, fun e h => by rw [h]; rfl⟩
  · exact ⟨.errIllegal, fun e _ => rfl⟩

/-- An idle core answers PROC with an error that depends on the operands and the configuration alone (R133, R155). -/
theorem processBlock_of_idle (N : Numerics S) (n nch : Word) (c : Config S) :
    ∃ st, ∀ e, e.cfg = c → e.ready = false → processBlock N n nch e = .next (respond st 0#32 0#32 e) := by
  by_cases hc : naturalOperand nch < 2 ∨ c.sbCh < naturalOperand nch ∨ c.sbLen < naturalOperand n
  · refine ⟨.errIllegal, fun e he _ => ?_⟩
    subst he
    unfold processBlock
    split
    · rfl
    · rw [if_pos (hc.resolve_left ‹_›)]; rfl
  · refine ⟨.errConfig, fun e he hr => ?_⟩
    subst he
    rw [not_or] at hc
    rw [processBlock, if_neg hc.1, if_neg hc.2, hr]
    rfl

theorem hostStore_of_exists (N : Numerics S) {ch idx : Nat} (v : S) {e : Engine S} (h : sbExists e ch idx = true) :
    hostStore N ch idx v e = .next { e with sb := Memory.write N.zero e.sb (ch, idx) v } := by
  rw [hostStore, sbWrite, if_pos h]

theorem hostStore_of_missing (N : Numerics S) {ch idx : Nat} (v : S) {e : Engine S} (h : ¬ sbExists e ch idx = true) :
    hostStore N ch idx v e = .fault .hostStoreRange := by
  rw [hostStore, sbWrite, if_neg h]

/-! Steps from two states that differ only in the unspecified registers. -/

theorem ActsOn.exec_indistinct {N : Numerics S} {inj : Engine S → State} (A : ActsOn N inj) {e e' : Engine S}
    (h : SameWhileIdle e e') (i : Instr) : Indistinct inj (exec i (inj e)) (exec i (inj e')) := by
  cases i with
  | cfg a b =>
    rw [A.cfg, A.cfg]
    exact .of_eq inj (h.configure_eq N a b)
  | setp id v =>
    rw [A.setp, A.setp]
    exact .of_same inj (h.setParam N id v)
  | getp id =>
    rw [A.getp, A.getp]
    exact .of_same inj (h.getParam N id)
  | smp a b =>
    obtain ⟨st, hst⟩ := processSample_of_idle N a b
    rw [A.smp, A.smp, hst e h.idle, hst e' h.idle_right]
    exact .of_same inj (h.respond st _ _)
  | proc n nch =>
    obtain ⟨st, hst⟩ := processBlock_of_idle N n nch e.cfg
    rw [A.proc, A.proc, hst e rfl h.idle, hst e' h.cfg h.idle_right]
    exact .of_same inj (h.respond st _ _)

theorem SameWhileIdle.hostStore_indistinct {e e' : Engine S} (h : SameWhileIdle e e') (N : Numerics S)
    (inj : Engine S → State) (ch idx : Nat) (v : S) :
    Indistinct inj (mapNext inj (hostStore N ch idx v e)) (mapNext inj (hostStore N ch idx v e')) := by
  by_cases hr : sbExists e ch idx = true
  · rw [hostStore_of_exists N v hr, hostStore_of_exists N v (h.sbExists_eq.trans hr), h.sb]
    exact .of_same inj (h.withSamples _)
  · rw [hostStore_of_missing N v hr, hostStore_of_missing N v (h.sbExists_eq ▸ hr)]
    exact Or.inl ⟨_, rfl, rfl⟩

/-- The two engines have the same port, so that the same act arrives at both. -/
theorem ActsOn.step_indistinct {N : Numerics S} {inj : Engine S → State} (A : ActsOn N inj) {e e' : Engine S}
    (h : SameWhileIdle e e') : Indistinct inj (step (inj e)) (step (inj e')) := by
  rw [step_cases A e, step_cases A e', h.port]
  cases e.port with
  | nil => exact .of_same inj h
  | cons act rest =>
    have hp := h.withPort rest
    cases act with
    | command w =>
      dsimp only
      cases decode w with
      | ok i => exact A.exec_indistinct hp i
      | error r => exact .of_same inj (hp.respond _ _ _)
    | store ch idx v => exact hp.hostStore_indistinct N inj ch idx v
    | reset => exact .of_eq inj (hp.powerOn_eq N)

end Sys2Proof.Machine

section

open Sys2Proof Sys2Proof.Machine

/-- Settles O27: the two engines see the same act, and each act either overwrites the unspecified registers or leaves
them unread. -/
theorem unspecifiedRegistersUnobservable : Obligations.UnspecifiedRegistersUnobservable :=
  bothProfiles_of fun _ _ _ _ A _ _ h => A.step_indistinct h

end
end

section
/-! SUPPORT. The state after power-on reset, its parameter defaults, and the configuration of the chip (R6, R12, R25). -/

namespace Sys2Proof.Machine

/-- The opaque `T_MAX` of the chip is a binary32 datum above `T_HI` and not above the largest finite one. -/
theorem chipConfig_tMax_gt : Machine.f32.gt chipConfig.tMax Machine.f32.tHi = true := by
  have hsteps := Config.tMaxSteps.isLt
  have htHi : Machine.f32.tHi = F32.ofParts false 0x3CF5C28F := by decide
  show F32.lt _ (F32.ofParts false (0x3CF5C290 + Config.tMaxSteps.val)) = true
  rw [htHi, F32.lt_iff, F32.val_ofParts _ (by decide), F32.val_ofParts _ (by omega), if_neg Bool.false_ne_true,
    if_neg Bool.false_ne_true, Nat.cast_lt]
  exact ⟨by decide, F32.isNaN_ofParts _ (by unfold F32.infMag; omega), F32.units_strictMono (by omega)⟩

theorem configOk_chipConfig : configOk Machine.f32 chipConfig := by
  have hram := Config.ramWordsPred.isLt
  have hlen := Config.sbLenPred.isLt
  refine ⟨chipConfig_tMax_gt, ?_, ?_, ?_, ?_, ?_⟩ <;> dsimp only [chipConfig] <;> omega

theorem paramDefaults_f32 :
    paramDefaults Machine.f32 = ⟨0x3F000000#32, 0#32, 0x3F000000#32, 0x3F000000#32, 0x3F000000#32⟩ := by decide

theorem paramDefaults_real : paramDefaults Machine.real = ⟨1 / 2, 0, 1 / 2, 1 / 2, 1 / 2⟩ := by
  rw [paramDefaults, real_table]
  rfl

/-- No word of the delay RAMs exists after reset, since `CAP = 0` (R25). -/
theorem dlRead_reset {S : Type} (N : Numerics S) (cfg : Config S) (c i : Nat) : dlRead N (Engine.reset N cfg) c i = none :=
  if_neg (Nat.not_lt_zero i)

end Sys2Proof.Machine

section

open Sys2Proof Sys2Proof.Machine

/-- Settles O12: each id is looked up, and the table is that of profile REAL. -/
theorem parameterTableAndIds : Obligations.ParameterTableAndIds :=
  ⟨rfl, rfl, rfl, rfl, rfl, rfl, rfl, rfl, real_table⟩

/-- Settles O25: the fields of `Engine.reset` with the defaults of each profile. -/
theorem resetValues : Obligations.ResetValues := by
  refine ⟨⟨_, rfl, paramDefaults_f32, ?_, rfl, rfl, dlRead_reset _ _⟩,
    fun cfg => ⟨_, rfl, rfl, paramDefaults_real, ?_, rfl, rfl, dlRead_reset _ _⟩⟩
  · decide
  · show (⟨Machine.real.zero, Machine.real.zero⟩ : Stereo Rat) = ⟨0, 0⟩
    rw [real_zero]

/-- Settles O57: the construction meets the invariant for every admitted configuration, and the chip's is one. -/
theorem resetMeetsTheInvariant : Obligations.ResetMeetsTheInvariant :=
  ⟨engineInv_reset f32_safe configOk_chipConfig, fun _ hc => engineInv_reset real_safe hc⟩

end
end

section
/-! SUPPORT. No sample enters an address (R47): the faults of INTERP and of the sample step, each by its cause, and what
two steps with the same timing share. -/

namespace Sys2Proof.Machine

variable {S : Type}

/-! What the read positions are computed from (R47, R91, R100 to R104). -/

/-- The head, the phase, the capacity, the sample rate and the parameters OFFSET and DEPTH fix the read positions. -/
theorem sameTiming.readPositions_eq (N : Numerics S) {e e' : Engine S} {q q' : Params S} (h : sameTiming e e')
    (hoff : q.phaseOffset = q'.phaseOffset) (hdep : q.chorusDepth = q'.chorusDepth) :
    readPositions N q e e = readPositions N q' e' e' := by
  obtain ⟨hcap, hwh, hfs, hphase⟩ := h
  have hphases : lfoPhases N q e = lfoPhases N q' e' := by rw [lfoPhases, lfoPhases, hphase, hoff]
  have hlfo : lfoAt N q = lfoAt N q' := by
    funext ph
    rw [lfoAt, lfoAt, hdep]
  have hwrap : wrapPosition N e = wrapPosition N e' := by
    unfold wrapPosition
    rw [hcap]
  have hpos : readPosition N e = readPosition N e' := by
    funext t
    rw [readPosition, readPosition, delaySamples, delaySamples, hwrap, hwh, hfs]
  rw [readPositions, readPositions, lfoEval, lfoEval, rdPos, rdPos, hphases, hlfo, hpos]

theorem sameTiming.nextPhase_eq (N : Numerics S) {e e' : Engine S} {q q' : Params S} (h : sameTiming e e')
    (hrate : q.chorusRate = q'.chorusRate) : nextPhase N q e = nextPhase N q' e' := by
  obtain ⟨-, -, hfs, hphase⟩ := h
  rw [nextPhase, nextPhase, hfs, hphase, hrate]

/-! When INTERP stops. -/

/-- INTERP stops on a channel where its position has no floor, or its first index lies beyond the buffer (R19, R111). -/
theorem interpAt_eq_error {N : Numerics S} {e : Engine S} {c : Nat} {rp : S} {f : Fault} :
    interpAt N e c rp = .error f ↔ N.floorNat rp = none ∧ f = .floorDomain ∨
      ∃ i, N.floorNat rp = some i ∧ e.cap ≤ normaliseIndex e.cap i ∧ f = .delayRange := by
  unfold interpAt splitPosition
  cases N.floorNat rp with
  | none => simp [eq_comm]
  | some i =>
    by_cases h : normaliseIndex e.cap i < e.cap
    · simp [dlRead_of_lt N c h, dlRead_of_lt N c (nextIndex_lt h), h]
    · have hnone : dlRead N e c (normaliseIndex e.cap i) = none := if_neg h
      simp [hnone, Nat.not_lt.1 h, eq_comm]

/-- INTERP stops on the left channel, or on the right one after the left one has completed (R110). -/
theorem interp_eq_error {N : Numerics S} {e : Engine S} {rp : Stereo S} {f : Fault} :
    interp N rp e = .error f ↔ interpAt N e 0 rp.left = .error f ∨
      (∀ g, interpAt N e 0 rp.left ≠ .error g) ∧ interpAt N e 1 rp.right = .error f := by
  unfold interp
  cases interpAt N e 0 rp.left with
  | error g => simp
  | ok l => cases interpAt N e 1 rp.right <;> simp

/-- Whether INTERP stops, and how, depends on the capacity and the positions, not on the words of the buffer. -/
theorem interp_stops_alike {N : Numerics S} {e e' : Engine S} {rp : Stereo S} {f : Fault} (h : e.cap = e'.cap) :
    interp N rp e = .error f ↔ interp N rp e' = .error f := by
  simp only [interp_eq_error, ne_eq, interpAt_eq_error, h]

/-! When a sample step stops. -/

variable [DecidableEq S]

/-- A sample step stops at DLWRITE, or at INTERP (R130). -/
theorem sampleStepWith_eq_error {N : Numerics S} {q : Params S} {x : Stereo S} {e : Engine S} {f : Fault} :
    sampleStepWith N q x e = .error f ↔ e.cap ≤ e.wh ∧ f = .delayRange ∨
      e.wh < e.cap ∧ interp N (readPositions N q e e) { e with dl := delayedRams N x e } = .error f := by
  cases hd : dlWriteStage N x e with
  | error g =>
    obtain ⟨hw, rfl⟩ := dlWriteStage_error hd
    simp [sampleStepWith, hd, hw, Nat.not_lt.2 hw, eq_comm]
  | ok e₁ =>
    obtain ⟨hw, rfl⟩ := dlWriteStage_eq_ok.1 hd
    have hi : interp N (readPositions N q { e with dl := delayedRams N x e }
        (phAdv N q { e with dl := delayedRams N x e })) (phAdv N q { e with dl := delayedRams N x e }) =
        interp N (readPositions N q e e) { e with dl := delayedRams N x e } := rfl
    simp only [sampleStepWith, hd, hi, hw, Nat.not_le.2 hw, true_and, false_and, false_or]
    cases interp N (readPositions N q e e) { e with dl := delayedRams N x e } <;> simp

/-! Two sample steps with the same timing. -/

theorem sameTiming.stops_alike {N : Numerics S} {e e' : Engine S} {q q' : Params S} {x x' : Stereo S} {f : Fault}
    (h : sameTiming e e') (hoff : q.phaseOffset = q'.phaseOffset) (hdep : q.chorusDepth = q'.chorusDepth) :
    sampleStepWith N q x e = .error f ↔ sampleStepWith N q' x' e' = .error f := by
  obtain ⟨hcap, hwh, -, -⟩ := id h
  have hi := interp_stops_alike (N := N) (rp := readPositions N q' e' e') (f := f)
    (e := { e with dl := delayedRams N x e }) (e' := { e' with dl := delayedRams N x' e' }) hcap
  rw [sampleStepWith_eq_error, sampleStepWith_eq_error, h.readPositions_eq N hoff hdep, hi, hcap, hwh]

theorem sameTiming.afterStep {e e' : Engine S} {q q' : Params S} (h : sameTiming e e')
    (hrate : q.chorusRate = q'.chorusRate) (N : Numerics S) (x x' y y' : Stereo S) :
    sameTiming (afterStep N q x y e) (afterStep N q' x' y' e') := by
  obtain ⟨hcap, hwh, hfs, -⟩ := id h
  exact ⟨hcap, congrArg₂ nextHead hcap hwh, hfs, h.nextPhase_eq N hrate⟩

/-- A sample step completes with every other of the same timing, and the timing is the same again. -/
theorem sameTiming.complete_alike {N : Numerics S} {e e' d : Engine S} {q q' : Params S} {x x' o : Stereo S}
    (h : sameTiming e e') (hoff : q.phaseOffset = q'.phaseOffset) (hdep : q.chorusDepth = q'.chorusDepth)
    (hrate : q.chorusRate = q'.chorusRate) (hs : sampleStepWith N q x e = .ok (d, o)) :
    ∃ d' o', sampleStepWith N q' x' e' = .ok (d', o') ∧ sameTiming d d' := by
  cases hs' : sampleStepWith N q' x' e' with
  | error f => cases hs.symm.trans ((h.stops_alike hoff hdep).2 hs')
  | ok p =>
    obtain ⟨d', o'⟩ := p
    obtain ⟨-, y, -, rfl, -⟩ := sampleStepWith_eq_ok.1 hs
    obtain ⟨-, y', -, rfl, -⟩ := sampleStepWith_eq_ok.1 hs'
    exact ⟨_, _, rfl, h.afterStep hrate N x x' y y'⟩

end Sys2Proof.Machine

section

open Sys2Proof Sys2Proof.Machine

/-- Settles O46: the positions and the faults are functions of the timing, and so is the timing after the step. -/
theorem addressesAreDataIndependent : Obligations.AddressesAreDataIndependent :=
  bothProfiles_of fun _ _ N _ _ _ _ _ _ _ _ h hoff hdep hrate =>
    ⟨h.readPositions_eq N hoff hdep, fun _ => (h.stops_alike hoff hdep).1, fun _ _ => h.complete_alike hoff hdep hrate⟩

end
end

section
/-! SUPPORT. The snapshot of an SMP (R41, R131), the head of the port (R38), and the host's stores between and inside
commands (R32, R61, R162). -/

namespace Sys2Proof.Machine

variable {S : Type} [DecidableEq S]

/-! The snapshot of an SMP. -/

omit [DecidableEq S] in
/-- Outside a PROC a snapshot holds, of each parameter, a value from the history of the latest PROC or the present one. -/
theorem snapshot_get_mem (e : Engine S) (k : Param) :
    (snapshot false e).get k ∈ (if e.cfg.paramStale then e.histCur.get k else []) ++ [e.p.get k] := by
  by_cases h : e.cfg.paramStale = true
  · have hmem := staleRead_mem false e k
    rw [staleValues, if_neg Bool.false_ne_true, List.nil_append] at hmem
    rw [snapshot, if_pos h, if_pos h, Params.get_tabulate]
    exact hmem
  · rw [snapshot, if_neg h, if_neg h]
    exact List.mem_cons_self

/-- Besides its snapshot, a sample step does not depend on the free values the snapshot used up, and it keeps the
responses (R130). -/
theorem sampleStep_eq_sampleStepWith {N : Numerics S} {b : Bool} {x o : Stereo S} {e e' : Engine S}
    (h : sampleStep N b x e = .ok (e', o)) :
    ∃ d, sampleStepWith N (snapshot b e) x e = .ok (d, o) ∧ d.responses = e.responses ∧
      e' = { d with fresh := e'.fresh } := by
  obtain ⟨hw, y, hy, rfl, rfl⟩ := sampleStep_eq_ok.1 h
  exact ⟨_, sampleStepWith_eq_ok.2 ⟨hw, y, hy, rfl, rfl⟩, rfl, rfl⟩

/-- An SMP that completes in a configured session has answered the outputs of its sample step (R132). -/
theorem processSample_eq_next {N : Numerics S} {a b : Word} {l r : S} {e e' : Engine S} (hr : e.ready = true)
    (ha : N.dec32 a = some l) (hb : N.dec32 b = some r) (h : processSample N a b e = .next e') :
    ∃ d o, sampleStep N false ⟨l, r⟩ e = .ok (d, o) ∧ e' = respondOk (N.enc32 o.left) (N.enc32 o.right) d := by
  cases hs : sampleStep N false ⟨l, r⟩ e with
  | error f => simp [processSample, ha, hb, hr, hs] at h
  | ok p =>
    rw [processSample_runs ha hb hr hs] at h
    cases h
    exact ⟨p.1, p.2, rfl, rfl⟩

/-! The head of the port. -/

/-- A command word that decodes and stands first at the port is executed (R38). -/
theorem ActsOn.step_of_command {N : Numerics S} {inj : Engine S → State} (A : ActsOn N inj) {e : Engine S}
    {w : CommandWord} {rest : List (HostAct S)} {i : Instr} (hp : e.port = .command w :: rest)
    (hd : decode w = .ok i) : step (inj e) = exec i (inj { e with port := rest }) := by
  rw [step_cases A e, hp]
  dsimp only
  rw [hd]

theorem decode_of_decodeTableWord {nbits w : Nat} {i : Instr} (h : decodeTableWord nbits w = some i) :
    decode (tableWord nbits w) = .ok i := by
  unfold decodeTableWord at h
  split at h
  · cases h
    assumption
  · cases h

/-! The host's stores. -/

/-- A host store to an existing element stands first at the port: the element is written (R32, R61). -/
theorem ActsOn.step_of_store {N : Numerics S} {inj : Engine S → State} (A : ActsOn N inj) {e : Engine S}
    {ch idx : Nat} {v : S} {rest : List (HostAct S)} (hp : e.port = .store ch idx v :: rest)
    (h : ch < e.cfg.sbCh ∧ idx < e.cfg.sbLen) :
    step (inj e) = .next (inj { e with port := rest, sb := Memory.write N.zero e.sb (ch, idx) v }) := by
  have hs := hostStore_of_exists N v (e := { e with port := rest }) (sbExists_iff.2 h)
  rw [step_cases A e, hp]
  exact congrArg (mapNext inj) hs

/-- A host store to no element of the sample buffer stands first at the port: the fault of log entry 16. -/
theorem ActsOn.step_of_store_missing {N : Numerics S} {inj : Engine S → State} (A : ActsOn N inj) {e : Engine S}
    {ch idx : Nat} {v : S} {rest : List (HostAct S)} (hp : e.port = .store ch idx v :: rest)
    (h : ¬(ch < e.cfg.sbCh ∧ idx < e.cfg.sbLen)) : step (inj e) = .fault .hostStoreRange := by
  have hs := hostStore_of_missing N v (e := { e with port := rest }) (mt sbExists_iff.1 h)
  rw [step_cases A e, hp]
  exact congrArg (mapNext inj) hs

/-- A host store in a gap puts a value at an existing element: outside the block the one the host says, and no free
value is used up (U13). -/
theorem gapStore_of_exists (N : Numerics S) (n nch : Nat) {ch idx : Nat} (v : S) {e : Engine S}
    (h : ch < e.cfg.sbCh ∧ idx < e.cfg.sbLen) :
    ∃ u fresh, (¬(ch < nch ∧ idx < n) → u = v ∧ fresh = e.fresh) ∧
      gapStore N n nch ch idx v e =
        some { e with sb := Memory.write N.zero e.sb (ch, idx) u, fresh := fresh } := by
  by_cases hin : ch < nch ∧ idx < n
  · refine ⟨N.free e.fresh, e.fresh + 1, fun hout => absurd hin hout, ?_⟩
    rw [gapStore, if_pos (by simpa [coversElement] using hin)]
    exact sbWrite_eq_some.2 ⟨h, rfl⟩
  · refine ⟨v, e.fresh, fun _ => ⟨rfl, rfl⟩, ?_⟩
    rw [gapStore_outside v e hin]
    exact sbWrite_eq_some.2 ⟨h, rfl⟩

/-- A gap that admits an act and finds a host store does it, and then what is left of its acts (R162). -/
theorem hostGap_of_store {N : Numerics S} {n nch g ch idx : Nat} {gs : List Nat} {v : S} {rest : List (HostAct S)}
    {e d : Engine S} (hg : e.gaps = (g + 1) :: gs) (hp : e.port = .store ch idx v :: rest)
    (hs : gapStore N n nch ch idx v { e with port := rest, gaps := gs } = some d) :
    hostGap N n nch e = hostActs N n nch g d := by
  simp only [hostGap, hg, List.headD_cons, List.tail_cons, hostActs, hp, hs]

/-- A PROC looks at the engine through its next gap. -/
theorem blockLoop_eq_of_hostGap_eq {N : Numerics S} {n nch : Nat} (left s : Nat) {e d : Engine S}
    (h : hostGap N n nch e = hostGap N n nch d) : blockLoop N n nch left s e = blockLoop N n nch left s d := by
  cases left with
  | zero => exact h
  | succ left => rw [blockLoop, blockLoop, h]

end Sys2Proof.Machine

section

open Sys2Proof Sys2Proof.Machine

/-- Settles O20: the snapshot is the one the SMP took, and the step is the one it did. -/
theorem sampleStepReadsHeldValues : Obligations.SampleStepReadsHeldValues :=
  bothProfiles_of fun _ _ N _ A e e' a b _ _ hr ha hb h => by
    rw [A.smp a b e] at h
    obtain ⟨d₁, o, hs, rfl⟩ := processSample_eq_next hr ha hb (A.next_inj h)
    obtain ⟨d, hd, hresp, heq⟩ := sampleStep_eq_sampleStepWith hs
    refine ⟨snapshot false e, d, o, snapshot_get_mem e, hd, ?_⟩
    rw [heq, ← hresp]
    rfl

/-- Settles O7: the step takes the word off the port; a presented word stands before all else there. -/
theorem stepRunsDecodedCommand : Obligations.StepRunsDecodedCommand := by
  refine ⟨bothProfiles_of fun _ _ _ _ A _ _ _ _ hp hd => A.step_of_command hp hd, ?_⟩
  rintro ⟨e | e⟩ nbits w i h
  · exact actsOn_f32.step_of_command rfl (decode_of_decodeTableWord h)
  · exact actsOn_real.step_of_command rfl (decode_of_decodeTableWord h)

/-- Settles O10: the store is a write to a canonical memory, or finds no element. -/
theorem hostStoreChangesOneElement : Obligations.HostStoreChangesOneElement :=
  bothProfiles_of fun _ _ _ _ A _ _ _ v _ hp hwf =>
    ⟨fun hin => ⟨_, A.step_of_store hp hin, Memory.read_write_same _ v hwf, fun _ => Memory.read_write_other _ _ v⟩,
      A.step_of_store_missing hp⟩

/-- Settles O54: the gap does the store, and the loop goes on from there. -/
theorem hostStoreInAGap : Obligations.HostStoreInAGap :=
  bothProfiles_of fun _ _ N _ _ e n nch left s _ gs _ _ v rest hg hp hch hidx => by
    obtain ⟨u, fresh, hu, hs⟩ := gapStore_of_exists N n nch v (e := { e with port := rest, gaps := gs }) ⟨hch, hidx⟩
    exact ⟨u, fresh, hu, blockLoop_eq_of_hostGap_eq left s (hostGap_of_store hg hp hs)⟩

end
end

section
/-! SUPPORT. The decoder by the fields of the word: the command it answers, its three reasons for rejection, and the rows
of R52's table a word selects (R50, R52, R56, R57). -/

namespace Sys2Proof

/-! What the decoder answers, by the opcode. -/

theorem decode_cases (w : CommandWord) :
    ((opField w = 0x00#8 ∨ 6 ≤ (opField w).toNat) ∧ decode w = .error .reservedOpcode) ∨
      (opField w = 0x01#8 ∧ decode w = .ok (.cfg (aField w) (bField w))) ∨
      (opField w = 0x02#8 ∧ decode w = decodeSetp (aField w) (bField w)) ∨
      (opField w = 0x03#8 ∧ decode w = decodeGetp (aField w) (bField w)) ∨
      (opField w = 0x04#8 ∧ decode w = .ok (.smp (aField w) (bField w))) ∨
      (opField w = 0x05#8 ∧ decode w = .ok (.proc (aField w) (bField w))) := by
  by_cases h1 : opField w = 0x01#8
  · simp [decode, h1]
  by_cases h2 : opField w = 0x02#8
  · simp [decode, h2]
  by_cases h3 : opField w = 0x03#8
  · simp [decode, h3]
  by_cases h4 : opField w = 0x04#8
  · simp [decode, h4]
  by_cases h5 : opField w = 0x05#8
  · simp [decode, h5]
  have hop : opField w = 0x00#8 ∨ 6 ≤ (opField w).toNat := by bv_omega
  simp [decode, h1, h2, h3, h4, h5, hop]

/-- Ids 5, 6 and 7 name no parameter (R54). -/
theorem idExists_eq_false {id : BitVec 3} : idExists id = false ↔ 5 ≤ id.toNat := by
  simp [idExists, Nat.succ_le_iff]

theorem decodeSetp_eq_ok {a b : Word} {i : Instr} :
    decodeSetp a b = .ok i ↔ reservedField a = 0#29 ∧ idExists (idField a) = true ∧ i = .setp (idField a) b := by
  unfold decodeSetp
  split_ifs <;> simp_all [eq_comm (a := i)]

theorem decodeGetp_eq_ok {a b : Word} {i : Instr} :
    decodeGetp a b = .ok i ↔
      reservedField a = 0#29 ∧ b = 0#32 ∧ idExists (idField a) = true ∧ i = .getp (idField a) := by
  unfold decodeGetp
  split_ifs <;> simp_all [eq_comm (a := i)]

theorem decodeSetp_eq_error {a b : Word} {r : Reject} :
    decodeSetp a b = .error r ↔
      reservedField a ≠ 0#29 ∧ r = .reservedField ∨
        reservedField a = 0#29 ∧ 5 ≤ (idField a).toNat ∧ r = .noSuchParameter := by
  rw [← idExists_eq_false]
  unfold decodeSetp
  split_ifs <;> simp_all [eq_comm (a := r)]

theorem decodeGetp_eq_error {a b : Word} {r : Reject} :
    decodeGetp a b = .error r ↔
      (reservedField a ≠ 0#29 ∨ b ≠ 0#32) ∧ r = .reservedField ∨
        reservedField a = 0#29 ∧ b = 0#32 ∧ 5 ≤ (idField a).toNat ∧ r = .noSuchParameter := by
  rw [← idExists_eq_false]
  unfold decodeGetp
  split_ifs <;> simp_all [eq_comm (a := r)]

/-! Decoding and encoding. -/

theorem decode_encode {i : Instr} (h : i.wf = true) : decode (encode i) = .ok i := by
  cases i with
  | cfg rate block => simp [encode, decode]
  | setp id value => simpa [encode, decode, decodeSetp_eq_ok, Instr.wf] using h
  | getp id => simpa [encode, decode, decodeGetp_eq_ok, Instr.wf] using h
  | smp left right => simp [encode, decode]
  | proc n nch => simp [encode, decode]

theorem commandWord_of_opField {w : CommandWord} {op : BitVec 8} (h : opField w = op) :
    commandWord op (aField w) (bField w) = w := h ▸ commandWord_fields w

theorem encode_of_decode {w : CommandWord} {i : Instr} (h : decode w = .ok i) : i.wf = true ∧ encode i = w := by
  obtain ⟨-, hd⟩ | ⟨hop, hd⟩ | ⟨hop, hd⟩ | ⟨hop, hd⟩ | ⟨hop, hd⟩ | ⟨hop, hd⟩ := decode_cases w <;> rw [hd] at h
  · cases h
  · cases h
    exact ⟨rfl, commandWord_of_opField hop⟩
  · obtain ⟨hres, hid, rfl⟩ := decodeSetp_eq_ok.1 h
    refine ⟨hid, ?_⟩
    rw [encode, idOperand_of_reserved hres, commandWord_of_opField hop]
  · obtain ⟨hres, hb, hid, rfl⟩ := decodeGetp_eq_ok.1 h
    refine ⟨hid, ?_⟩
    rw [encode, idOperand_of_reserved hres, ← hb, commandWord_of_opField hop]
  · cases h
    exact ⟨rfl, commandWord_of_opField hop⟩
  · cases h
    exact ⟨rfl, commandWord_of_opField hop⟩

/-! Why a word is rejected. -/

theorem decode_eq_reservedOpcode {w : CommandWord} :
    decode w = .error .reservedOpcode ↔ opField w = 0x00#8 ∨ 6 ≤ (opField w).toNat := by
  obtain ⟨hop, hd⟩ | ⟨hop, hd⟩ | ⟨hop, hd⟩ | ⟨hop, hd⟩ | ⟨hop, hd⟩ | ⟨hop, hd⟩ := decode_cases w <;>
    simp [hd, hop, decodeSetp_eq_error, decodeGetp_eq_error]

theorem decode_eq_reservedField {w : CommandWord} :
    decode w = .error .reservedField ↔
      (opField w = 0x02#8 ∧ reservedField (aField w) ≠ 0#29) ∨
        (opField w = 0x03#8 ∧ (reservedField (aField w) ≠ 0#29 ∨ bField w ≠ 0#32)) := by
  obtain ⟨hop, hd⟩ | ⟨hop, hd⟩ | ⟨hop, hd⟩ | ⟨hop, hd⟩ | ⟨hop, hd⟩ | ⟨hop, hd⟩ := decode_cases w
  · have h2 : opField w ≠ 0x02#8 := by bv_omega
    have h3 : opField w ≠ 0x03#8 := by bv_omega
    simp [hd, h2, h3]
  all_goals simp [hd, hop, decodeSetp_eq_error, decodeGetp_eq_error]

theorem decode_eq_noSuchParameter {w : CommandWord} :
    decode w = .error .noSuchParameter ↔
      reservedField (aField w) = 0#29 ∧ 5 ≤ (idField (aField w)).toNat ∧
        (opField w = 0x02#8 ∨ (opField w = 0x03#8 ∧ bField w = 0#32)) := by
  obtain ⟨hop, hd⟩ | ⟨hop, hd⟩ | ⟨hop, hd⟩ | ⟨hop, hd⟩ | ⟨hop, hd⟩ | ⟨hop, hd⟩ := decode_cases w
  · have h2 : opField w ≠ 0x02#8 := by bv_omega
    have h3 : opField w ≠ 0x03#8 := by bv_omega
    simp [hd, h2, h3]
  all_goals simp [hd, hop, decodeSetp_eq_error, decodeGetp_eq_error, and_comm]

/-- R56's cases, by the fields of the word. -/
theorem illegalWord_iff_fields {w : CommandWord} :
    Machine.illegalWord w ↔
      opField w = 0x00#8 ∨ 6 ≤ (opField w).toNat ∨
        ((opField w = 0x02#8 ∨ opField w = 0x03#8) ∧ reservedField (aField w) ≠ 0#29) ∨
        (opField w = 0x03#8 ∧ bField w ≠ 0#32) ∨
        ((opField w = 0x02#8 ∨ opField w = 0x03#8) ∧ 5 ≤ (idField (aField w)).toNat) := by
  rw [← (formatP_fields w).1, ← (formatP_fields w).2]
  rfl

theorem illegalWord_iff_decode_eq_error {w : CommandWord} :
    Machine.illegalWord w ↔ ∃ r, decode w = .error r := by
  have hr : (∃ r, decode w = .error r) ↔ decode w = .error .reservedOpcode ∨ decode w = .error .reservedField ∨
      decode w = .error .noSuchParameter := by
    constructor
    · rintro ⟨_ | _ | _, h⟩ <;> simp [h]
    · rintro (h | h | h) <;> exact ⟨_, h⟩
  rw [hr, illegalWord_iff_fields, decode_eq_reservedOpcode, decode_eq_reservedField, decode_eq_noSuchParameter]
  tauto

theorem exists_decode_iff_not_illegalWord {w : CommandWord} : (∃ i, decode w = .ok i) ↔ ¬ Machine.illegalWord w := by
  rw [illegalWord_iff_decode_eq_error]
  cases decode w <;> simp

/-! The rows of the opcode table. -/

theorem opField_and (w m : CommandWord) : opField (w &&& m) = opField w &&& opField m := by
  unfold opField
  ext i hi
  simp

/-- Every row's mask covers the opcode: a word that selects it has the opcode of its match. -/
theorem opField_of_selects {r : OpcodeRow} {w : CommandWord} (hr : r ∈ opcodeTable) (h : r.selects w = true) :
    opField w = opField r.pattern := by
  have hm : ∀ r ∈ opcodeTable, opField r.mask = BitVec.allOnes 8 := by decide
  rw [← of_decide_eq_true h, opField_and, hm r hr, BitVec.and_allOnes]

/-- No two rows share an opcode. -/
theorem row_eq_of_opField_eq {r r' : OpcodeRow} (hr : r ∈ opcodeTable) (hr' : r' ∈ opcodeTable)
    (h : opField r.pattern = opField r'.pattern) : r = r' := by
  have hd : ∀ r ∈ opcodeTable, ∀ r' ∈ opcodeTable, opField r.pattern = opField r'.pattern → r = r' := by decide
  exact hd r hr r' hr' h

theorem row_mem_opcodeTable (i : Instr) : i.row ∈ opcodeTable := by
  cases i <;> simp [Instr.row, opcodeTable]

theorem row_selects_encode {i : Instr} (h : i.wf = true) : i.row.selects (encode i) = true := by
  cases i with
  | cfg rate block => exact Laws.TableMatch.cfg rate block h
  | setp id value => exact Laws.TableMatch.setp id value h
  | getp id => exact Laws.TableMatch.getp id h
  | smp left right => exact Laws.TableMatch.smp left right h
  | proc n nch => exact Laws.TableMatch.proc n nch h

theorem row_selects_of_decode {w : CommandWord} {i : Instr} (h : decode w = .ok i) : i.row.selects w = true := by
  obtain ⟨hwf, rfl⟩ := encode_of_decode h
  exact row_selects_encode hwf

/-! Parameter keys. -/

theorem idExists_idOfParam (k : Param) : idExists (Machine.idOfParam k) = true := by
  cases k <;> decide

end Sys2Proof

section

open Sys2Proof Sys2Proof.Machine

/-- Settles O2: the fields of the word are the operands. -/
theorem decodeOfEncodeIsTheCommand : Obligations.DecodeOfEncodeIsTheCommand := fun _ => decode_encode

/-- Settles O3: the decoder has checked the bits of the word that no operand holds. -/
theorem encodeOfDecodeIsTheWord : Obligations.EncodeOfDecodeIsTheWord := fun _ _ => encode_of_decode

/-- Settles O4: the rejected words are R56's, and the opcode of a word leaves it one row at most. -/
theorem decoderAgreesWithOpcodeTable : Obligations.DecoderAgreesWithOpcodeTable := fun _ =>
  ⟨exists_decode_iff_not_illegalWord, fun i hd =>
    have hi := row_mem_opcodeTable i
    have hs := row_selects_of_decode hd
    ⟨hi, hs, fun _ hr h => row_eq_of_opField_eq hr hi ((opField_of_selects hr h).symm.trans (opField_of_selects hi hs))⟩⟩

/-- Settles O5: one characterisation for each reason, with the reserved bits and the id at their places in the word. -/
theorem rejectionChecksInOrder : Obligations.RejectionChecksInOrder := fun w => by
  obtain ⟨hres, hid⟩ := formatP_fields w
  rw [hres, hid]
  exact ⟨decode_eq_reservedOpcode, decode_eq_reservedField, decode_eq_noSuchParameter⟩

/-- Settles O1: each word is decoded by evaluation. -/
theorem sampleWordsDecode : Obligations.SampleWordsDecode := by
  unfold Obligations.SampleWordsDecode
  decide

/-- Settles O6: the word of a line is the encoding of a command, well formed because its id is a key's. -/
theorem assembledLinesDecode : Obligations.AssembledLinesDecode :=
  ⟨fun rate block => decode_encode (i := .cfg rate.word block) rfl,
    fun k value => decode_encode (i := .setp (idOfParam k) value.word) (idExists_idOfParam k),
    fun k => decode_encode (i := .getp (idOfParam k)) (idExists_idOfParam k),
    fun left right => decode_encode (i := .smp left.word right.word) rfl,
    fun n nch => decode_encode (i := .proc n nch) rfl⟩

end
end

section
/-! SUPPORT. Responses along a step: each command taken off the port is answered once, an error with both results 0, and
the response word is put together like a command word (R51, R55, R150). -/

namespace Sys2Proof.Machine

variable {S : Type} [DecidableEq S]

/-! Illegal words and unknown ids. -/

theorem ActsOn.step_of_illegalWord {N : Numerics S} {inj : Engine S → State} (A : ActsOn N inj) {e : Engine S}
    {w : CommandWord} {rest : List (HostAct S)} (hp : e.port = .command w :: rest) (hw : illegalWord w) :
    step (inj e) = .next (inj (raiseIllegal { e with port := rest })) := by
  obtain ⟨r, hd⟩ := illegalWord_iff_decode_eq_error.1 hw
  rw [step_cases A e, hp]
  dsimp only
  rw [hd]

omit [DecidableEq S] in
theorem setParam_of_unknown (N : Numerics S) {id : BitVec 3} (v : Word) (e : Engine S) (h : paramOfId id = none) :
    setParam N id v e = raiseIllegal e := by
  rw [setParam, h]

omit [DecidableEq S] in
theorem getParam_of_unknown (N : Numerics S) {id : BitVec 3} (e : Engine S) (h : paramOfId id = none) :
    getParam N id e = raiseIllegal e := by
  rw [getParam, h]

/-! What a command owes. -/

/-- The engine `d` has answered what `e` owed: `owed` commands taken off the port and not yet answered. Only a reset at
the port upsets the balance (R170), and the responses given before are kept. -/
structure Answers {S : Type} (owed : Nat) (e d : Engine S) : Prop where
  balance : (∀ a ∈ e.port, a ≠ .reset) →
    d.responses.length + commandsWaiting d.port = e.responses.length + owed + commandsWaiting e.port
  news : ∃ new, d.responses = e.responses ++ new ∧ ∀ r ∈ new, r.plain

omit [DecidableEq S] in
theorem Answers.of_same {e d : Engine S} (hr : d.responses = e.responses) (hp : d.port = e.port) : Answers 0 e d :=
  ⟨fun _ => by rw [hr, hp, Nat.add_zero], [], by rw [hr, List.append_nil], fun _ h => absurd h List.not_mem_nil⟩

omit [DecidableEq S] in
/-- One response and an untouched port pay for one command. -/
theorem Answers.of_response {e d : Engine S} {r : Response} (hr : r.plain) (hd : d.responses = e.responses ++ [r])
    (hp : d.port = e.port) : Answers 1 e d := by
  refine ⟨fun _ => by rw [hd, hp, List.length_append, List.length_singleton], [r], hd, fun r' h => ?_⟩
  rwa [List.mem_singleton.1 h]

omit [DecidableEq S] in
theorem Answers.raiseIllegal (e : Engine S) : Answers 1 e (raiseIllegal e) :=
  .of_response (plain_zero .errIllegal) rfl rfl

omit [DecidableEq S] in
theorem Answers.raiseConfig (e : Engine S) : Answers 1 e (raiseConfig e) :=
  .of_response (plain_zero .errConfig) rfl rfl

omit [DecidableEq S] in
/-- Taking the oldest act off the port: a command is owed its response from then on. -/
theorem Answers.of_taken {owed : Nat} {act : HostAct S} {rest : List (HostAct S)} {e d : Engine S}
    (hp : e.port = act :: rest) (hc : act ≠ .reset → commandsWaiting e.port = owed + commandsWaiting rest)
    (h : Answers owed { e with port := rest } d) : Answers 0 e d := by
  refine ⟨fun hn => ?_, h.news⟩
  rw [hp] at hn
  have hb := h.balance fun a ha => hn a (List.mem_cons_of_mem _ ha)
  dsimp only at hb
  have hw := hc (hn act List.mem_cons_self)
  omega

/-! The commands. -/

omit [DecidableEq S] in
theorem Answers.setParam (N : Numerics S) (id : BitVec 3) (v : Word) (e : Engine S) :
    Answers 1 e (setParam N id v e) := by
  obtain ⟨r, hr, hd, hp⟩ := setParam_answers N id v e
  exact .of_response hr hd hp

omit [DecidableEq S] in
theorem Answers.getParam (N : Numerics S) (id : BitVec 3) (e : Engine S) : Answers 1 e (getParam N id e) := by
  obtain ⟨r, hr, hd, hp⟩ := getParam_answers N id e
  exact .of_response hr hd hp

omit [DecidableEq S] in
theorem Answers.configure (N : Numerics S) (a b : Word) (e : Engine S) : Answers 1 e (configure N a b e) := by
  obtain ⟨-, h⟩ | ⟨fs, cap, -, h⟩ := configure_cases N a b e <;> rw [h]
  · exact .of_response (plain_zero .errConfig) rfl rfl
  · exact .of_response (plain_zero .ok) rfl rfl

theorem Answers.processSample {N : Numerics S} {a b : Word} {e d : Engine S} (h : processSample N a b e = .next d) :
    Answers 1 e d := by
  obtain ⟨-, k⟩ | ⟨l, r, -, -, ⟨-, k⟩ | ⟨-, f, -, k⟩ | ⟨-, e', o, hs, k⟩⟩ := processSample_cases N a b e <;>
    rw [k] at h <;> cases h
  · exact .raiseIllegal e
  · exact .raiseConfig e
  · have hk := (sampleStep_keeps hs).1
    refine .of_response (plain_ok (N.enc32 o.left) (N.enc32 o.right)) ?_ ?_
    · rw [respondOk_responses, hk]
    · rw [respondOk_port, hk]

omit [DecidableEq S] in
/-- What a PROC takes off the port while it runs is answered there, so that its own response is all it owes. -/
theorem Answers.of_portTakes {e b d d' : Engine S} {r : Response} (hr : r.plain)
    (hb : b.responses = e.responses ++ [r]) (hp : b.port = e.port) (h : PortTakes b d)
    (hd : d'.responses = d.responses) (hdp : d'.port = d.port) : Answers 1 e d' := by
  refine ⟨fun _ => ?_, ?_⟩
  · rw [hd, hdp, h.balance, hb, hp, List.length_append, List.length_singleton]
  · obtain ⟨new, hnew, hplain⟩ := h.news
    refine ⟨r :: new, by rw [hd, hnew, hb, List.append_assoc, List.singleton_append], fun r' hr' => ?_⟩
    obtain rfl | hr' := List.mem_cons.1 hr'
    · exact hr
    · exact hplain r' hr'

/-- A PROC past its checks (R133); one that a reset abandons found that reset at the port and owes no response (R170). -/
theorem Answers.runBlock {N : Numerics S} {n nch : Nat} {e d : Engine S} (h : runBlock N n nch e = .next d) :
    Answers 1 e d := by
  obtain ⟨hgo, hab⟩ := blockLoop_takes N n nch n 0 (respondOk 0#32 0#32 (startBlock e))
  unfold Machine.runBlock at h
  split at h
  case h_1 e' hl =>
    cases h
    refine .of_portTakes (b := respondOk 0#32 0#32 (startBlock e)) (plain_zero .ok) rfl rfl (hgo e' hl) ?_ ?_ <;>
      rw [finishBlock_eq]
  case h_2 e' hl =>
    obtain ⟨b, hb, hreset, -⟩ := hab e' hl
    obtain ⟨acts, hacts, -⟩ := hb.taken
    cases h
    refine ⟨fun hn => absurd rfl (hn .reset ?_), [], (List.append_nil _).symm, fun _ hr => absurd hr List.not_mem_nil⟩
    have hport : e.port = acts ++ b.port := hacts
    rw [hport, hreset]
    exact List.mem_append_right _ List.mem_cons_self
  case h_3 => cases h

theorem Answers.processBlock {N : Numerics S} {n nch : Word} {e d : Engine S} (h : processBlock N n nch e = .next d) :
    Answers 1 e d := by
  obtain k | k | ⟨-, -, -, -, k⟩ := processBlock_cases N n nch e <;> rw [k] at h
  · cases h
    exact .raiseIllegal e
  · cases h
    exact .raiseConfig e
  · exact .runBlock h

/-- A host store answers nothing. -/
theorem Answers.hostStore {N : Numerics S} {ch idx : Nat} {v : S} {e d : Engine S} (h : hostStore N ch idx v e = .next d) :
    Answers 0 e d := by
  unfold Machine.hostStore at h
  split at h
  case h_1 => cases h
  case h_2 e' hw =>
    cases h
    obtain ⟨-, rfl⟩ := sbWrite_eq_some.1 hw
    exact .of_same rfl rfl

/-- Every command answers what it owes: itself, and what it takes off the port. -/
theorem ActsOn.exec_answers {N : Numerics S} {inj : Engine S → State} (A : ActsOn N inj) {i : Instr} {e d : Engine S}
    (h : exec i (inj e) = .next (inj d)) : Answers 1 e d := by
  cases i with
  | cfg a b =>
    rw [A.cfg] at h
    exact A.next_eq h ▸ .configure N a b e
  | setp id v =>
    rw [A.setp] at h
    exact A.next_eq h ▸ .setParam N id v e
  | getp id =>
    rw [A.getp] at h
    exact A.next_eq h ▸ .getParam N id e
  | smp a b =>
    rw [A.smp] at h
    exact .processSample (A.next_inj h)
  | proc n nch =>
    rw [A.proc] at h
    exact .processBlock (A.next_inj h)

/-- Between two steps nothing is owed. -/
theorem ActsOn.step_answers {N : Numerics S} {inj : Engine S → State} (A : ActsOn N inj) {e d : Engine S}
    (h : step (inj e) = .next (inj d)) : Answers 0 e d := by
  rw [step_cases A e] at h
  cases hp : e.port with
  | nil =>
    rw [hp] at h
    exact A.next_eq h ▸ .of_same rfl rfl
  | cons act rest =>
    rw [hp] at h
    cases act with
    | command w =>
      refine .of_taken hp (fun _ => by rw [hp, commandsWaiting, Nat.add_comm]) ?_
      dsimp only at h
      cases hd : decode w with
      | ok i =>
        rw [hd] at h
        exact A.exec_answers h
      | error r =>
        rw [hd] at h
        exact A.next_eq h ▸ .raiseIllegal _
    | store ch idx v =>
      refine .of_taken hp (fun _ => by rw [hp, commandsWaiting, Nat.zero_add]) ?_
      exact .hostStore (A.next_inj h)
    | reset =>
      refine .of_taken (owed := 0) hp (fun hn => absurd rfl hn) ?_
      exact A.next_eq h ▸ .of_same rfl rfl

/-! The response word. -/

/-- The response word has its fields where the command word has them (R50, R51). -/
theorem Response.word_fields (r : Response) :
    r.word.extractLsb' 64 8 = r.status.code ∧ r.word.extractLsb' 32 32 = r.res0 ∧ r.word.extractLsb' 0 32 = r.res1 :=
  ⟨opField_commandWord r.status.code r.res0 r.res1, aField_commandWord r.status.code r.res0 r.res1,
    bField_commandWord r.status.code r.res0 r.res1⟩

end Sys2Proof.Machine

section

open Sys2Proof Sys2Proof.Machine

/-- Settles O59: what a step takes off the port it answers once, and nothing is owed before or after. -/
theorem oneResponsePerCommand : Obligations.OneResponsePerCommand :=
  bothProfiles_of fun _ _ _ _ A _ _ h hn => (A.step_answers h).balance hn

/-- Settles O60: the news of a step, and the fields of the word, with the status by its code. -/
theorem responsesAndTheirWords : Obligations.ResponsesAndTheirWords := by
  refine ⟨bothProfiles_of fun _ _ _ _ A _ _ h => (A.step_answers h).news, fun r => ?_⟩
  obtain ⟨hstatus, h0, h1⟩ := r.word_fields
  rw [hstatus]
  refine ⟨h0, h1, ?_, ?_, ?_⟩ <;> intro h <;> rw [h] <;> rfl

/-- Settles O8: the decoder rejects the word, whatever the reason. -/
theorem illegalWordsChangeNothing : Obligations.IllegalWordsChangeNothing :=
  bothProfiles_of fun _ _ _ _ A _ _ _ hp hw => A.step_of_illegalWord hp hw

/-- Settles O19: no parameter has the id. -/
theorem unknownParameterIsIllegal : Obligations.UnknownParameterIsIllegal :=
  bothProfiles_of fun _ _ N _ A e id v hid => by
    have hnone := paramOfId_eq_none.2 (idExists_eq_false.2 hid)
    rw [A.setp, A.getp, setParam_of_unknown N v e hnone, getParam_of_unknown N e hnone]
    exact ⟨rfl, rfl⟩

end
end

section
/-! SUPPORT. The parameter store: the tables DECLARE accepts (R70), SETP and GETP of a parameter (R71, R72, R73), and why
the register GETP returns is a finite datum (R13). -/

namespace Sys2Proof.Machine

variable {S : Type}

/-! DECLARE (R70). -/

/-- The range of a declaration is not empty and holds the default (R70). -/
abbrev Declaration.sound (N : Numerics S) (d : Declaration S) : Prop :=
  N.le d.range.min d.range.max = true ∧ N.le d.range.min d.range.dflt = true ∧ N.le d.range.dflt d.range.max = true

theorem declarable_iff {N : Numerics S} {before : List Param} {d : Declaration S} :
    declarable N before d = true ↔ d.key ∉ before ∧ d.sound N := by
  simp [declarable, Declaration.sound, and_assoc]

/-- A table whose first row is declared answers that row's default before those of the rest. -/
theorem declareAll_cons_eq_some {N : Numerics S} {before : List Param} {d : Declaration S} {ds : List (Declaration S)}
    {out : List (Param × S)} :
    declareAll N before (d :: ds) = some out ↔
      declarable N before d = true ∧
        ∃ rest, declareAll N (before ++ [d.key]) ds = some rest ∧ out = (d.key, d.range.dflt) :: rest := by
  rw [declareAll]
  by_cases hd : declarable N before d = true
  · cases declareAll N (before ++ [d.key]) ds <;> simp [hd, eq_comm]
  · simp [hd]

/-- What DECLARE answers after the keys `before`: the defaults by key, if the keys are new, differ from one another, and
every row is sound. -/
theorem declareAll_eq_some {N : Numerics S} {before : List Param} {ds : List (Declaration S)} {out : List (Param × S)} :
    declareAll N before ds = some out ↔
      ((∀ d ∈ ds, d.key ∉ before) ∧ (ds.map Declaration.key).Nodup ∧ ∀ d ∈ ds, d.sound N) ∧
        out = ds.map fun d => (d.key, d.range.dflt) := by
  induction ds generalizing before out with
  | nil => simp [declareAll, eq_comm]
  | cons d ds ih =>
    rw [declareAll_cons_eq_some, declarable_iff]
    simp only [ih, List.map_cons, List.nodup_cons, List.forall_mem_cons, List.mem_append, List.mem_singleton, not_or,
      List.mem_map, not_exists, not_and]
    constructor
    · rintro ⟨⟨hnew, hd⟩, -, ⟨⟨hkeys, hdiff, hs⟩, rfl⟩, rfl⟩
      exact ⟨⟨⟨hnew, fun a ha => (hkeys a ha).1⟩, ⟨fun a ha => (hkeys a ha).2, hdiff⟩, hd, hs⟩, rfl⟩
    · rintro ⟨⟨⟨hnew, hkeys⟩, ⟨hother, hdiff⟩, hd, hs⟩, rfl⟩
      exact ⟨⟨hnew, hd⟩, _, ⟨⟨fun a ha => ⟨hkeys a ha, hother a ha⟩, hdiff, hs⟩, rfl⟩, rfl⟩

/-- DECLARE from the start accepts the tables with different keys and sound rows, and no other (R70). -/
theorem declareAll_nil (N : Numerics S) (ds : List (Declaration S)) :
    declareAll N [] ds =
      if (ds.map Declaration.key).Nodup ∧ ∀ d ∈ ds, d.sound N then some (ds.map fun d => (d.key, d.range.dflt))
      else none := by
  split
  case isTrue h => exact declareAll_eq_some.2 ⟨⟨fun _ _ => List.not_mem_nil, h⟩, rfl⟩
  case isFalse h => exact Option.eq_none_iff_forall_ne_some.2 fun out ho => h (declareAll_eq_some.1 ho).1.2

/-- The fixed table passes DECLARE when each of its rows is sound: its five keys differ (R12, R70). -/
theorem declareAll_fixedDeclarations {N : Numerics S} (h : ∀ k, (⟨k, (paramTable N).get k⟩ : Declaration S).sound N) :
    declareAll N [] (fixedDeclarations N) =
      some [(.feedback, N.lit 5 10), (.phaseOffset, N.lit 0 1), (.mix, N.lit 5 10), (.chorusDepth, N.lit 5 10),
        (.chorusRate, N.lit 5 10)] := by
  refine declareAll_eq_some.2 ⟨⟨fun _ _ => List.not_mem_nil, ?_, ?_⟩, rfl⟩
  · show [Param.feedback, .phaseOffset, .mix, .chorusDepth, .chorusRate].Nodup
    decide
  · intro d hd
    obtain ⟨k, -, rfl⟩ := List.mem_map.1 hd
    exact h k

theorem f32_table_sound (k : Param) : (⟨k, (paramTable Machine.f32).get k⟩ : Declaration Word).sound Machine.f32 := by
  cases k <;> exact ⟨by decide, by decide, by decide⟩

theorem real_table_sound (k : Param) : (⟨k, (paramTable Machine.real).get k⟩ : Declaration Rat).sound Machine.real := by
  cases k <;> exact ⟨by decide +kernel, by decide +kernel, by decide +kernel⟩

/-! SETP (R71, R72). -/

theorem setParam_of_finite (N : Numerics S) {k : Param} {value : Word} {v : S} (e : Engine S)
    (hf : notFinite value = false) (hv : N.dec32 value = some v) :
    setParam N (idOfParam k) value e =
      respondOk 0#32 0#32 (setParamRegister k (clamp N ((paramTable N).get k) v) e) := by
  simp [setParam, paramOfId_idOfParam, hf, hv]

theorem setParam_of_notFinite (N : Numerics S) (id : BitVec 3) {value : Word} (e : Engine S)
    (h : notFinite value = true) : setParam N id value e = raiseIllegal e := by
  cases hk : paramOfId id with
  | none => exact setParam_of_unknown N value e hk
  | some k => simp [setParam, hk, h]

theorem notFinite_iff {w : Word} : notFinite w = true ↔ w.extractLsb' 23 8 = 0xFF#8 := decide_eq_true_iff

/-! GETP (R73). -/

/-- GETP of a parameter answers its register and writes nothing (R73). -/
theorem ActsOn.exec_getp [DecidableEq S] {N : Numerics S} {inj : Engine S → State} (A : ActsOn N inj) (k : Param)
    (e : Engine S) :
    exec (.getp (idOfParam k)) (inj e) = .next (inj (respondOk (N.enc32 (e.p.get k)) 0#32 e)) := by
  rw [A.getp, getParam, paramOfId_idOfParam]

/-- A finite datum has an exponent field other than `0xFF`. -/
theorem exponent_ne_of_isFinite {w : Word} (h : F32.isFinite w = true) : w.extractLsb' 23 8 ≠ 0xFF#8 := by
  rw [ne_eq, ← notFinite_iff, notFinite_eq, h]
  decide

/-- The bounds of every parameter are finite (R12). -/
theorem f32_table_isFinite (k : Param) : F32.isFinite ((paramTable Machine.f32).get k).min = true ∧
    F32.isFinite ((paramTable Machine.f32).get k).max = true := by
  cases k <;> decide

theorem f32_enc32_isFinite {k : Param} {v : Word} (h : inRange Machine.f32 ((paramTable Machine.f32).get k) v) :
    F32.isFinite (Machine.f32.enc32 v) = true :=
  (F32.of_inRange (f32_table_isFinite k).1 (f32_table_isFinite k).2 h).1

/-- A rational between 0 and 5 rounds to a finite datum: to one between those of 0 and of 5. -/
theorem Exact.isFinite_enc32 {v : Rat} (h0 : 0 ≤ v) (h5 : v ≤ 5) : F32.isFinite (Exact.enc32 v) = true := by
  have hnum : 0 ≤ v.num := Rat.num_nonneg.2 h0
  have hle : v.num ≤ 5 * v.den := by simpa using (Rat.le_iff v 5).1 h5
  have hlo : F32.val 0#32 * v.den ≤ v.num * 2 ^ 149 := by
    rw [show F32.val 0#32 = 0 from by decide, zero_mul]
    positivity
  have hhi : v.num * 2 ^ 149 ≤ F32.val 0x40A00000#32 * v.den := by
    rw [show F32.val 0x40A00000#32 = 5 * 2 ^ 149 from by decide]
    linarith
  exact F32.isFinite_between (a := 0#32) (c := 0x40A00000#32) (by decide) (by decide) (F32.isNaN_round _ _)
    (F32.le_rounded (by decide) v.den_pos hlo) (F32.rounded_le (by decide) v.den_pos hhi)

theorem real_table_bounds (k : Param) :
    ((paramTable Machine.real).get k).min = 0 ∧ ((paramTable Machine.real).get k).max ≤ 5 := by
  rw [real_table]
  cases k <;> norm_num [Params.get]

theorem real_enc32_isFinite {k : Param} {v : Rat} (h : inRange Machine.real ((paramTable Machine.real).get k) v) :
    F32.isFinite (Machine.real.enc32 v) = true := by
  obtain ⟨hmin, hmax⟩ := real_table_bounds k
  obtain ⟨hlo, hhi⟩ := h
  rw [real_le] at hlo hhi
  exact Exact.isFinite_enc32 (hmin ▸ hlo) (hhi.trans hmax)

/-! CFG (R75). -/

theorem configure_p (N : Numerics S) (a b : Word) (e : Engine S) : (configure N a b e).p = e.p := by
  obtain ⟨-, h⟩ | ⟨fs, cap, -, h⟩ := configure_cases N a b e <;> rw [h]
  · exact failSession_p N e
  · exact openSession_p N fs b.toNat cap e

end Sys2Proof.Machine

section

open Sys2Proof Sys2Proof.Machine

/-- Settles O15: DECLARE from the start, and the rows of the fixed table are sound in each profile. -/
theorem declareChecksTheTable : Obligations.DeclareChecksTheTable :=
  ⟨⟨declareAll_nil _, declareAll_fixedDeclarations f32_table_sound⟩,
    ⟨declareAll_nil _, declareAll_fixedDeclarations real_table_sound⟩⟩

/-- Settles O16: the id names `k`, the value is finite, and `clamp` compares in the order of the statement. -/
theorem setpClampsAndStores : Obligations.SetpClampsAndStores :=
  bothProfiles_of fun _ _ N _ A e _ _ _ hf hv => by
    rw [A.setp, setParam_of_finite N e hf hv]
    rfl

/-- Settles O18: a register in range lies between finite bounds, and in profile REAL so does its
rounding. -/
theorem getpReturnsTheParameter : Obligations.GetpReturnsTheParameter :=
  ⟨fun e k => ⟨actsOn_f32.exec_getp k e, fun hp => exponent_ne_of_isFinite (f32_enc32_isFinite (hp k))⟩,
    fun e k => ⟨actsOn_real.exec_getp k e, fun hp => exponent_ne_of_isFinite (real_enc32_isFinite (hp k))⟩⟩

/-- Settles O23: CFG answers in either case, and neither case writes the parameters. -/
theorem cfgKeepsTheParameters : Obligations.CfgKeepsTheParameters :=
  bothProfiles_of fun _ _ N _ A e a b => ⟨_, A.cfg a b e, configure_p N a b e⟩

/-- Settles O17: the value is refused whether or not the id names a parameter. -/
theorem setpRefusesNonFiniteValues : Obligations.SetpRefusesNonFiniteValues :=
  bothProfiles_of fun _ _ N _ A e id _ h => by
    rw [A.setp, setParam_of_notFinite N id e (notFinite_iff.2 h)]
    rfl

end
end

section
/-! SUPPORT. When CFG opens a session: the checks of its rate (R81) and of its capacity (R82), each as an exact
condition, and what CFG then answers (R80, R83, R84). -/

namespace Sys2Proof.Machine

variable {S : Type}

theorem checkRate_eq_some {N : Numerics S} {a : Word} {fs : S} :
    checkRate N a = some fs ↔ notFinite a = false ∧ N.dec32 a = some fs ∧ N.gt fs N.zero = true := by
  unfold checkRate
  rw [Option.ite_none_left_eq_some, Bool.not_eq_true]
  cases N.dec32 a with
  | none => simp
  | some v =>
    simp only [Option.ite_none_right_eq_some, Option.some.injEq]
    constructor
    · rintro ⟨hn, hg, rfl⟩
      exact ⟨hn, rfl, hg⟩
    · rintro ⟨hn, rfl, hg⟩
      exact ⟨hn, hg, rfl⟩

theorem capacity_eq_some {N : Numerics S} {cfg : Config S} {fs : S} {cap : Nat} :
    capacity N cfg fs = some cap ↔
      N.isFinite (N.mul fs cfg.tMax) = true ∧ N.floorNat (N.mul fs cfg.tMax) = some cap ∧
        1 ≤ cap ∧ cap ≤ cfg.ramWords ∧ N.gt (N.mul N.tHi fs) (N.ofNat cap) = false := by
  unfold capacity
  rw [Option.ite_none_right_eq_some]
  cases N.floorNat (N.mul fs cfg.tMax) with
  | none => simp
  | some c =>
    simp only [Option.ite_none_left_eq_some, Option.some.injEq, not_lt, Bool.not_eq_true]
    constructor
    · rintro ⟨hf, hlow, hhigh, hroom, rfl⟩
      exact ⟨hf, rfl, hlow, hhigh, hroom⟩
    · rintro ⟨hf, rfl, hlow, hhigh, hroom⟩
      exact ⟨hf, hlow, hhigh, hroom, rfl⟩

theorem configure_of_sessionOf {N : Numerics S} {a : Word} {e : Engine S} {fs : S} {cap : Nat}
    (h : sessionOf N e.cfg a = some (fs, cap)) (b : Word) :
    configure N a b e = respondOk 0#32 0#32 (openSession N fs b.toNat cap e) := by
  rw [configure, h]
  rfl

/-- Only a CFG whose checks passed leaves READY at 1 (R84, R85). -/
theorem sessionOf_of_configure_ready {N : Numerics S} {a b : Word} {e : Engine S} (h : (configure N a b e).ready = true) :
    ∃ fs cap, sessionOf N e.cfg a = some (fs, cap) := by
  obtain ⟨-, hc⟩ | ⟨fs, cap, hs, -⟩ := configure_cases N a b e
  · rw [hc] at h
    cases h
  · exact ⟨fs, cap, hs⟩

/-- After the zero fill of R83 every word of the delay RAMs reads as zero. -/
theorem read_zeroFilled (dflt : S) (a : Nat × Nat) : Memory.read dflt zeroFilled a = dflt := rfl

end Sys2Proof.Machine

section

open Sys2Proof Sys2Proof.Machine

/-- Settles O21: the hypotheses are the checks of the rate and of the capacity, and a zero-filled delay RAM lists no
word. -/
theorem cfgOpensASession : Obligations.CfgOpensASession :=
  bothProfiles_of fun _ _ N _ A e rate block fs cap hrate hdec hpos hfin hfloor hlow hhigh hroom => by
    have hcheck : checkRate N rate = some fs :=
      checkRate_eq_some.2 ⟨Bool.eq_false_iff.2 (mt notFinite_iff.1 hrate), hdec, hpos⟩
    have hcap : capacity N e.cfg fs = some cap := capacity_eq_some.2 ⟨hfin, hfloor, hlow, hhigh, hroom⟩
    refine ⟨zeroFilled, ?_, fun c i => read_zeroFilled _ (c, i)⟩
    rw [A.cfg, configure_of_sessionOf (sessionOf_eq_some.2 ⟨hcheck, hcap⟩)]
    rfl

/-- Settles O22: a CFG that opened a session would have passed the check that the hypothesis says it fails. -/
theorem failedCfgClosesTheSession : Obligations.FailedCfgClosesTheSession :=
  bothProfiles_of fun _ _ N _ A e rate block hfail => by
    obtain ⟨-, hc⟩ | ⟨fs, cap, hs, -⟩ := configure_cases N rate block e
    · refine ⟨_, A.cfg rate block e, ?_⟩
      rw [hc]
      exact ⟨rfl, rfl, rfl, rfl, rfl, rfl, rfl, rfl, rfl, rfl⟩
    · obtain ⟨hcheck, hcap⟩ := sessionOf_eq_some.1 hs
      obtain ⟨hnf, hdec, hpos⟩ := checkRate_eq_some.1 hcheck
      obtain ⟨hfin, hfloor, hlow, hhigh, hroom⟩ := capacity_eq_some.1 hcap
      obtain hbits | ⟨fs', hdec', hbad⟩ := hfail
      · cases hnf.symm.trans (notFinite_iff.2 hbits)
      · obtain rfl : fs' = fs := Option.some.inj (hdec'.symm.trans hdec)
        obtain hpos' | hfin' | ⟨cap', hfloor', hbad⟩ := hbad
        · cases hpos.symm.trans hpos'
        · cases hfin.symm.trans hfin'
        · obtain rfl : cap' = cap := Option.some.inj (hfloor'.symm.trans hfloor)
          obtain hlow' | hhigh' | hroom' := hbad
          · exact absurd hlow' (Nat.not_lt.2 hlow)
          · exact absurd hhigh' (Nat.not_lt.2 hhigh)
          · cases hroom.symm.trans hroom'

/-- Settles O24: the session that `e₁` holds is the one its checks give, and they read the rate and the configuration
alone. -/
theorem cfgIsIdempotent : Obligations.CfgIsIdempotent :=
  bothProfiles_of fun _ _ N _ A e d e₁ rate block h hready hcfg => by
    obtain rfl : configure N rate block e = e₁ := A.next_eq (A.cfg rate block e ▸ h)
    obtain ⟨fs, cap, hs⟩ := sessionOf_of_configure_ready hready
    have hd : sessionOf N d.cfg rate = some (fs, cap) := hcfg ▸ hs
    rw [A.cfg, configure_of_sessionOf hd, configure_of_sessionOf hs]
    rfl

end
end

section
/-! SUPPORT. The write head along sample steps (R92), and the bounds of a read position in profile F32 (R91, R95). -/

namespace Sys2Proof.Machine

/-! The write head (R92). -/

section

variable {S : Type} [DecidableEq S]

/-- The capacity stays, and the head is one further within it. -/
theorem sampleStep_head {N : Numerics S} {b : Bool} {x o : Stereo S} {e e' : Engine S}
    (h : sampleStep N b x e = .ok (e', o)) : e'.cap = e.cap ∧ e'.wh = nextHead e.cap e.wh ∧ e'.wh < e'.cap := by
  obtain ⟨hkeep, hhead, hlt, -⟩ := sampleStep_keeps h
  have hcap : e'.cap = e.cap := by rw [hkeep]
  refine ⟨hcap, hhead, ?_⟩
  rw [hcap, hhead]
  exact nextHead_lt (Nat.one_le_of_lt hlt)

theorem samplesThrough_head {N : Numerics S} {x : Nat → Stereo S} {e : Engine S} (hwh : e.wh < e.cap) {k : Nat} :
    ∀ {d : Engine S} {y : Nat → Stereo S}, samplesThrough N x k e = some (d, y) →
      d.cap = e.cap ∧ d.wh = (e.wh + k) % e.cap := by
  induction k with
  | zero =>
    intro d y h
    obtain ⟨rfl, rfl⟩ : e = d ∧ x = y := by simpa [samplesThrough] using h
    exact ⟨rfl, (Nat.mod_eq_of_lt hwh).symm⟩
  | succ k ih =>
    intro d y h
    obtain ⟨e₁, y₁, o, hk, hs, -⟩ := samplesThrough_succ.1 h
    obtain ⟨hcap₁, hwh₁⟩ := ih hk
    obtain ⟨hcap, hhead, -⟩ := sampleStep_head hs
    have hlt : e₁.wh < e.cap := by
      rw [hwh₁]
      exact Nat.mod_lt _ (Nat.zero_lt_of_lt hwh)
    refine ⟨hcap.trans hcap₁, ?_⟩
    calc d.wh = nextHead e.cap e₁.wh := by rw [hhead, hcap₁]
      _ = (e₁.wh + 1) % e.cap := nextHead_eq_mod hlt
      _ = (e.wh + (k + 1)) % e.cap := by rw [hwh₁, Nat.mod_add_mod, Nat.add_assoc]

end

/-! The read position in profile F32 (R91, R95). -/

/-- Rounding keeps an exact result between two finite data that it lies between. -/
theorem F32.between_of_rounded {a lo hi : Word} {x : Int} {d : Nat} (hn : F32.isNaN a = false)
    (hv : F32.val a = F32.rounded x d) (hd : 0 < d) (hlo : F32.isFinite lo = true) (hhi : F32.isFinite hi = true)
    (h1 : F32.val lo * d ≤ x) (h2 : x ≤ F32.val hi * d) :
    F32.isFinite a = true ∧ F32.val lo ≤ F32.val a ∧ F32.val a ≤ F32.val hi := by
  have hl : F32.val lo ≤ F32.val a := hv ▸ F32.le_rounded (F32.isNaN_of_finite hlo) hd h1
  have hh : F32.val a ≤ F32.val hi := hv ▸ F32.rounded_le (F32.isNaN_of_finite hhi) hd h2
  exact ⟨F32.isFinite_between hlo hhi hn hl hh, hl, hh⟩

/-- The headroom of a session (R24, R82) bounds the delay at `T_HI` by the capacity, and a shorter delay is no larger. -/
theorem F32.delaySamples_bounds {t : Word} {e : Engine Word} (ht : F32.isFinite t = true) (h0 : 0 ≤ F32.val t)
    (h1 : F32.val t ≤ F32.val Machine.f32.tHi) (hcap : e.cap ≤ 2 ^ 24) (hfs : F32.isFinite e.fs = true)
    (hpos : 0 < F32.val e.fs) (hroom : F32.val (F32.mul Machine.f32.tHi e.fs) ≤ F32.val (F32.ofNat e.cap)) :
    F32.isFinite (delaySamples Machine.f32 e t) = true ∧ 0 ≤ F32.val (delaySamples Machine.f32 e t) ∧
      F32.val (delaySamples Machine.f32 e t) ≤ F32.val (F32.ofNat e.cap) := by
  rw [delaySamples, f32_mul]
  obtain ⟨hn, hv⟩ := F32.mul_finite hfs ht
  obtain ⟨-, hmax⟩ := F32.mul_finite (show F32.isFinite Machine.f32.tHi = true by decide) hfs
  obtain ⟨hzf, hzv⟩ := F32.zero_facts
  have hlow : 0 ≤ F32.val (F32.mul e.fs t) := by
    rw [hv]
    exact F32.rounded_nonneg (by positivity) (mul_nonneg hpos.le h0)
  have hhigh : F32.val (F32.mul e.fs t) ≤ F32.val (F32.mul Machine.f32.tHi e.fs) := by
    rw [hv, hmax, mul_comm (F32.val Machine.f32.tHi)]
    exact F32.rounded_mono (by positivity) (by positivity)
      (mul_le_mul_of_nonneg_right (mul_le_mul_of_nonneg_left h1 hpos.le) (Int.natCast_nonneg _))
  have hle := hhigh.trans hroom
  exact ⟨F32.isFinite_between hzf (F32.ofNat_exact hcap).1 hn (hzv ▸ hlow) hle, hlow, hle⟩

/-- Before the wrap a read position lies in `[-CAP, CAP]`. -/
theorem F32.unwrapped_bounds {d : Word} {cap wh : Nat} (hcap : cap ≤ 2 ^ 24) (hwh : wh < cap)
    (hd : F32.isFinite d = true) (h0 : 0 ≤ F32.val d) (h1 : F32.val d ≤ F32.val (F32.ofNat cap)) :
    F32.isFinite (F32.sub (F32.ofNat wh) d) = true ∧
      -F32.val (F32.ofNat cap) ≤ F32.val (F32.sub (F32.ofNat wh) d) ∧
      F32.val (F32.sub (F32.ofNat wh) d) ≤ F32.val (F32.ofNat cap) := by
  obtain ⟨hcf, hcv⟩ := F32.ofNat_exact hcap
  obtain ⟨hwf, hwv⟩ := F32.ofNat_exact (hwh.le.trans hcap)
  obtain ⟨hn, hv⟩ := F32.sub_finite hwf hd
  rw [← F32.val_neg]
  refine F32.between_of_rounded hn hv one_pos ((F32.isFinite_neg _).trans hcf) hcf ?_ ?_
  · rw [F32.val_neg, hwv]
    omega
  · rw [hcv, hwv]
    omega

/-- The wrap of R91 brings `[-CAP, CAP]` into `[0, CAP]`: a sum below `CAP` may round to `CAP`, not beyond it. -/
theorem F32.wrapPosition_bounds {s : Word} {e : Engine Word} (hcap : e.cap ≤ 2 ^ 24) (hs : F32.isFinite s = true)
    (h0 : -F32.val (F32.ofNat e.cap) ≤ F32.val s) (h1 : F32.val s ≤ F32.val (F32.ofNat e.cap)) :
    F32.le Machine.f32.zero (wrapPosition Machine.f32 e s) = true ∧
      F32.le (wrapPosition Machine.f32 e s) (F32.ofNat e.cap) = true := by
  obtain ⟨hcf, -⟩ := F32.ofNat_exact hcap
  obtain ⟨hzf, hzv⟩ := F32.zero_facts
  have hzn := F32.isNaN_of_finite hzf
  have hcn := F32.isNaN_of_finite hcf
  have hsn := F32.isNaN_of_finite hs
  rw [wrapPosition, f32_lt, f32_add, f32_ofNat]
  split
  next hneg =>
    obtain ⟨-, -, hlt⟩ := F32.lt_iff.1 hneg
    obtain ⟨hn, hv⟩ := F32.add_finite hs hcf
    obtain ⟨-, hlow, hhigh⟩ := F32.between_of_rounded hn hv one_pos hzf hcf (by omega) (by omega)
    exact ⟨F32.le_iff.2 ⟨hzn, hn, hlow⟩, F32.le_iff.2 ⟨hn, hcn, hhigh⟩⟩
  next hneg =>
    have hlow : F32.val Machine.f32.zero ≤ F32.val s := not_lt.1 fun hlt => hneg (F32.lt_iff.2 ⟨hsn, hzn, hlt⟩)
    exact ⟨F32.le_iff.2 ⟨hzn, hsn, hlow⟩, F32.le_iff.2 ⟨hsn, hcn, h1⟩⟩

/-- The bounds of R95 in profile F32, where the position may be `CAP` itself. -/
theorem f32_position {t : Word} {e : Engine Word} (he : EngineInv Machine.f32 e) (hr : e.ready = true)
    (h0 : F32.le Machine.f32.tLo t = true) (h1 : F32.le t Machine.f32.tHi = true) :
    F32.le Machine.f32.zero (readPosition Machine.f32 e t) = true ∧
      F32.le (readPosition Machine.f32 e t) (F32.ofNat e.cap) = true := by
  obtain ⟨-, hcapHigh, hhead, hpos, hfin, hroom, -, -⟩ := he.session hr
  obtain ⟨-, -, hram, -⟩ := he.config
  have hcap : e.cap ≤ 2 ^ 24 := hcapHigh.trans hram
  obtain ⟨ht, htlo, hthi⟩ := F32.of_inRange (by decide) (by decide) ⟨h0, h1⟩
  have hfs : 0 < F32.val e.fs := F32.zero_facts.2 ▸ (F32.lt_iff.1 hpos).2.2
  obtain ⟨hdf, hdlo, hdhi⟩ := F32.delaySamples_bounds ht ((show 0 ≤ F32.val Machine.f32.tLo by decide).trans htlo)
    hthi hcap hfin hfs (F32.le_iff.1 hroom).2.2
  obtain ⟨hsf, hslo, hshi⟩ := F32.unwrapped_bounds hcap hhead hdf hdlo hdhi
  exact F32.wrapPosition_bounds hcap hsf hslo hshi

/-- D9: the delay is a little more than 580 samples, so the position is a little below 0, and with `CAP` added it rounds
to `CAP`. -/
theorem f32_position_reaches_capacity {e : Engine Word} (hfs : e.fs = 0x47017700#32) (hwh : e.wh = 580)
    (hcap : e.cap = 66286) : readPosition Machine.f32 e 0x3C8F5C28#32 = Machine.f32.ofNat 66286 := by
  have hdelay : F32.mul 0x47017700#32 0x3C8F5C28#32 = 0x44110028#32 := by decide
  have hbelow : F32.sub (F32.ofNat 580) 0x44110028#32 = 0xBB200000#32 := by decide
  have hwrap : F32.add 0xBB200000#32 (F32.ofNat 66286) = F32.ofNat 66286 := by decide
  have hneg : F32.lt 0xBB200000#32 Machine.f32.zero = true := by decide
  rw [readPosition, delaySamples, hfs, hwh, f32_mul, hdelay, f32_ofNat, f32_sub, hbelow]
  rw [wrapPosition, f32_lt, if_pos hneg, hcap, f32_add, f32_ofNat, hwrap]

end Sys2Proof.Machine

section

open Sys2Proof Sys2Proof.Machine

/-- Settles O45: a step's own effect on the head, and an induction over the number of steps. -/
theorem writeHeadAdvancesModuloCapacity : Obligations.WriteHeadAdvancesModuloCapacity :=
  bothProfiles_of fun _ _ _ _ _ _ hwh =>
    ⟨fun _ _ _ _ h => (sampleStep_head h).2, fun _ _ _ _ h => (samplesThrough_head hwh h).2⟩

/-- Settles O32: in profile REAL the session's headroom bounds every delay up to `T_HI` by the capacity; in profile F32
the same bound holds through the roundings, and D9 attains it. -/
theorem readPositionRange : Obligations.ReadPositionRange := by
  refine ⟨fun e t he hr h0 h1 => ?_, fun e t => f32_position, fun e => f32_position_reaches_capacity⟩
  obtain ⟨-, -, hhead, hpos, -, hroom, -, -⟩ := he.session hr
  rw [real_gt, real_zero] at hpos
  rw [real_le, real_mul, real_tHi, real_ofNat] at hroom
  rw [real_tLo] at h0
  rw [real_tHi] at h1
  exact real_position hhead (by nlinarith) (by nlinarith)

end
end

section
/-! SUPPORT. The LFO and the delay time it gives: the LFO value within the depth (R102), the delay map monotone (R104), and
the phases in the unit interval (R105, R107). -/

namespace Sys2Proof.Machine

/-! The LFO value (R102). -/

/-- A sine in `[-1, 1]` times the depth lies between minus and plus the depth, and rounding keeps it there. -/
theorem F32.lfoAt_within_depth {q : Params Word} (ph : Word) (h : paramsInRange Machine.f32 q) :
    F32.le (lfoAt Machine.f32 q ph) q.chorusDepth = true ∧
      F32.le (F32.sub Machine.f32.zero (lfoAt Machine.f32 q ph)) q.chorusDepth = true := by
  obtain ⟨hs, hs1, hs2⟩ := F32.sinf_facts (F32.mul F32.twoPi ph)
  obtain ⟨hd, hd0, -⟩ := F32.depth_range h
  have hdn := F32.isNaN_of_finite hd
  obtain ⟨hzf, hzv⟩ := F32.zero_facts
  obtain ⟨hn, hv⟩ := F32.mul_finite hs hd
  obtain ⟨hf, hlo, hhi⟩ := F32.between_of_rounded hn hv (by positivity) ((F32.isFinite_neg _).trans hd) hd
    (by rw [F32.val_neg]; push_cast; nlinarith) (by push_cast; nlinarith)
  rw [F32.val_neg] at hlo
  obtain ⟨hmn, hmv⟩ := F32.sub_finite hzf hf
  refine ⟨F32.le_iff.2 ⟨hn, hdn, hhi⟩, F32.le_iff.2 ⟨hmn, hdn, hmv.trans_le ?_⟩⟩
  exact F32.rounded_le hdn one_pos (by rw [hzv]; omega)

theorem real_param_nonneg {q : Params Rat} (h : paramsInRange Machine.real q) (k : Param) : 0 ≤ q.get k := by
  obtain ⟨hzero, -⟩ := real_table_bounds k
  obtain ⟨hmin, -⟩ := h k
  rwa [real_le, hzero] at hmin

theorem real_lfoAt_within_depth {q : Params Rat} (ph : Rat) (h : paramsInRange Machine.real q) :
    lfoAt Machine.real q ph ≤ q.chorusDepth ∧ 0 - lfoAt Machine.real q ph ≤ q.chorusDepth := by
  have hd : 0 ≤ q.chorusDepth := real_param_nonneg h .chorusDepth
  obtain ⟨hs1, hs2⟩ := Exact.sin2pi_bounds ph
  show Exact.sin2pi ph * q.chorusDepth ≤ _ ∧ 0 - Exact.sin2pi ph * q.chorusDepth ≤ _
  exact ⟨mul_le_of_le_one_left hd hs2, by linarith [mul_le_mul_of_nonneg_right hs1 hd]⟩

/-! The delay time (R104): each of its four operations is monotone, and stays finite on `[-1, 1]` because its values at the
two ends are. -/

theorem F32.le_trans {a b c : Word} (hab : F32.le a b = true) (hbc : F32.le b c = true) : F32.le a c = true := by
  obtain ⟨ha, -, h1⟩ := F32.le_iff.1 hab
  obtain ⟨-, hc, h2⟩ := F32.le_iff.1 hbc
  exact F32.le_iff.2 ⟨ha, hc, h1.trans h2⟩

/-- An operation on one datum that keeps the order of finite data. -/
def F32.MonotoneOnFinite (f : Word → Word) : Prop :=
  ∀ ⦃a b : Word⦄, F32.isFinite a = true → F32.isFinite b = true → F32.le a b = true → F32.le (f a) (f b) = true

/-- `lo <= a <= b <= hi` in the comparisons of profile F32. -/
def F32.Chain (lo a b hi : Word) : Prop := F32.le lo a = true ∧ F32.le a b = true ∧ F32.le b hi = true

/-- What rounds an exact result that grows with the operand is monotone. -/
theorem F32.monotoneOnFinite_of_rounded {f : Word → Word} {x : Word → Int} {d : Nat} (hd : 0 < d)
    (hf : ∀ a, F32.isFinite a = true → F32.isNaN (f a) = false ∧ F32.val (f a) = F32.rounded (x a) d)
    (hx : ∀ a b, F32.val a ≤ F32.val b → x a ≤ x b) : F32.MonotoneOnFinite f := by
  intro a b ha hb hab
  obtain ⟨hna, hva⟩ := hf a ha
  obtain ⟨hnb, hvb⟩ := hf b hb
  refine F32.le_iff.2 ⟨hna, hnb, ?_⟩
  rw [hva, hvb]
  exact F32.rounded_mono hd hd (mul_le_mul_of_nonneg_right (hx a b (F32.le_iff.1 hab).2.2) (Int.natCast_nonneg _))

theorem F32.add_left_monotone {c : Word} (hc : F32.isFinite c = true) : F32.MonotoneOnFinite (F32.add c) :=
  F32.monotoneOnFinite_of_rounded one_pos (fun _ ha => F32.add_finite hc ha) fun _ _ h => by omega

theorem F32.sub_right_monotone {c : Word} (hc : F32.isFinite c = true) : F32.MonotoneOnFinite fun a => F32.sub a c :=
  F32.monotoneOnFinite_of_rounded one_pos (fun _ ha => F32.sub_finite ha hc) fun _ _ h => by omega

theorem F32.mul_left_monotone {c : Word} (hc : F32.isFinite c = true) (h0 : 0 ≤ F32.val c) :
    F32.MonotoneOnFinite (F32.mul c) :=
  F32.monotoneOnFinite_of_rounded (by positivity) (fun _ ha => F32.mul_finite hc ha)
    fun _ _ h => mul_le_mul_of_nonneg_left h h0

theorem F32.div_right_monotone {c : Word} (hc : F32.isFinite c = true) (h0 : 0 < F32.val c) :
    F32.MonotoneOnFinite fun a => F32.div a c :=
  F32.monotoneOnFinite_of_rounded (Int.pos_iff_toNat_pos.1 h0) (fun _ ha => F32.div_finite ha hc h0)
    fun _ _ h => mul_le_mul_of_nonneg_right h (by positivity)

/-- A monotone operation takes a chain between finite ends to a chain. -/
theorem F32.Chain.map {f : Word → Word} {lo a b hi : Word} (h : F32.Chain lo a b hi) (hf : F32.MonotoneOnFinite f)
    (hlo : F32.isFinite lo = true) (hhi : F32.isFinite hi = true) : F32.Chain (f lo) (f a) (f b) (f hi) := by
  obtain ⟨h1, h2, h3⟩ := h
  obtain ⟨-, hna, hla⟩ := F32.le_iff.1 h1
  obtain ⟨-, hnb, hab⟩ := F32.le_iff.1 h2
  obtain ⟨-, -, hbh⟩ := F32.le_iff.1 h3
  have ha : F32.isFinite a = true := F32.isFinite_between hlo hhi hna hla (hab.trans hbh)
  have hb : F32.isFinite b = true := F32.isFinite_between hlo hhi hnb (hla.trans hab) hbh
  exact ⟨hf hlo ha h1, hf ha hb h2, hf hb hhi h3⟩

/-- The delay times of an ordered pair in `[-1, 1]`, between those at the two ends. -/
theorem F32.delayTime_chain {l m : Word} (h : F32.Chain Machine.f32.negOne l m Machine.f32.one) :
    F32.Chain (delayTime Machine.f32 Machine.f32.negOne) (delayTime Machine.f32 l) (delayTime Machine.f32 m)
      (delayTime Machine.f32 Machine.f32.one) := by
  simp only [delayTime, f32_add, f32_sub, f32_mul, f32_div]
  obtain ⟨hnegOne, -⟩ := F32.negOne_facts
  obtain ⟨hspan, -, htwo, -⟩ := F32.span_facts
  have hsum := h.map (F32.sub_right_monotone hnegOne) (by decide) (by decide)
  have hscaled := hsum.map (F32.mul_left_monotone hspan (by decide)) (by decide) (by decide)
  have hhalved := hscaled.map (F32.div_right_monotone htwo (by decide)) (by decide) (by decide)
  exact hhalved.map (F32.add_left_monotone (c := Machine.f32.tLo) (by decide)) (by decide) (by decide)

/-- The four values of R104. -/
theorem f32_delayTime_values :
    delayTime Machine.f32 0xBF800000#32 = 0x3BA3D70A#32 ∧ delayTime Machine.f32 0x00000000#32 = 0x3C8F5C28#32 ∧
      delayTime Machine.f32 0x80000000#32 = 0x3C8F5C28#32 ∧ delayTime Machine.f32 0x3F800000#32 = 0x3CF5C28E#32 := by
  decide

/-- The map of R104 in exact arithmetic. -/
theorem real_delayTime (l : Rat) : delayTime Machine.real l = 7 / 400 + 1 / 80 * l := by
  rw [delayTime, real_tLo, real_tHi, real_one, real_negOne, real_add, real_div, real_mul, real_sub, real_sub, real_sub]
  ring

/-! The phases (R101, R103, R105, R107). -/

/-- The wrapped sum of two data in `[0, 1]` lies in `[0, 1]`: the sum lies in `[0, 2]`, and 1 is subtracted above 1. -/
theorem F32.wrapPhase_add_in_unit {a b : Word} (ha0 : F32.le Machine.f32.zero a = true)
    (ha1 : F32.le a Machine.f32.one = true) (hb0 : F32.le Machine.f32.zero b = true)
    (hb1 : F32.le b Machine.f32.one = true) :
    F32.le Machine.f32.zero (wrapPhase Machine.f32 (F32.add a b)) = true ∧
      F32.le (wrapPhase Machine.f32 (F32.add a b)) Machine.f32.one = true := by
  obtain ⟨hzf, hzv⟩ := F32.zero_facts
  obtain ⟨h1f, h1v⟩ := F32.one_facts
  have hzn := F32.isNaN_of_finite hzf
  have h1n := F32.isNaN_of_finite h1f
  obtain ⟨haf, ha0, ha1⟩ := F32.of_inRange hzf h1f ⟨ha0, ha1⟩
  obtain ⟨hbf, hb0, hb1⟩ := F32.of_inRange hzf h1f ⟨hb0, hb1⟩
  have h2v : F32.val 0x40000000#32 = 2 ^ 150 := by decide
  obtain ⟨hn, hv⟩ := F32.add_finite haf hbf
  obtain ⟨hsf, hs0, hs2⟩ := F32.between_of_rounded (hi := 0x40000000#32) hn hv one_pos hzf (by decide)
    (by omega) (by omega)
  rw [wrapPhase]
  split
  next hgt =>
    obtain ⟨-, -, hs1⟩ := F32.lt_iff.1 hgt
    obtain ⟨hdn, hdv⟩ := F32.sub_finite hsf h1f
    obtain ⟨-, hlo, hhi⟩ := F32.between_of_rounded hdn hdv one_pos hzf h1f (by omega) (by omega)
    exact ⟨F32.le_iff.2 ⟨hzn, hdn, hlo⟩, F32.le_iff.2 ⟨hdn, h1n, hhi⟩⟩
  next hgt => exact ⟨F32.le_iff.2 ⟨hzn, hn, hs0⟩, F32.le_of_not_gt hn h1n hgt⟩

theorem real_wrapPhase_add_in_unit {a b : Rat} (ha0 : 0 ≤ a) (ha1 : a ≤ 1) (hb0 : 0 ≤ b) (hb1 : b ≤ 1) :
    0 ≤ wrapPhase Machine.real (a + b) ∧ wrapPhase Machine.real (a + b) ≤ 1 := by
  simp only [wrapPhase, real_gt, real_one, real_sub]
  split <;> constructor <;> linarith

/-- A quotient of a datum that is not negative by a positive one that is at least as large lies in `[0, 1]` (R105). -/
theorem F32.div_in_unit {a b : Word} (ha : F32.isFinite a = true) (h0 : 0 ≤ F32.val a) (hb : F32.isFinite b = true)
    (hpos : 0 < F32.val b) (hab : F32.val a ≤ F32.val b) :
    F32.le Machine.f32.zero (F32.div a b) = true ∧ F32.le (F32.div a b) Machine.f32.one = true := by
  obtain ⟨hzf, hzv⟩ := F32.zero_facts
  obtain ⟨h1f, h1v⟩ := F32.one_facts
  obtain ⟨hn, hv⟩ := F32.div_finite ha hb hpos
  obtain ⟨-, hlo, hhi⟩ := F32.between_of_rounded hn hv (Int.pos_iff_toNat_pos.1 hpos) hzf h1f
    (by rw [hzv, zero_mul]; positivity)
    (by rw [h1v, Int.toNat_of_nonneg hpos.le, mul_comm]; exact mul_le_mul_of_nonneg_left hab (by positivity))
  exact ⟨F32.le_iff.2 ⟨F32.isNaN_of_finite hzf, hn, hlo⟩, F32.le_iff.2 ⟨hn, F32.isNaN_of_finite h1f, hhi⟩⟩

/-- The phase increment of R103 at a sample rate of at least the LFO rate (R105). -/
theorem F32.phaseStep_in_unit {q : Params Word} {fs : Word} (hq : paramsInRange Machine.f32 q)
    (hpos : F32.lt Machine.f32.zero fs = true) (hfin : F32.isFinite fs = true) (hle : F32.le q.chorusRate fs = true) :
    F32.le Machine.f32.zero (F32.div q.chorusRate fs) = true ∧
      F32.le (F32.div q.chorusRate fs) Machine.f32.one = true := by
  obtain ⟨hr, hr0, -⟩ := F32.rate_range hq
  obtain ⟨-, -, hp⟩ := F32.lt_iff.1 hpos
  exact F32.div_in_unit hr hr0 hfin (F32.zero_facts.2 ▸ hp) (F32.le_iff.1 hle).2.2

theorem real_phaseStep_in_unit {q : Params Rat} {fs : Rat} (hq : paramsInRange Machine.real q) (hpos : 0 < fs)
    (hle : q.chorusRate ≤ fs) : 0 ≤ q.chorusRate / fs ∧ q.chorusRate / fs ≤ 1 :=
  ⟨div_nonneg (real_param_nonneg hq .chorusRate) hpos.le, (div_le_one hpos).2 hle⟩

theorem real_offset_in_unit {q : Params Rat} (hq : paramsInRange Machine.real q) :
    0 ≤ q.phaseOffset ∧ q.phaseOffset ≤ 1 := by
  have h := hq .phaseOffset
  rwa [inRange, real_table, real_le, real_le] at h

/-- The advance of R103 in exact arithmetic. -/
theorem real_nextPhase (q : Params Rat) (e : Engine Rat) :
    nextPhase Machine.real q e =
      if e.phase + q.chorusRate / e.fs ≤ 1 then e.phase + q.chorusRate / e.fs
      else e.phase + q.chorusRate / e.fs - 1 := by
  simp only [nextPhase, wrapPhase, real_gt, real_one, real_add, real_sub, real_div, ← not_le, ite_not]

end Sys2Proof.Machine

section

open Sys2Proof Sys2Proof.Machine

/-- Settles O28: the depth bounds the product with a sine in `[-1, 1]`, and the bounds by 1 follow from the depth's range. -/
theorem lfoStaysWithinDepth : Obligations.LfoStaysWithinDepth := by
  refine ⟨fun q ph hq => ?_, fun q ph hq => ?_⟩
  · obtain ⟨hup, hdown⟩ := F32.lfoAt_within_depth ph hq
    exact ⟨hup, hdown, f32_safe.lfo q ph hq⟩
  · obtain ⟨hup, hdown⟩ := real_lfoAt_within_depth ph hq
    rw [real_le, real_le, real_sub, real_zero]
    exact ⟨hup, hdown, real_safe.lfo q ph hq⟩

/-- Settles O29: in profile F32 the four operations of the map are monotone; in profile REAL the map is linear. -/
theorem delayTimeMap : Obligations.DelayTimeMap := by
  refine ⟨⟨fun l m hl hlm hm => ?_, fun l m hl hlm hm => ?_⟩, real_delayTime, f32_delayTime_values⟩
  · obtain ⟨-, hmono, -⟩ := F32.delayTime_chain ⟨hl, hlm, hm⟩
    obtain ⟨hlow, -⟩ := f32_safe.time l hl (F32.le_trans hlm hm)
    obtain ⟨-, hhigh⟩ := f32_safe.time m (F32.le_trans hl hlm) hm
    exact ⟨hlow, hmono, hhigh⟩
  · rw [real_le, real_negOne] at hl
    rw [real_le, real_one] at hm
    rw [real_le] at hlm
    simp only [real_le, real_delayTime, real_tLo, real_tHi]
    refine ⟨?_, ?_, ?_⟩ <;> linarith

/-- Settles O31: both phases are wrapped sums of two numbers in `[0, 1]`. -/
theorem phasesStayInTheUnitInterval : Obligations.PhasesStayInTheUnitInterval := by
  refine ⟨⟨fun q e hq hpos hfin hle h0 h1 => ?_, fun q e hq hpos _ hle h0 h1 => ?_⟩, real_nextPhase⟩
  · obtain ⟨hstep0, hstep1⟩ := F32.phaseStep_in_unit hq hpos hfin hle
    obtain ⟨hoff0, hoff1⟩ := hq .phaseOffset
    obtain ⟨hnext0, hnext1⟩ := F32.wrapPhase_add_in_unit h0 h1 hstep0 hstep1
    exact ⟨hnext0, hnext1, F32.wrapPhase_add_in_unit h0 h1 hoff0 hoff1⟩
  · rw [real_gt, real_zero] at hpos
    rw [real_le] at hle
    rw [real_le, real_zero] at h0
    rw [real_le, real_one] at h1
    simp only [real_le, real_zero, real_one]
    obtain ⟨hstep0, hstep1⟩ := real_phaseStep_in_unit hq hpos hle
    obtain ⟨hoff0, hoff1⟩ := real_offset_in_unit hq
    obtain ⟨hnext0, hnext1⟩ := real_wrapPhase_add_in_unit h0 h1 hstep0 hstep1
    exact ⟨hnext0, hnext1, real_wrapPhase_add_in_unit h0 h1 hoff0 hoff1⟩

end
end

section
/-! SUPPORT. The interpolator: its two indices, the weights of its blend (R111 to R114), and the operands at which an
operation of profile F32 is exact. -/

namespace Sys2Proof.Machine

/-! The indices (R111, R112). -/

theorem normaliseIndex_eq_mod {cap i : Nat} (h : i ≤ cap) : normaliseIndex cap i = i % cap := by
  rw [normaliseIndex]
  split
  next hge => rw [Nat.le_antisymm h hge, Nat.sub_self, Nat.mod_self]
  next hlt => rw [Nat.mod_eq_of_lt (not_le.1 hlt)]

theorem nextIndex_eq_mod {cap i : Nat} (h : i < cap) : nextIndex cap i = (i + 1) % cap :=
  normaliseIndex_eq_mod h

/-! Profile REAL (R111, R113, R114). -/

theorem real_blend (a b fr : Rat) : blend Machine.real a b fr = (1 - fr) * a + fr * b := by
  rw [blend, real_add, real_mul, real_mul, real_sub, real_one]

/-- A blend is a convex combination of its two words (R114 (c)). -/
theorem real_blend_between (a b : Rat) {fr : Rat} (h0 : 0 ≤ fr) (h1 : fr ≤ 1) :
    min a b ≤ blend Machine.real a b fr ∧ blend Machine.real a b fr ≤ max a b := by
  have hw : 0 ≤ 1 - fr := sub_nonneg.2 h1
  rw [real_blend]
  exact ⟨Convex.min_le_combo a b hw h0 (sub_add_cancel 1 fr), Convex.combo_le_max a b hw h0 (sub_add_cancel 1 fr)⟩

theorem real_blend_zero (a b : Rat) : blend Machine.real a b 0 = a := by
  rw [real_blend, sub_zero, one_mul, zero_mul, add_zero]

/-- `floorNat` is the floor, where it is defined. -/
theorem real_floorNat_eq_some {a : Rat} {i : Nat} :
    Machine.real.floorNat a = some i ↔ 0 ≤ a ∧ (i : Int) = a.floor := by
  by_cases h : 0 ≤ a
  · have hfloor : 0 ≤ a.floor := Rat.le_floor_iff.2 (by exact_mod_cast h)
    rw [real_floorNat a h, Option.some.injEq, and_iff_right h]
    omega
  · have hnone : Machine.real.floorNat a = none := if_neg h
    simp [hnone, h]

/-- A position in `[0, CAP]` has a floor, of at most `CAP` (R111). -/
theorem real_floorNat_of_le {cap : Nat} {rp : Rat} (h0 : 0 ≤ rp) (h1 : rp ≤ cap) :
    ∃ i, Machine.real.floorNat rp = some i ∧ i ≤ cap := by
  have hle : rp.floor ≤ cap := by exact_mod_cast (Rat.floor_le rp).trans h1
  exact ⟨_, real_floorNat rp h0, by omega⟩

/-- The fractional part lies in `[0, 1)` (R114 (b)). -/
theorem real_fraction {rp : Rat} {i : Nat} (h : (i : Int) = rp.floor) : 0 ≤ rp - i ∧ rp - i < 1 := by
  have hfloor : (i : Rat) = rp.floor := by exact_mod_cast congrArg (Int.cast (R := Rat)) h
  have hlt : rp < rp.floor + 1 := by exact_mod_cast Rat.lt_floor_add_one rp
  rw [hfloor]
  exact ⟨sub_nonneg.2 (Rat.floor_le rp), sub_lt_iff_lt_add'.2 hlt⟩

/-! Profile F32: zeros. -/

theorem F32.isFinite_of_mag_eq_zero {z : Word} (h : F32.mag z = 0) : F32.isFinite z = true := by
  rw [F32.isFinite, h]
  decide

theorem F32.val_of_mag_eq_zero {z : Word} (h : F32.mag z = 0) : F32.val z = 0 := by
  rw [← Int.natAbs_eq_zero, F32.val_natAbs, h, F32.units_zero]

/-- The zero of either sign. -/
theorem F32.mag_ofParts_zero (s : Bool) : F32.mag (F32.ofParts s 0) = 0 := F32.mag_ofParts s (by norm_num)

/-! Profile F32: sums and differences. -/

theorem F32.add_of_finite {a b : Word} (ha : F32.isFinite a = true) (hb : F32.isFinite b = true) :
    F32.add a b = if F32.val a + F32.val b = 0 then F32.ofParts (F32.sign a && F32.sign b) 0
      else F32.round (F32.val a + F32.val b) 1 := by
  rw [F32.add, F32.isNaN_of_finite ha, F32.isNaN_of_finite hb, F32.addWith, F32.isInf_of_finite ha,
    F32.isInf_of_finite hb]
  rfl

theorem F32.sub_of_finite {a b : Word} (ha : F32.isFinite a = true) (hb : F32.isFinite b = true) :
    F32.sub a b = F32.add a (F32.neg b) := by
  have hneg : F32.isFinite (F32.neg b) = true := (F32.isFinite_neg b).trans hb
  rw [F32.sub, F32.add, F32.isNaN_of_finite ha, F32.isNaN_of_finite hb, F32.isNaN_of_finite hneg, F32.addWith,
    F32.addWith, F32.isInf_of_finite ha, F32.isInf_of_finite hneg]
  rfl

/-- The value of a nonzero datum is rounded to the datum. -/
theorem F32.round_val {a : Word} (hn : F32.isNaN a = false) (h0 : F32.val a ≠ 0) : F32.round (F32.val a) 1 = a := by
  have hsign : decide (F32.val a < 0) = F32.sign a := by
    rw [Bool.eq_iff_iff, decide_eq_true_iff, F32.val_neg_iff h0]
  have hmag : F32.roundUnits (F32.units (F32.mag a)) 1 = F32.mag a := by
    simpa only [mul_one] using F32.roundUnits_exact one_pos (F32.mag_le_of_not_nan hn)
  rw [F32.round, hsign, F32.val_natAbs, hmag, F32.ofParts_parts]

/-- A zero added to a nonzero datum leaves it alone. -/
theorem F32.add_of_mag_eq_zero {a z : Word} (ha : F32.isFinite a = true) (h0 : F32.val a ≠ 0) (hz : F32.mag z = 0) :
    F32.add a z = a := by
  rw [F32.add_of_finite ha (F32.isFinite_of_mag_eq_zero hz), F32.val_of_mag_eq_zero hz, add_zero, if_neg h0,
    F32.round_val (F32.isNaN_of_finite ha) h0]

/-- A zero of either sign added to `+0` gives `+0`. -/
theorem F32.zero_add_of_mag_eq_zero {z : Word} (hz : F32.mag z = 0) :
    F32.add Machine.f32.zero z = Machine.f32.zero := by
  obtain ⟨hzf, hzv⟩ := F32.zero_facts
  have hsign : F32.sign Machine.f32.zero = false := by decide
  rw [F32.add_of_finite hzf (F32.isFinite_of_mag_eq_zero hz), hzv, F32.val_of_mag_eq_zero hz, add_zero, if_pos rfl,
    hsign, Bool.false_and]
  decide

theorem F32.sub_self {a : Word} (ha : F32.isFinite a = true) : F32.sub a a = Machine.f32.zero := by
  rw [F32.sub_of_finite ha ha, F32.add_of_finite ha ((F32.isFinite_neg a).trans ha), F32.val_neg, add_neg_cancel,
    if_pos rfl, F32.sign_neg, Bool.and_not_self]
  decide

/-- A difference that is not negative carries the sign `+`, a zero of equal operands included. -/
theorem F32.sign_sub {a b : Word} (ha : F32.isFinite a = true) (hb : F32.isFinite b = true)
    (hs : F32.sign a = false) (hle : F32.val b ≤ F32.val a) : F32.sign (F32.sub a b) = false := by
  rw [F32.sub_of_finite ha hb, F32.add_of_finite ha ((F32.isFinite_neg b).trans hb), F32.val_neg, hs]
  split
  next => exact F32.sign_ofParts _ (by norm_num)
  next =>
    rw [F32.round, F32.sign_ofParts _ (F32.roundUnits_lt _ _)]
    exact decide_eq_false (by omega)

/-! Profile F32: products. -/

/-- The product of finite data: that of the magnitudes rounded, under that of the signs. -/
theorem F32.mul_of_finite {a b : Word} (ha : F32.isFinite a = true) (hb : F32.isFinite b = true) :
    F32.mul a b = F32.ofParts (F32.sign a != F32.sign b)
      (F32.roundUnits (F32.units (F32.mag a) * F32.units (F32.mag b)) (2 ^ 149)) := by
  rw [F32.mul, F32.isNaN_of_finite ha, F32.isNaN_of_finite hb, F32.isInf_of_finite ha, F32.isInf_of_finite hb]
  rfl

theorem F32.mul_comm_of_finite {a b : Word} (ha : F32.isFinite a = true) (hb : F32.isFinite b = true) :
    F32.mul a b = F32.mul b a := by
  rw [F32.mul_of_finite ha hb, F32.mul_of_finite hb ha, bne_comm, mul_comm]

theorem F32.one_mul {a : Word} (ha : F32.isFinite a = true) : F32.mul Machine.f32.one a = a := by
  have hsign : F32.sign Machine.f32.one = false := by decide
  have hunits : F32.units (F32.mag Machine.f32.one) = 2 ^ 149 := by decide
  rw [F32.mul_of_finite F32.one_facts.1 ha, hsign, hunits, Bool.false_bne, mul_comm,
    F32.roundUnits_exact (by positivity) (F32.mag_le_of_not_nan (F32.isNaN_of_finite ha)), F32.ofParts_parts]

/-- The product of `+0` with a finite datum is the zero of the datum's sign. -/
theorem F32.zero_mul {a : Word} (ha : F32.isFinite a = true) :
    F32.mul Machine.f32.zero a = F32.ofParts (F32.sign a) 0 := by
  have hsign : F32.sign Machine.f32.zero = false := by decide
  have hunits : F32.units (F32.mag Machine.f32.zero) = 0 := by decide
  rw [F32.mul_of_finite F32.zero_facts.1 ha, hsign, hunits, Nat.zero_mul, F32.roundUnits_zero (by positivity),
    Bool.false_bne]

/-! Profile F32: the position and the blend (R111, R113). -/

theorem F32.floorNat_eq_some {a : Word} {i : Nat} :
    F32.floorNat a = some i ↔ F32.isFinite a = true ∧ 0 ≤ F32.val a ∧ F32.units (F32.mag a) / 2 ^ 149 = i := by
  rw [F32.floorNat]
  split <;> simp_all

theorem F32.floorNat_ofNat {n : Nat} (h : n ≤ 2 ^ 24) : F32.floorNat (F32.ofNat n) = some n := by
  obtain ⟨hf, hv⟩ := F32.ofNat_exact h
  have hunits : F32.units (F32.mag (F32.ofNat n)) = n * 2 ^ 149 := by
    rw [← F32.val_natAbs, hv]
    norm_cast
  refine F32.floorNat_eq_some.2 ⟨hf, ?_, ?_⟩
  · rw [hv]
    positivity
  · rw [hunits, Nat.mul_div_cancel _ (by positivity)]

/-- At the weight 0 the blend is its first word, when that is not a zero. -/
theorem f32_blend_zero {a b : Word} (ha : F32.isFinite a = true) (h0 : F32.val a ≠ 0) (hb : F32.isFinite b = true) :
    blend Machine.f32 a b Machine.f32.zero = a := by
  have hone : F32.sub Machine.f32.one Machine.f32.zero = Machine.f32.one := by decide
  rw [blend, f32_sub, hone, f32_mul, f32_mul, f32_add, F32.one_mul ha, F32.zero_mul hb]
  exact F32.add_of_mag_eq_zero ha h0 (F32.mag_ofParts_zero _)

end Sys2Proof.Machine
end

section
/-! The obligations on the interpolator (R110 to R114, R179). -/

section

open Sys2Proof Sys2Proof.Machine

/-- Settles O33: the position `CAP` splits into the index 0 and the fraction 0, at which the blend is its first word. -/
theorem readAtCapacityReturnsFirstWord : Obligations.ReadAtCapacityReturnsFirstWord := by
  intro e c hlow hhigh hfin hne hnext
  have hindex : normaliseIndex e.cap e.cap = 0 := by rw [normaliseIndex_eq_mod le_rfl, Nat.mod_self]
  refine interpAt_eq_ok.2 ⟨e.cap, F32.floorNat_ofNat hhigh, normaliseIndex_lt hlow le_rfl, ?_⟩
  rw [hindex, f32_sub, f32_ofNat, F32.sub_self (F32.ofNat_exact hhigh).1, f32_blend_zero hfin hne hnext]

/-- Settles O34: the floor is at most `CAP`, and the blend at a fraction in `[0, 1)` is a convex combination. -/
theorem interpolatorIsConvex : Obligations.InterpolatorIsConvex := by
  intro e c rp hcap h0 h1
  obtain ⟨i, hsome, hle⟩ := real_floorNat_of_le h0 h1
  obtain ⟨-, hfloor⟩ := real_floorNat_eq_some.1 hsome
  obtain ⟨hfr0, hfr1⟩ := real_fraction hfloor
  have hlt := normaliseIndex_lt hcap hle
  refine ⟨_, _, _, interpAt_eq_ok.2 ⟨i, hsome, hlt, rfl⟩, hlt, nextIndex_lt hlt, ?_, nextIndex_eq_mod hlt, ?_⟩
  · rw [normaliseIndex_eq_mod hle, ← hfloor, Int.natCast_emod, Int.emod_emod]
  · rw [real_zero, real_sub, real_ofNat]
    have hbetween := fun a b => real_blend_between a b hfr0 hfr1.le
    refine ⟨(hbetween _ _).1, (hbetween _ _).2, fun hwhole => ?_⟩
    have hfr : rp - i = 0 := by
      rw [sub_eq_zero, hwhole, ← hfloor, Int.cast_natCast]
    rw [hfr, real_blend_zero]

end
end

section
/-! SUPPORT. Silence: what a profile does with zeros in the sums and products of a sample step, and that a step of a silent
engine is silent (R114 (d), R122, R173). -/

namespace Sys2Proof.Machine

/-- `v` lies in `[0, 1]`. -/
def inUnit {S : Type} (N : Numerics S) (v : S) : Prop := N.le N.zero v = true ∧ N.le v N.one = true

/-- The facts about a numerics profile on which the silence of R122 and R173 rests: the sums of DLWRITE, INTERP and MIXOUT
keep `lit(0)` itself, since one of their two terms is `lit(0)` and the other a zero, of either sign in profile F32. -/
structure SilentNumerics {S : Type} (N : Numerics S) : Prop where
  word : N.dec32 0#32 = some N.zero ∧ N.enc32 N.zero = 0#32
  zeroAdd : ∀ z, isZero N z → N.add N.zero z = N.zero
  zeroMul : ∀ v, inUnit N v → isZero N (N.mul N.zero v)
  zeroMulComplement : ∀ v, inUnit N v → N.mul N.zero (N.sub N.one v) = N.zero
  mulComm : ∀ v, inUnit N v → N.mul v N.zero = N.mul N.zero v ∧
    N.mul (N.sub N.one v) N.zero = N.mul N.zero (N.sub N.one v)
  fraction : ∀ rp i, N.floorNat rp = some i → i ≤ 2 ^ 24 → inUnit N (N.sub rp (N.ofNat i))
  params : ∀ q, paramsInRange N q → inUnit N q.feedback ∧ inUnit N q.mix

/-! Profile F32. -/

theorem f32_isZero {z : Word} : isZero Machine.f32 z ↔ F32.mag z = 0 := by
  obtain ⟨hzf, hzv⟩ := F32.zero_facts
  have hzn := F32.isNaN_of_finite hzf
  rw [isZero, f32_le, f32_le, F32.le_iff, F32.le_iff, hzv]
  constructor
  · rintro ⟨⟨-, -, hle⟩, -, -, hge⟩
    by_contra hne
    have hpos := F32.units_pos hne
    rw [← F32.val_natAbs] at hpos
    omega
  · intro hz
    have hn := F32.isNaN_of_finite (F32.isFinite_of_mag_eq_zero hz)
    have hv := F32.val_of_mag_eq_zero hz
    exact ⟨⟨hn, hzn, hv.le⟩, hzn, hn, hv.ge⟩

/-- A datum in `[0, 1]`: finite, and with a complement to 1 that is finite and has the sign `+`. -/
theorem F32.of_inUnit {v : Word} (h : inUnit Machine.f32 v) :
    F32.isFinite v = true ∧ F32.isFinite (F32.sub Machine.f32.one v) = true ∧
      F32.sign (F32.sub Machine.f32.one v) = false := by
  obtain ⟨hzf, hzv⟩ := F32.zero_facts
  obtain ⟨h1f, -⟩ := F32.one_facts
  obtain ⟨hf, h0, h1⟩ := F32.of_inRange hzf h1f h
  obtain ⟨hn, hv⟩ := F32.sub_finite h1f hf
  obtain ⟨hsf, -, -⟩ := F32.between_of_rounded hn hv one_pos hzf h1f (by omega) (by omega)
  exact ⟨hf, hsf, F32.sign_sub h1f hf (by decide) h1⟩

/-- The fractional part lies in `[0, 1]`: the exact difference does, and rounding keeps it there. -/
theorem F32.fraction_in_unit {rp : Word} {i : Nat} (h : F32.floorNat rp = some i) (hi : i ≤ 2 ^ 24) :
    inUnit Machine.f32 (F32.sub rp (F32.ofNat i)) := by
  obtain ⟨hzf, hzv⟩ := F32.zero_facts
  obtain ⟨h1f, h1v⟩ := F32.one_facts
  obtain ⟨hif, hiv⟩ := F32.ofNat_exact hi
  obtain ⟨hf, h0, hfloor⟩ := F32.floorNat_eq_some.1 h
  rw [← F32.val_natAbs] at hfloor
  obtain ⟨hn, hv⟩ := F32.sub_finite hf hif
  obtain ⟨-, hlo, hhi⟩ := F32.between_of_rounded hn hv one_pos hzf h1f (by omega) (by omega)
  exact ⟨F32.le_iff.2 ⟨F32.isNaN_of_finite hzf, hn, hlo⟩, F32.le_iff.2 ⟨hn, F32.isNaN_of_finite h1f, hhi⟩⟩

theorem f32_silent : SilentNumerics Machine.f32 where
  word := ⟨by decide, by decide⟩
  zeroAdd z hz := F32.zero_add_of_mag_eq_zero (f32_isZero.1 hz)
  zeroMul v hv := by
    obtain ⟨hf, -, -⟩ := F32.of_inUnit hv
    rw [f32_isZero, f32_mul, F32.zero_mul hf, F32.mag_ofParts_zero]
  zeroMulComplement v hv := by
    obtain ⟨-, hf, hs⟩ := F32.of_inUnit hv
    rw [f32_mul, f32_sub, F32.zero_mul hf, hs]
    decide
  mulComm v hv := by
    obtain ⟨hf, hcf, -⟩ := F32.of_inUnit hv
    obtain ⟨hzf, -⟩ := F32.zero_facts
    exact ⟨F32.mul_comm_of_finite hf hzf, F32.mul_comm_of_finite hcf hzf⟩
  fraction rp i := F32.fraction_in_unit
  params q hq := by
    obtain ⟨hfb0, hfb1⟩ := hq .feedback
    exact ⟨⟨hfb0, F32.le_trans hfb1 (by decide)⟩, hq .mix⟩

/-! Profile REAL. -/

theorem real_isZero {z : Rat} : isZero Machine.real z ↔ z = 0 := by
  rw [isZero, real_le, real_le, real_zero, le_antisymm_iff]

theorem real_inUnit {v : Rat} : inUnit Machine.real v ↔ 0 ≤ v ∧ v ≤ 1 := by
  rw [inUnit, real_le, real_le, real_zero, real_one]

theorem real_silent : SilentNumerics Machine.real where
  word := by decide +kernel
  zeroAdd z hz := by rw [real_isZero.1 hz, real_zero, real_add, add_zero]
  zeroMul v _ := by rw [real_isZero, real_zero, real_mul, zero_mul]
  zeroMulComplement v _ := by rw [real_zero, real_mul, zero_mul]
  mulComm v _ := ⟨mul_comm _ _, mul_comm _ _⟩
  fraction rp i h _ := by
    obtain ⟨-, hfloor⟩ := real_floorNat_eq_some.1 h
    obtain ⟨hfr0, hfr1⟩ := real_fraction hfloor
    exact real_inUnit.2 ⟨hfr0, hfr1.le⟩
  params q hq := by
    have hfb := hq .feedback
    have hmix := hq .mix
    rw [inRange, real_table, real_le, real_le] at hfb hmix
    obtain ⟨hfb0, hfb1⟩ := hfb
    exact ⟨real_inUnit.2 ⟨hfb0, hfb1.trans (show (49 / 50 : Rat) ≤ 1 by norm_num)⟩, real_inUnit.2 hmix⟩

/-! A step of a silent engine. -/

section

variable {S : Type} {N : Numerics S} (Z : SilentNumerics N)

include Z

/-- "When `a` and `b` are both `lit(0)`, `y[c] = lit(0)`" (R114 (d)). -/
theorem SilentNumerics.blend_zero {fr : S} (h : inUnit N fr) : blend N N.zero N.zero fr = N.zero := by
  obtain ⟨hcomm, hcommC⟩ := Z.mulComm fr h
  rw [blend, hcommC, hcomm, Z.zeroMulComplement fr h, Z.zeroAdd _ (Z.zeroMul fr h)]

/-- MIXOUT of a silent input and a silent delayed sample (R125). -/
theorem SilentNumerics.mixAt_zero {mix : S} (h : inUnit N mix) : mixAt N mix N.zero N.zero = N.zero := by
  rw [mixAt, Z.zeroMulComplement mix h, Z.zeroAdd _ (Z.zeroMul mix h)]

/-- FBUPD of a silent delayed sample (R120). -/
theorem SilentNumerics.feedback_zero {fbk : S} (h : inUnit N fbk) : isZero N (N.mul fbk N.zero) := by
  rw [(Z.mulComm fbk h).1]
  exact Z.zeroMul fbk h

/-- INTERP of an empty delay line, at a position whose floor is at most `2^24`. -/
theorem SilentNumerics.interpAt_empty {e : Engine S} {c i : Nat} {rp y : S} (hdl : e.dl = [])
    (hfloor : N.floorNat rp = some i) (hi : i ≤ 2 ^ 24) (h : interpAt N e c rp = .ok y) : y = N.zero := by
  obtain ⟨j, hj, -, rfl⟩ := interpAt_eq_ok.1 h
  obtain rfl : i = j := Option.some.inj (hfloor.symm.trans hj)
  rw [hdl]
  exact Z.blend_zero (Z.fraction rp i hfloor hi)

variable [DecidableEq S]

/-- DLWRITE of silence with no feedback writes no word (R90). -/
theorem SilentNumerics.delayedRams_empty {e : Engine S} (hdl : e.dl = []) (hl : isZero N e.fb.left)
    (hr : isZero N e.fb.right) : delayedRams N ⟨N.zero, N.zero⟩ e = [] := by
  rw [delayedRams, hdl, Z.zeroAdd _ hl, Z.zeroAdd _ hr]
  simp [Memory.write]

/-- A sample step of a silent engine on a silent input: silence in the delay lines, the feedback and the outputs (R122). -/
theorem SilentNumerics.sampleStep_silent (H : SafeNumerics N) {e : Engine S} (he : EngineInv N e) (hr : e.ready = true)
    (hstale : e.cfg.paramStale = false) (hdl : e.dl = []) (hl : isZero N e.fb.left) (hfr : isZero N e.fb.right) :
    ∃ e', sampleStep N false ⟨N.zero, N.zero⟩ e = .ok (e', ⟨N.zero, N.zero⟩) ∧ e'.dl = [] ∧
      e'.responses = e.responses ∧ isZero N e'.fb.left ∧ isZero N e'.fb.right := by
  obtain ⟨e', o, h⟩ := sampleStep_completes H false ⟨N.zero, N.zero⟩ he hr
  obtain ⟨-, ⟨yl, yr⟩, hy, rfl, rfl⟩ := sampleStep_eq_ok.1 h
  rw [snapshot_of_not_stale _ hstale] at h hy
  obtain ⟨-, hcap, hhead, hfs, hfin, hroom, -, -⟩ := he.session hr
  obtain ⟨-, -, hram, -⟩ := he.config
  have hcap24 : e.cap ≤ 2 ^ 24 := hcap.trans hram
  obtain ⟨⟨i, hi, hicap⟩, j, hj, hjcap⟩ := readPositions_safe H he.params hcap24 hhead hfs hfin hroom
  obtain ⟨hyl, hyr⟩ := interp_eq_ok.1 hy
  have hempty := Z.delayedRams_empty hdl hl hfr
  obtain rfl : yl = N.zero := Z.interpAt_empty hempty hi (hicap.trans hcap24) hyl
  obtain rfl : yr = N.zero := Z.interpAt_empty hempty hj (hjcap.trans hcap24) hyr
  obtain ⟨hfbk, hmix⟩ := Z.params e.p he.params
  have hout : mixOut N e.p ⟨N.zero, N.zero⟩ ⟨N.zero, N.zero⟩ = ⟨N.zero, N.zero⟩ := by
    rw [mixOut, Z.mixAt_zero hmix]
  rw [hout] at h
  exact ⟨_, h, hempty, rfl, Z.feedback_zero hfbk, Z.feedback_zero hfbk⟩

/-- SMP of silence in a silent session answers silence and leaves the session silent (R132). -/
theorem SilentNumerics.smp_silent (H : SafeNumerics N) {inj : Engine S → State} (A : ActsOn N inj) {e : Engine S}
    (he : EngineInv N e) (hr : e.ready = true) (hstale : e.cfg.paramStale = false) (hdl : e.dl = [])
    (hl : isZero N e.fb.left) (hfr : isZero N e.fb.right) :
    ∃ e', exec (.smp 0#32 0#32) (inj e) = .next (inj e') ∧ e'.responses = e.responses ++ [⟨.ok, 0#32, 0#32⟩] ∧
      e'.dl = [] ∧ isZero N e'.fb.left ∧ isZero N e'.fb.right := by
  obtain ⟨hdec, henc⟩ := Z.word
  obtain ⟨d, hstep, hddl, hresp, hdl, hdr⟩ := Z.sampleStep_silent H he hr hstale hdl hl hfr
  refine ⟨respondOk 0#32 0#32 d, ?_, ?_, hddl, hdl, hdr⟩
  · rw [A.smp, processSample_runs hdec hdec hr hstep, henc, mapNext_next]
  · rw [respondOk, respond, hresp]

end

end Sys2Proof.Machine
end

section
/-! The obligation on silence (R114, R122, R173). -/

section

open Sys2Proof Sys2Proof.Machine

/-- Settles O49: a product with a zero is a zero, the sums keep `lit(0)`, and `lit(0)` is encoded as the word 0. -/
theorem silenceStaysSilent : Obligations.SilenceStaysSilent :=
  ⟨fun _ => f32_silent.smp_silent f32_safe actsOn_f32, fun _ => real_silent.smp_silent real_safe actsOn_real⟩

end
end

section
/-! SUPPORT. The feedback loop under profile REAL: bounds on the delay lines and the feedback states, and how a run of
sample steps on silent input lowers them (R114, R120, R122, R125). -/

namespace Sys2Proof.Machine

/-- Both channels are at most `B` in size. -/
def Stereo.Within (B : Rat) (v : Stereo Rat) : Prop := |v.left| ≤ B ∧ |v.right| ≤ B

/-- Every word of the two delay lines below `cap` is at most `B` in size. -/
def Memory.LinesWithin (B : Rat) (cap : Nat) (m : Memory Rat) : Prop :=
  ∀ c i, c < 2 → i < cap → |Memory.read 0 m (c, i)| ≤ B

theorem Stereo.Within.mono {B B' : Rat} {v : Stereo Rat} (h : v.Within B) (hB : B ≤ B') : v.Within B' := by
  obtain ⟨hl, hr⟩ := h
  exact ⟨hl.trans hB, hr.trans hB⟩

/-! The stages that a bound passes through. -/

/-- A gain in `[0, r]` scales a bound by at most `r`. -/
theorem abs_gain_mul_le {g r y B : Rat} (h0 : 0 ≤ g) (hr : g ≤ r) (hy : |y| ≤ B) : |g * y| ≤ r * B := by
  rw [abs_mul, abs_of_nonneg h0]
  exact mul_le_mul hr hy (abs_nonneg y) (h0.trans hr)

/-- INTERP does not leave the bound of its line: a blend is convex (R114 (c)). -/
theorem real_interpAt_within {e : Engine Rat} {c : Nat} {rp y B : Rat} (hc : c < 2)
    (hB : Memory.LinesWithin B e.cap e.dl) (h : interpAt Machine.real e c rp = .ok y) : |y| ≤ B := by
  obtain ⟨i, hi, hlt, rfl⟩ := interpAt_eq_ok.1 h
  obtain ⟨-, hfloor⟩ := real_floorNat_eq_some.1 hi
  obtain ⟨hfr0, hfr1⟩ := real_fraction hfloor
  obtain ⟨ha, ha'⟩ := abs_le.1 (hB c _ hc hlt)
  obtain ⟨hb, hb'⟩ := abs_le.1 (hB c _ hc (nextIndex_lt hlt))
  obtain ⟨hlo, hhi⟩ := real_blend_between _ _ hfr0 hfr1.le
  exact abs_le.2 ⟨(le_min ha hb).trans hlo, hhi.trans (max_le ha' hb')⟩

/-- FBUPD scales by FEEDBACK, which is at most 0.98 (R12, R120). -/
theorem real_feedbackOf_within {q : Params Rat} {y : Stereo Rat} {B : Rat} (hq : paramsInRange Machine.real q)
    (hy : y.Within B) : (feedbackOf Machine.real q y).Within (98 / 100 * B) := by
  have hfbk := hq .feedback
  rw [inRange, real_table, real_le, real_le] at hfbk
  obtain ⟨h0, h1⟩ := hfbk
  have h98 : q.feedback ≤ 98 / 100 := h1.trans (show (49 / 50 : Rat) ≤ 98 / 100 by norm_num)
  obtain ⟨hl, hr⟩ := hy
  exact ⟨abs_gain_mul_le h0 h98 hl, abs_gain_mul_le h0 h98 hr⟩

/-- MIXOUT of a silent input scales the delayed sample by MIX, which is at most 1 (R125). -/
theorem real_mixOut_silent_within {q : Params Rat} {y : Stereo Rat} {B : Rat} (hq : paramsInRange Machine.real q)
    (hy : y.Within B) : (mixOut Machine.real q ⟨0, 0⟩ y).Within B := by
  obtain ⟨-, hmix⟩ := real_silent.params q hq
  obtain ⟨h0, h1⟩ := real_inUnit.1 hmix
  have hlane : ∀ v : Rat, |v| ≤ B → |mixAt Machine.real q.mix 0 v| ≤ B := by
    intro v hv
    have hwet : mixAt Machine.real q.mix 0 v = q.mix * v := by
      rw [mixAt, real_add, real_mul, real_mul, zero_mul, zero_add, mul_comm]
    rw [hwet]
    exact (abs_gain_mul_le h0 h1 hv).trans_eq (one_mul B)
  obtain ⟨hl, hr⟩ := hy
  exact ⟨hlane _ hl, hlane _ hr⟩

/-- DLWRITE of a silent input stores the feedback states (R90). -/
theorem real_delayedRams_silent_within {e : Engine Rat} {B : Rat} (hwf : Memory.wf Machine.real.zero e.dl = true)
    (hfb : e.fb.Within B) {c : Nat} (hc : c < 2) :
    |Memory.read 0 (delayedRams Machine.real ⟨0, 0⟩ e) (c, e.wh)| ≤ B := by
  obtain ⟨hl, hr⟩ := hfb
  simp only [delayedRams, real_add, zero_add]
  rw [← real_zero, Memory.read_write _ _ _ (Memory.wf_write _ _ hwf), Memory.read_write _ _ _ hwf]
  obtain rfl | rfl : c = 0 ∨ c = 1 := by omega
  · simpa using hl
  · simpa using hr

/-! A sample step on silent input. -/

/-- The word a silent sample step stores at the write head is bounded as the feedback states were. -/
theorem sampleStep_silent_stored_within {b : Bool} {e e' : Engine Rat} {o : Stereo Rat} {B : Rat}
    (he : EngineInv Machine.real e) (h : sampleStep Machine.real b ⟨0, 0⟩ e = .ok (e', o)) (hfb : e.fb.Within B)
    {c : Nat} (hc : c < 2) : |Memory.read 0 e'.dl (c, e.wh)| ≤ B := by
  obtain ⟨-, y, -, rfl, -⟩ := sampleStep_eq_ok.1 h
  exact real_delayedRams_silent_within he.delayForm hfb hc

/-- A silent sample step reads the lines as they are after its DLWRITE: a bound on these bounds its outputs, and 0.98 of it
the new feedback states. -/
theorem sampleStep_silent_read_within {b : Bool} {e e' : Engine Rat} {o : Stereo Rat} {B : Rat}
    (he : EngineInv Machine.real e) (h : sampleStep Machine.real b ⟨0, 0⟩ e = .ok (e', o))
    (hB : Memory.LinesWithin B e'.cap e'.dl) : e'.fb.Within (98 / 100 * B) ∧ o.Within B := by
  obtain ⟨-, y, hy, rfl, rfl⟩ := sampleStep_eq_ok.1 h
  obtain ⟨hleft, hright⟩ := interp_eq_ok.1 hy
  have hread : y.Within B :=
    ⟨real_interpAt_within (by norm_num) hB hleft, real_interpAt_within (by norm_num) hB hright⟩
  have hq := snapshot_inRange b he.params he.historyPrev he.historyCur
  exact ⟨real_feedbackOf_within hq hread, real_mixOut_silent_within hq hread⟩

/-! A run of silent sample steps. -/

/-- What holds of the engine `d` that `k` silent sample steps reach from `e`, whose lines are within `M` and whose feedback
states are within `0.98 M`. The feedback states are within 0.98 of every bound on the lines that the latest step read;
before the first step, of `M` and what is above it. -/
structure DecayedAfter (M : Rat) (e : Engine Rat) (k : Nat) (d : Engine Rat) : Prop where
  inv : EngineInv Machine.real d
  ready : d.ready = true
  lines : Memory.LinesWithin M d.cap d.dl
  rewritten : ∀ c j, c < 2 → j < k → |Memory.read 0 d.dl (c, (e.wh + j) % e.cap)| ≤ 98 / 100 * M
  feedback : ∀ B, Memory.LinesWithin B d.cap d.dl → 0 < k ∨ M ≤ B → d.fb.Within (98 / 100 * B)

/-- One silent sample step more: it replaces the word at the write head `(WH + k) mod CAP` by a feedback state. -/
theorem DecayedAfter.sampleStep {M : Rat} {e d d' : Engine Rat} {o : Stereo Rat} {k : Nat} (h : DecayedAfter M e k d)
    (hM : 0 ≤ M) (hwh : d.wh = (e.wh + k) % e.cap) (hs : sampleStep Machine.real false ⟨0, 0⟩ d = .ok (d', o)) :
    DecayedAfter M e (k + 1) d' ∧ o.Within M := by
  obtain ⟨hkeep, -, -, hother⟩ := sampleStep_keeps hs
  rw [real_zero] at hother
  have hcap : d'.cap = d.cap := by rw [hkeep]
  have hready : d'.ready = true := by rw [hkeep]; exact h.ready
  have hstored : ∀ c, c < 2 → |Memory.read 0 d'.dl (c, d.wh)| ≤ 98 / 100 * M := fun c hc =>
    sampleStep_silent_stored_within h.inv hs (h.feedback M h.lines (.inr le_rfl)) hc
  have hlines : Memory.LinesWithin M d'.cap d'.dl := by
    intro c i hc hi
    by_cases hhead : i = d.wh
    · rw [hhead]
      exact (hstored c hc).trans (by linarith)
    · rw [hother c i hhead]
      exact h.lines c i hc (hcap ▸ hi)
  have hrewritten : ∀ c j, c < 2 → j < k + 1 → |Memory.read 0 d'.dl (c, (e.wh + j) % e.cap)| ≤ 98 / 100 * M := by
    intro c j hc hj
    by_cases hhead : (e.wh + j) % e.cap = d.wh
    · rw [hhead]
      exact hstored c hc
    · have hne : j ≠ k := fun hjk => hhead (by rw [hjk, hwh])
      rw [hother c _ hhead]
      exact h.rewritten c j hc (by omega)
  exact ⟨⟨h.inv.sampleStep real_safe h.ready hs, hready, hlines, hrewritten,
    fun _ hB _ => (sampleStep_silent_read_within h.inv hs hB).1⟩, (sampleStep_silent_read_within h.inv hs hlines).2⟩

/-- Silent sample steps complete one after the other, with outputs within the bound of the lines. -/
theorem samplesThrough_silent_decays {e : Engine Rat} {M : Rat} (hM : 0 ≤ M) (hwh : e.wh < e.cap)
    (h0 : DecayedAfter M e 0 e) (k : Nat) :
    ∃ d y, samplesThrough Machine.real (fun _ => ⟨0, 0⟩) k e = some (d, y) ∧ DecayedAfter M e k d ∧
      ∀ s, s < k → (y s).Within M := by
  induction k with
  | zero => exact ⟨e, _, rfl, h0, fun s hs => absurd hs (Nat.not_lt_zero s)⟩
  | succ k ih =>
    obtain ⟨d, y, hrun, hd, hy⟩ := ih
    obtain ⟨d', o, hs⟩ := sampleStep_completes real_safe false ⟨0, 0⟩ hd.inv hd.ready
    obtain ⟨hd', ho⟩ := hd.sampleStep hM (samplesThrough_head hwh hrun).2 hs
    refine ⟨d', _, samplesThrough_succ.2 ⟨d, y, o, hrun, hs, rfl⟩, hd', fun s hlt => ?_⟩
    split
    next => exact ho
    next hne => exact hy s (by omega)

/-- The `CAP` indices from the write head on, modulo `CAP`, are all of the indices. -/
theorem exists_add_mod_eq {cap wh i : Nat} (hwh : wh < cap) (hi : i < cap) : ∃ j, j < cap ∧ (wh + j) % cap = i := by
  refine ⟨(i + (cap - wh)) % cap, Nat.mod_lt _ (Nat.zero_lt_of_lt hi), ?_⟩
  have hsum : wh + (i + (cap - wh)) = i + cap := by omega
  rw [Nat.add_mod_mod, hsum, Nat.add_mod_right, Nat.mod_eq_of_lt hi]

/-- After `CAP` silent steps every word has been replaced, so that the lines are within 0.98 of the old bound. -/
theorem DecayedAfter.lines_of_capacity {M : Rat} {e d : Engine Rat} (h : DecayedAfter M e e.cap d) (hwh : e.wh < e.cap) :
    Memory.LinesWithin (98 / 100 * M) e.cap d.dl := by
  intro c i hc hi
  obtain ⟨j, hj, rfl⟩ := exists_add_mod_eq hwh hi
  exact h.rewritten c j hc hj

end Sys2Proof.Machine
end

section
/-! The obligation on the decay of the feedback (R122). -/

section

open Sys2Proof Sys2Proof.Machine

/-- Settles O50: each of `CAP` silent steps replaces one word by a feedback state, which is at most 0.98 of a convex
combination of two words; the last step reads only replaced words. -/
theorem feedbackDecays : Obligations.FeedbackDecays := by
  intro e M he hr _ hlines hl hfr
  have hs := he.session hr
  have hM : 0 ≤ M := by linarith [(abs_nonneg e.fb.left).trans hl]
  have h0 : DecayedAfter M e 0 e :=
    ⟨he, hr, fun c i _ hi => hlines c i hi, fun _ j _ hj => absurd hj (Nat.not_lt_zero j),
      fun B _ hB => Stereo.Within.mono ⟨hl, hfr⟩
        (mul_le_mul_of_nonneg_left (hB.resolve_left (lt_irrefl 0)) (by norm_num))⟩
  obtain ⟨d, y, hrun, hd, hy⟩ := samplesThrough_silent_decays hM hs.head h0 e.cap
  obtain ⟨hcap, -⟩ := samplesThrough_head hs.head hrun
  have hdecayed := hd.lines_of_capacity hs.head
  obtain ⟨hfl, hfr'⟩ := hd.feedback _ (hcap ▸ hdecayed) (.inl hs.capLow)
  exact ⟨d, y, hrun, hdecayed, hfl, hfr', hy⟩

end
end

section
/-! SUPPORT. The dry/wet stage (R125, R126): profile F32 at the two ends of MIX. There one product is the sample that
counts and the other a zero, so what is left is the sum of a datum and a zero. -/

namespace Sys2Proof.Machine

/-! Profile REAL (R126). -/

theorem real_mixAt (mix x y : Rat) : mixAt Machine.real mix x y = x * (1 - mix) + y * mix := by
  rw [mixAt, real_add, real_mul, real_mul, real_sub, real_one]

/-! Profile F32: the two ends of MIX, as words, and the weights of MIXOUT there. -/

theorem f32_zero_eq : Machine.f32.zero = 0#32 := by decide

theorem f32_one_eq : Machine.f32.one = 0x3F800000#32 := by decide

theorem F32.one_sub_zero : F32.sub Machine.f32.one Machine.f32.zero = Machine.f32.one := by decide

theorem F32.one_sub_one : F32.sub Machine.f32.one Machine.f32.one = Machine.f32.zero := F32.sub_self F32.one_facts.1

/-! Profile F32: finite samples. -/

theorem F32.add_comm_of_finite {a b : Word} (ha : F32.isFinite a = true) (hb : F32.isFinite b = true) :
    F32.add a b = F32.add b a := by
  rw [F32.add_of_finite ha hb, F32.add_of_finite hb ha, add_comm, Bool.and_comm]

/-- With `mix = 0` the output is the input plus the zero that `mul(y, 0)` is. -/
theorem f32_mixAt_zero {x y : Word} (hx : F32.isFinite x = true) (hy : F32.isFinite y = true) :
    mixAt Machine.f32 Machine.f32.zero x y = F32.add x (F32.ofParts (F32.sign y) 0) := by
  rw [mixAt, f32_sub, f32_mul, f32_mul, f32_add, F32.one_sub_zero, F32.mul_comm_of_finite hx F32.one_facts.1,
    F32.one_mul hx, F32.mul_comm_of_finite hy F32.zero_facts.1, F32.zero_mul hy]

/-- The two ends of MIX mirror each other: with `mix = 1` the samples have changed places. -/
theorem f32_mixAt_one {x y : Word} (hx : F32.isFinite x = true) (hy : F32.isFinite y = true) :
    mixAt Machine.f32 Machine.f32.one x y = mixAt Machine.f32 Machine.f32.zero y x := by
  rw [f32_mixAt_zero hy hx, mixAt, f32_sub, f32_mul, f32_mul, f32_add, F32.one_sub_one,
    F32.mul_comm_of_finite hy F32.one_facts.1, F32.one_mul hy, F32.mul_comm_of_finite hx F32.zero_facts.1,
    F32.zero_mul hx]
  exact F32.add_comm_of_finite (F32.isFinite_of_mag_eq_zero (F32.mag_ofParts_zero _)) hy

/-- With `mix = 0` an input that is not a zero comes out bit for bit. -/
theorem f32_mixAt_zero_eq {x y : Word} (hx : F32.isFinite x = true) (hy : F32.isFinite y = true)
    (h0 : F32.val x ≠ 0) : mixAt Machine.f32 Machine.f32.zero x y = x := by
  rw [f32_mixAt_zero hx hy, F32.add_of_mag_eq_zero hx h0 (F32.mag_ofParts_zero _)]

/-- With `mix = 0` every finite input comes out in value. -/
theorem f32_val_mixAt_zero {x y : Word} (hx : F32.isFinite x = true) (hy : F32.isFinite y = true) :
    F32.val (mixAt Machine.f32 Machine.f32.zero x y) = F32.val x := by
  have hz := F32.mag_ofParts_zero (F32.sign y)
  obtain ⟨-, hval⟩ := F32.add_finite hx (F32.isFinite_of_mag_eq_zero hz)
  rw [f32_mixAt_zero hx hy, hval, F32.val_of_mag_eq_zero hz, add_zero]
  simpa only [Nat.cast_one, mul_one] using F32.rounded_exact (F32.isNaN_of_finite hx) one_pos

/-- The first exception (R126 (a)): the input `-0` and a sample of the sign `+`, whose product with `+0` is `+0`. -/
theorem f32_mixAt_zero_of_negZero {y : Word} (hy : F32.isFinite y = true) (hs : F32.sign y = false) :
    mixAt Machine.f32 Machine.f32.zero 0x80000000#32 y = 0#32 := by
  have hsum : F32.add 0x80000000#32 (F32.ofParts false 0) = 0#32 := by decide
  rw [f32_mixAt_zero (by decide) hy, hs, hsum]

/-! Profile F32: samples that are not finite (R126 (b)). -/

theorem F32.isNaN_add {a b : Word} (h : F32.isNaN a = true ∨ F32.isNaN b = true) :
    F32.isNaN (F32.add a b) = true := by
  rw [F32.add, if_pos (Bool.or_eq_true_iff.2 h)]
  exact F32.isNaN_nan _ _ _

/-- The product of an infinity or a NaN with `+0` is a NaN. -/
theorem F32.isNaN_mul_zero {a : Word} (ha : F32.isFinite a = false) :
    F32.isNaN (F32.mul a Machine.f32.zero) = true := by
  have hzero : F32.mag Machine.f32.zero = 0 := by decide
  suffices hmul : F32.mul a Machine.f32.zero = F32.nan .mul a Machine.f32.zero by
    rw [hmul]
    exact F32.isNaN_nan _ _ _
  cases hn : F32.isNaN a with
  | true => simp [F32.mul, hn]
  | false => simp [F32.mul, F32.isInf_of_not_finite hn ha, hzero]

/-- With `mix = 0` the delayed sample enters through a product with `+0`. -/
theorem f32_isNaN_mixAt_zero (x : Word) {y : Word} (hy : F32.isFinite y = false) :
    F32.isNaN (mixAt Machine.f32 Machine.f32.zero x y) = true :=
  F32.isNaN_add (.inr (F32.isNaN_mul_zero hy))

/-- With `mix = 1` the input enters through a product with `+0`. -/
theorem f32_isNaN_mixAt_one {x : Word} (y : Word) (hx : F32.isFinite x = false) :
    F32.isNaN (mixAt Machine.f32 Machine.f32.one x y) = true := by
  rw [mixAt, f32_sub, F32.one_sub_one]
  exact F32.isNaN_add (.inl (F32.isNaN_mul_zero hx))

end Sys2Proof.Machine
end

section
/-! SUPPORT. MIX and the state of the core (R125): SMP from two engines that differ in MIX alone. -/

namespace Sys2Proof.Machine

variable {S : Type}

/-- The engine with another value in the MIX register. -/
def withMix (m : S) (e : Engine S) : Engine S := { e with p := { e.p with mix := m } }

variable [DecidableEq S]

/-- The words stored, the read positions, the feedback and the phase do not depend on MIX, so a sample step with another
MIX completes as well, with the same state but for MIX. -/
theorem sampleStep_withMix {N : Numerics S} {b : Bool} {x o : Stereo S} {e e' : Engine S} (m : S)
    (hstale : e.cfg.paramStale = false) (h : sampleStep N b x e = .ok (e', o)) :
    ∃ o', sampleStep N b x (withMix m e) = .ok (withMix m e', o') := by
  obtain ⟨hwh, y, hy, rfl, -⟩ := sampleStep_eq_ok.1 h
  have hstale' : (withMix m e).cfg.paramStale = false := hstale
  rw [snapshot_of_not_stale b hstale] at hy ⊢
  refine ⟨_, sampleStep_eq_ok.2 ⟨hwh, y, ?_, ?_, rfl⟩⟩
  · rw [snapshot_of_not_stale b hstale']
    exact hy
  · rw [snapshot_of_not_stale b hstale', afterSnapshot_of_not_stale hstale, afterSnapshot_of_not_stale hstale']
    rfl

/-- An SMP with an operand that is no scalar is illegal, whatever the state (R132, R153). -/
theorem processSample_of_notScalar {N : Numerics S} {a b : Word} (h : N.dec32 a = none ∨ N.dec32 b = none)
    (e : Engine S) : processSample N a b e = .next (raiseIllegal e) := by
  obtain ⟨-, hd⟩ | ⟨l, r, ha, hb, -⟩ := processSample_cases N a b e
  · exact hd
  · simp [ha, hb] at h

/-- An SMP that answers also answers with another MIX: with the same error, or with the outputs of a sample step that
leaves the same state. -/
theorem processSample_withMix {N : Numerics S} {a b : Word} {e d : Engine S} (m : S)
    (hstale : e.cfg.paramStale = false) (h : processSample N a b e = .next d) :
    ∃ rs, processSample N a b (withMix m e) = .next { withMix m d with responses := rs } := by
  obtain ⟨hnone, hd⟩ | ⟨l, r, ha, hb, ⟨hidle, -⟩ | ⟨-, f, -, hd⟩ | ⟨hready, e', o, hs, hd⟩⟩ :=
    processSample_cases N a b e
  · cases hd.symm.trans h
    exact ⟨_, processSample_of_notScalar hnone (withMix m e)⟩
  · obtain ⟨st, hst⟩ := processSample_of_idle N a b
    cases (hst e hidle).symm.trans h
    exact ⟨_, hst (withMix m e) hidle⟩
  · cases hd.symm.trans h
  · cases hd.symm.trans h
    obtain ⟨o', hs'⟩ := sampleStep_withMix m hstale hs
    exact ⟨_, (processSample_runs (e := withMix m e) ha hb hready hs').trans rfl⟩

end Sys2Proof.Machine
end

section
/-! The obligations on the dry/wet stage (R125, R126, R184). -/

section

open Sys2Proof Sys2Proof.Machine

/-- Settles O35: at either end of MIX the output is the sample that counts plus a product with `+0`, which is a zero for
a finite sample and a NaN for any other. -/
theorem mixBoundaryLaws : Obligations.MixBoundaryLaws := by
  unfold Obligations.MixBoundaryLaws
  rw [← f32_zero_eq, ← f32_one_eq]
  refine ⟨fun x y => ?_, fun x y hx hy => ⟨f32_mixAt_zero_eq hx hy, fun h0 => ?_, f32_val_mixAt_zero hx hy, ?_⟩,
    fun y hy hs => ?_, fun x y hy => ⟨f32_isNaN_mixAt_zero x hy, f32_isNaN_mixAt_one x hy⟩⟩
  · rw [real_mixAt, real_mixAt]
    constructor <;> ring
  · rw [f32_mixAt_one hx hy, f32_mixAt_zero_eq hy hx h0]
  · rw [f32_mixAt_one hx hy, f32_val_mixAt_zero hy hx]
  · have hzero := (f32_mixAt_zero_of_negZero hy hs).trans f32_zero_eq.symm
    exact ⟨hzero, (f32_mixAt_one hy (by decide)).trans hzero⟩

/-- Settles O48: an SMP answers from the state with another MIX as it does from the state given, up to the responses. -/
theorem mixDoesNotTouchTheState : Obligations.MixDoesNotTouchTheState :=
  bothProfiles_of fun _ _ _ _ A e _ a b m hstale h => by
    obtain ⟨rs, hmix⟩ := processSample_withMix m hstale (A.next_inj ((A.smp a b e).symm.trans h))
    exact ⟨rs, (A.smp a b (withMix m e)).trans (congrArg (mapNext _) hmix)⟩

end
end

section
/-! SUPPORT. SMP in a configured session (R132): it answers what its sample step answers, and it completes. -/

namespace Sys2Proof.Machine

variable {S : Type} [DecidableEq S] {N : Numerics S} {inj : Engine S → State}

/-- An SMP of scalars whose sample step completes in a configured session, on the machine. -/
theorem ActsOn.exec_smp (A : ActsOn N inj) {a b : Word} {l r : S} {e d : Engine S} {o : Stereo S}
    (ha : N.dec32 a = some l) (hb : N.dec32 b = some r) (hr : e.ready = true)
    (hs : sampleStep N false ⟨l, r⟩ e = .ok (d, o)) :
    exec (.smp a b) (inj e) = .next (inj (respondOk (N.enc32 o.left) (N.enc32 o.right) d)) := by
  rw [A.smp, processSample_runs ha hb hr hs, mapNext_next]

/-- In a configured session an SMP of scalars completes (R142, R159). -/
theorem ActsOn.exec_smp_completes (A : ActsOn N inj) (H : SafeNumerics N) {a b : Word} {l r : S} {e : Engine S}
    (he : EngineInv N e) (hr : e.ready = true) (ha : N.dec32 a = some l) (hb : N.dec32 b = some r) :
    ∃ d o, sampleStep N false ⟨l, r⟩ e = .ok (d, o) ∧
      exec (.smp a b) (inj e) = .next (inj (respondOk (N.enc32 o.left) (N.enc32 o.right) d)) := by
  obtain ⟨d, o, hs⟩ := sampleStep_completes H false ⟨l, r⟩ he hr
  exact ⟨d, o, hs, A.exec_smp ha hb hr hs⟩

/-- A sample step gives no response: that is left to its command. -/
theorem sampleStep_responses {b : Bool} {x o : Stereo S} {e d : Engine S} (hs : sampleStep N b x e = .ok (d, o)) :
    d.responses = e.responses := by
  rw [(sampleStep_keeps hs).1]

end Sys2Proof.Machine

section

open Sys2Proof Sys2Proof.Machine

/-- Settles O37: the sample step completes from the invariant, and its own frame is that of the SMP. -/
theorem smpAlwaysCompletes : Obligations.SmpAlwaysCompletes :=
  bothProfiles_safe fun _ _ N _ A H e a b he hr ha hb => by
    obtain ⟨l, hl⟩ := Option.ne_none_iff_exists'.1 ha
    obtain ⟨r, hr'⟩ := Option.ne_none_iff_exists'.1 hb
    obtain ⟨d, o, hs, hexec⟩ := A.exec_smp_completes H he hr hl hr'
    obtain ⟨hkeep, hhead, hlt, hwords⟩ := sampleStep_keeps hs
    refine ⟨_, N.enc32 o.left, N.enc32 o.right, hexec, ?_, ?_, hwords, ?_⟩
    · rw [respondOk_responses, sampleStep_responses hs]
    · rw [respondOk_wh, hhead, nextHead_eq_mod hlt]
    · rw [hkeep]
      rfl

end
end

section
/-! SUPPORT. A PROC with nothing in its gaps (R133, R134): what its loop leaves alone, that it completes in a configured
session, and that the channels from 2 on concern its end only. -/

namespace Sys2Proof.Machine

variable {S : Type} [DecidableEq S] {N : Numerics S}

/-! What iterations leave alone. -/

omit [DecidableEq S] in
/-- `d` is `e` after the iterations from `s` to `s + k - 1` of a quiet PROC: the fields that can change, the head `k`
further, and of `SB` channels 0 and 1 of those iterations alone (R92, R133). -/
structure IteratedBy (N : Numerics S) (s k : Nat) (e d : Engine S) : Prop where
  frame : d = { e with dl := d.dl, phase := d.phase, fb := d.fb, wh := d.wh, sb := d.sb, gaps := d.gaps, fresh := d.fresh }
  head : e.wh < e.cap → d.wh = (e.wh + k) % e.cap
  samples : ∀ ch i, ¬(ch < 2 ∧ s ≤ i ∧ i < s + k) → Memory.read N.zero d.sb (ch, i) = Memory.read N.zero e.sb (ch, i)

omit [DecidableEq S] in
/-- Passing over a gap is no iteration. -/
theorem IteratedBy.nextGap (s : Nat) (e : Engine S) : IteratedBy N s 0 e { e with gaps := e.gaps.tail } :=
  ⟨rfl, fun h => (Nat.mod_eq_of_lt h).symm, fun _ _ _ => rfl⟩

omit [DecidableEq S] in
theorem IteratedBy.trans {s k j : Nat} {a b c : Engine S} (h : IteratedBy N s k a b) (h' : IteratedBy N (s + k) j b c) :
    IteratedBy N s (k + j) a c := by
  have hcap : b.cap = a.cap := by rw [h.frame]
  refine ⟨?_, fun hlt => ?_, fun ch i hout => ?_⟩
  · rw [h'.frame, h.frame]
  · have hb := h.head hlt
    have hblt : b.wh < b.cap := by
      rw [hb, hcap]
      exact Nat.mod_lt _ (Nat.zero_lt_of_lt hlt)
    rw [h'.head hblt, hb, hcap, Nat.mod_add_mod, Nat.add_assoc]
  · rw [h'.samples ch i (by omega), h.samples ch i (by omega)]

/-- The outputs of iteration `s` leave every element alone but those of channels 0 and 1 at `s` (R127). -/
theorem read_outputs_other (m : Memory S) (l r : S) {ch i s : Nat} (h : ¬(ch < 2 ∧ i = s)) :
    Memory.read N.zero (Memory.write N.zero (Memory.write N.zero m (0, s) l) (1, s) r) (ch, i) =
      Memory.read N.zero m (ch, i) := by
  have h0 : (ch, i) ≠ (0, s) := by
    rw [ne_eq, Prod.mk.injEq]
    omega
  have h1 : (ch, i) ≠ (1, s) := by
    rw [ne_eq, Prod.mk.injEq]
    omega
  rw [Memory.read_write_other _ _ _ h1, Memory.read_write_other _ _ _ h0]

theorem blockSample_iterates {s : Nat} {e d : Engine S} (h : blockSample N s e = .ok d) : IteratedBy N s 1 e d := by
  obtain ⟨-, e₁, o, hs, rfl⟩ := blockSample_eq_ok.1 h
  obtain ⟨hkeep, hhead, -, -⟩ := sampleStep_keeps hs
  have hsb : e₁.sb = e.sb := by rw [hkeep]
  refine ⟨?_, fun hlt => hhead.trans (nextHead_eq_mod hlt), fun ch i hout => ?_⟩
  · rw [hkeep]
    rfl
  · rw [afterBlockSample, read_outputs_other _ _ _ (by omega), hsb]

/-- In a configured session an iteration on an existing element completes (R142). -/
theorem blockSample_completes (H : SafeNumerics N) {s : Nat} {e : Engine S} (he : EngineInv N e) (hr : e.ready = true)
    (hs : s < e.cfg.sbLen) : ∃ d, blockSample N s e = .ok d := by
  obtain ⟨-, -, -, hch, -⟩ := he.config
  obtain ⟨e₁, o, hstep⟩ :=
    sampleStep_completes H true ⟨Memory.read N.zero e.sb (0, s), Memory.read N.zero e.sb (1, s)⟩ he hr
  exact ⟨_, blockSample_eq_ok.2 ⟨⟨hch, hs⟩, e₁, o, hstep, rfl⟩⟩

/-- The loop of a quiet PROC completes in a configured session (R142, R159). -/
theorem blockLoop_quiet_completes (H : SafeNumerics N) (n nch left : Nat) {s : Nat} {e : Engine S} (he : EngineInv N e)
    (hr : e.ready = true) (hq : quietGaps e) (hlen : s + left ≤ e.cfg.sbLen) :
    ∃ d, blockLoop N n nch left s e = .go d ∧ IteratedBy N s left e d := by
  induction left generalizing s e with
  | zero => exact ⟨_, blockLoop_quiet_zero hq, .nextGap s e⟩
  | succ left ih =>
    have hgap := he.withGaps e.gaps.tail
    obtain ⟨e₁, hb⟩ := blockSample_completes H (s := s) hgap hr (show s < e.cfg.sbLen by omega)
    obtain ⟨he₁, hr₁, hcfg⟩ : EngineInv N e₁ ∧ e₁.ready = true ∧ e₁.cfg = e.cfg := hgap.blockSample H hr hb
    have hq₁ : quietGaps e₁ := fun g hg => quietGaps_tail hq g (blockSample_gaps hb ▸ hg)
    have hlen₁ : s + 1 + left ≤ e₁.cfg.sbLen := by
      rw [hcfg]
      omega
    obtain ⟨d, hd, hit⟩ := ih he₁ hr₁ hq₁ hlen₁
    refine ⟨d, ?_, ?_⟩
    · rw [blockLoop_quiet_succ hq, hb]
      exact hd
    · rw [Nat.add_comm left 1, ← Nat.zero_add 1]
      exact ((IteratedBy.nextGap s e).trans (blockSample_iterates hb)).trans hit

/-- The loop of a quiet PROC keeps the sample buffer canonical. -/
theorem blockLoop_quiet_samplesForm {n nch left s : Nat} {e d : Engine S} (h : blockLoop N n nch left s e = .go d)
    (hq : quietGaps e) (hwf : Memory.wf N.zero e.sb = true) : Memory.wf N.zero d.sb = true := by
  obtain ⟨-, -, hgo⟩ := blockLoop_quiet (N := N) (n := n) (nch := nch) (left := left) (s := s) hq
  obtain ⟨-, -, hform⟩ := hgo d h
  exact hform hwf

/-! The whole PROC. -/

/-- A quiet PROC answers when the loop of the PROC of two channels goes through, and then clears the other channels. -/
theorem runBlock_quiet_eq_next {n nch : Nat} {e d : Engine S} (hq : quietGaps e) :
    runBlock N n nch e = .next d ↔
      ∃ e', blockLoop N n 2 n 0 (respondOk 0#32 0#32 (startBlock e)) = .go e' ∧ d = clearExtra N n nch e' := by
  have hq' : quietGaps (respondOk 0#32 0#32 (startBlock e)) := hq
  obtain ⟨hcovers, habandon, hgo⟩ := blockLoop_quiet (N := N) (n := n) (nch := 2) (left := n) (s := 0) hq'
  cases hl : blockLoop N n 2 n 0 (respondOk 0#32 0#32 (startBlock e)) with
  | go e' =>
    obtain ⟨hport, -, -⟩ := hgo e' hl
    rw [runBlock_untaken ((hcovers n nch).trans hl) hport]
    simp [eq_comm]
  | abandoned e' => exact absurd hl (habandon e')
  | stop f => simp [runBlock, hcovers n nch, hl]

/-- The end of a PROC reads `lit(0)` in the channels from 2 on, and as before elsewhere (R134). -/
theorem read_clearExtra {n nch : Nat} {e : Engine S} (hwf : Memory.wf N.zero e.sb = true) (ch i : Nat) :
    Memory.read N.zero (clearExtra N n nch e).sb (ch, i) =
      if 2 ≤ ch ∧ ch < nch ∧ i < n then N.lit 0 1 else Memory.read N.zero e.sb (ch, i) := by
  have hrange : (2 ≤ ch ∧ ch < 2 + (nch - 2) ∧ i < n) ↔ (2 ≤ ch ∧ ch < nch ∧ i < n) := by omega
  rw [clearExtra, Memory.read_fillRows _ _ _ _ _ hwf]
  simp only [hrange]
  rfl

end Sys2Proof.Machine

section

open Sys2Proof Sys2Proof.Machine

/-- Settles O38: the loop completes from the invariant, and each of its iterations has the frame. -/
theorem procAlwaysCompletes : Obligations.ProcAlwaysCompletes :=
  bothProfiles_safe fun _ _ N inj A H e n nch he hr hq h2 hch hlen => by
    obtain ⟨-, -, hhead, -⟩ := he.session hr
    obtain ⟨d, hd, hit⟩ := blockLoop_quiet_completes H n.toNat 2 n.toNat (s := 0)
      (he.startBlock.respond .ok 0#32 0#32) hr hq ((Nat.zero_add _).trans_le hlen)
    have hwf := blockLoop_quiet_samplesForm hd hq he.samplesForm
    refine ⟨clearExtra N n.toNat nch.toNat d, ?_, ?_⟩
    · rw [A.proc, processBlock_runs h2 hch hlen hr, (runBlock_quiet_eq_next hq).2 ⟨d, hd, rfl⟩, mapNext_next]
    · refine ⟨?_, hit.head hhead, fun ch i hout => ?_, fun ch i hlo hhi hi => ?_, ?_⟩
      · rw [clearExtra_responses, hit.frame]
        rfl
      · rw [read_clearExtra hwf, if_neg (by omega), hit.samples ch i (by omega)]
        rfl
      · rw [read_clearExtra hwf, if_pos ⟨hlo, hhi, hi⟩]
      · rw [hit.frame]
        exact ⟨rfl, rfl, rfl, rfl, rfl, rfl, rfl⟩

/-- Settles O40: both PROCs run the same loop, which ends in their different clearing. -/
theorem extraChannelsAreCleared : Obligations.ExtraChannelsAreCleared :=
  bothProfiles_of fun _ _ N inj A e d n nch hwf h2 hch hlen hr hq h => by
    rw [A.proc, processBlock_runs (nch := 2#32) le_rfl (h2.trans hch) hlen hr] at h
    obtain ⟨d', hd, rfl⟩ := (runBlock_quiet_eq_next hq).1 (A.next_inj h)
    have hwf' := blockLoop_quiet_samplesForm hd hq hwf
    refine ⟨(clearExtra N n.toNat nch.toNat d').sb, ?_, read_clearExtra hwf'⟩
    rw [A.proc, processBlock_runs h2 hch hlen hr, (runBlock_quiet_eq_next hq).2 ⟨d', hd, rfl⟩, mapNext_next]
    rfl

end
end

section
/-! SUPPORT. A quiet PROC of two channels beside the sample steps of SMP on the same inputs (R132, R133). -/

namespace Sys2Proof.Machine

variable {S : Type} [DecidableEq S] {N : Numerics S}

omit [DecidableEq S] in
/-- The engine with another sample buffer, other gaps and other responses: what a PROC works on beside the core. -/
def Engine.withHost (sb : Memory S) (gaps : List Nat) (responses : List Response) (e : Engine S) : Engine S :=
  { e with sb := sb, gaps := gaps, responses := responses }

/-- Without `PARAM_STALE` a sample step is the same inside a PROC and outside, and does not look at what `withHost`
replaces. -/
theorem sampleStep_withHost {b : Bool} (b' : Bool) {x o : Stereo S} {e d : Engine S} (sb : Memory S) (gaps : List Nat)
    (rs : List Response) (hstale : e.cfg.paramStale = false) (h : sampleStep N b x e = .ok (d, o)) :
    sampleStep N b' x (e.withHost sb gaps rs) = .ok (d.withHost sb gaps rs, o) := by
  have hstale' : (e.withHost sb gaps rs).cfg.paramStale = false := hstale
  obtain ⟨hwh, y, hy, rfl, rfl⟩ := sampleStep_eq_ok.1 h
  rw [snapshot_of_not_stale b hstale] at hy ⊢
  refine sampleStep_eq_ok.2 ⟨hwh, y, ?_, ?_, ?_⟩ <;> rw [snapshot_of_not_stale b' hstale']
  · exact hy
  · rw [afterSnapshot_of_not_stale hstale, afterSnapshot_of_not_stale hstale']
    rfl
  · rfl

/-- `sb'` is the sample buffer `sb` with the outputs `y` in channels 0 and 1 below `k`. -/
structure OutputsBelow (N : Numerics S) (y : Nat → Stereo S) (k : Nat) (sb sb' : Memory S) : Prop where
  form : Memory.wf N.zero sb' = true
  outputs : ∀ s < k, Memory.read N.zero sb' (0, s) = (y s).left ∧ Memory.read N.zero sb' (1, s) = (y s).right
  others : ∀ ch s, 2 ≤ ch ∨ k ≤ s → Memory.read N.zero sb' (ch, s) = Memory.read N.zero sb (ch, s)

/-- The outputs of iteration `k` are written in place (R133). -/
theorem OutputsBelow.write {y : Nat → Stereo S} {k : Nat} {sb sb' : Memory S} (h : OutputsBelow N y k sb sb')
    (o : Stereo S) : OutputsBelow N (fun s => if s = k then o else y s) (k + 1) sb
      (Memory.write N.zero (Memory.write N.zero sb' (0, k) o.left) (1, k) o.right) := by
  obtain ⟨hform, hout, hother⟩ := h
  have hform₀ := Memory.wf_write (0, k) o.left hform
  refine ⟨Memory.wf_write _ _ hform₀, fun s hs => ?_, fun ch s hs => ?_⟩
  · obtain rfl | hlt : s = k ∨ s < k := by omega
    · simp [Memory.read_write _ _ _ hform₀, Memory.read_write _ _ _ hform]
    · rw [read_outputs_other _ _ _ (by omega), read_outputs_other _ _ _ (by omega), if_neg hlt.ne]
      exact hout s hlt
  · rw [read_outputs_other _ _ _ (by omega)]
    exact hother ch s (by omega)

/-- An iteration of a quiet PROC, where its inputs still stand in `SB`, does the sample step of SMP and stores its
outputs in place. -/
theorem blockLoop_step_of_sampleStep {n nch left k : Nat} {e d : Engine S} {o : Stereo S} {sb : Memory S}
    {gaps : List Nat} {rs : List Response} (hstale : e.cfg.paramStale = false) (hq : ∀ g ∈ gaps, g = 0)
    (hch : 2 ≤ e.cfg.sbCh) (hlen : k < e.cfg.sbLen)
    (hs : sampleStep N false ⟨Memory.read N.zero sb (0, k), Memory.read N.zero sb (1, k)⟩ e = .ok (d, o)) :
    blockLoop N n nch (left + 1) k (e.withHost sb gaps rs) = blockLoop N n nch left (k + 1)
      (d.withHost (Memory.write N.zero (Memory.write N.zero sb (0, k) o.left) (1, k) o.right) gaps.tail rs) := by
  have hquiet : quietGaps (e.withHost sb gaps rs) := hq
  have hb : blockSample N k (e.withHost sb gaps.tail rs) = .ok (afterBlockSample N k o (d.withHost sb gaps.tail rs)) :=
    blockSample_eq_ok.2 ⟨⟨hch, hlen⟩, _, _, sampleStep_withHost true sb gaps.tail rs hstale hs, rfl⟩
  have hgap : ({ e.withHost sb gaps rs with gaps := (e.withHost sb gaps rs).gaps.tail } : Engine S) =
    e.withHost sb gaps.tail rs := rfl
  rw [blockLoop_quiet_succ hquiet, hgap, hb]
  rfl

/-- The simulation of R133: while `k` SMPs lead from `e` to `d` with the outputs `y`, the first `k` iterations of a quiet
PROC on a buffer holding their inputs lead to the same core state with the outputs in place. -/
theorem blockLoop_simulates_smps {n nch : Nat} {e : Engine S} {rs : List Response} (hstale : e.cfg.paramStale = false)
    (hq : quietGaps e) (hch : 2 ≤ e.cfg.sbCh) (hwf : Memory.wf N.zero e.sb = true) {k : Nat}
    (hlen : k ≤ e.cfg.sbLen) {d : Engine S} {y : Nat → Stereo S}
    (h : samplesThrough N (fun s => ⟨Memory.read N.zero e.sb (0, s), Memory.read N.zero e.sb (1, s)⟩) k e = some (d, y)) :
    d.cfg = e.cfg ∧ ∃ sb', OutputsBelow N y k e.sb sb' ∧
      ∀ left, blockLoop N n nch (left + k) 0 (e.withHost e.sb e.gaps rs) =
        blockLoop N n nch left k (d.withHost sb' (e.gaps.drop k) rs) := by
  induction k generalizing d y with
  | zero =>
    obtain ⟨rfl, -⟩ := Prod.mk.inj (Option.some.inj h)
    exact ⟨rfl, e.sb, ⟨hwf, fun s hs => absurd hs (Nat.not_lt_zero s), fun _ _ _ => rfl⟩, fun _ => rfl⟩
  | succ k ih =>
    obtain ⟨e₁, y₁, o, hk, hs, rfl⟩ := samplesThrough_succ.1 h
    obtain ⟨hcfg, sb₁, hsb, hloop⟩ := ih (by omega) hk
    obtain ⟨hkeep, -⟩ := sampleStep_keeps hs
    rw [← hsb.others 0 k (Or.inr le_rfl), ← hsb.others 1 k (Or.inr le_rfl)] at hs
    refine ⟨by rw [hkeep, hcfg], _, hsb.write o, fun left => ?_⟩
    rw [← Nat.succ_add_eq_add_succ, hloop, blockLoop_step_of_sampleStep (hcfg ▸ hstale)
      (fun g hg => hq g (List.mem_of_mem_drop hg)) (hcfg ▸ hch) (by rw [hcfg]; omega) hs, List.tail_drop]

omit [DecidableEq S] in
/-- Without `PARAM_STALE` the start of a PROC moves no history. -/
theorem startBlock_of_not_stale {e : Engine S} (h : e.cfg.paramStale = false) : startBlock e = e := by
  rw [startBlock, h]
  rfl

end Sys2Proof.Machine
end

section
/-! The obligation on PROC and SMP (R132, R133). -/

section

open Sys2Proof Sys2Proof.Machine

/-- Settles O39: the loop simulates the SMPs, then passes over its last gap; with two channels nothing is cleared. -/
theorem procEqualsConsecutiveSmps : Obligations.ProcEqualsConsecutiveSmps := by
  refine bothProfiles_of fun _ _ N inj A => ⟨fun e e' a b l r o hr ha hb hs => A.exec_smp ha hb hr hs, ?_⟩
  intro e d n y hr hstale hq hch hlen hwf h
  obtain ⟨-, sb', ⟨-, hout, hother⟩, hloop⟩ := blockLoop_simulates_smps (n := n.toNat) (nch := 2)
    (rs := e.responses ++ [⟨.ok, 0#32, 0#32⟩]) hstale hq hch hwf hlen h
  have hlast : quietGaps (d.withHost sb' (e.gaps.drop n.toNat) (e.responses ++ [⟨.ok, 0#32, 0#32⟩])) :=
    fun g hg => hq g (List.mem_of_mem_drop hg)
  have hgo := hloop 0
  rw [Nat.zero_add, blockLoop_quiet_zero hlast] at hgo
  refine ⟨sb', ?_, hout, hother⟩
  rw [A.proc, processBlock_runs (nch := 2#32) le_rfl hch hlen hr,
    (runBlock_quiet_eq_next hq).2 ⟨_, (startBlock_of_not_stale hstale).symm ▸ hgo, rfl⟩, mapNext_next, ← List.tail_drop]
  rfl

end
end

section
/-! SUPPORT. The two lanes (R139), one channel number for both: what a sample step computes for a lane comes from the
parameters, the timing, and what that lane holds and is given. -/

namespace Sys2Proof.Machine

variable {S : Type}

/-- The value of a lane: channel 0 is the left one, channel 1 the right one (R2). -/
def Stereo.lane (v : Stereo S) : Fin 2 → S
  | 0 => v.left
  | 1 => v.right

/-- Two engines alike in what lane `c` owns and in what the lanes share: `LeftLaneAlike` and `RightLaneAlike` at once. -/
structure LaneAlike (N : Numerics S) (c : Fin 2) (e e' : Engine S) : Prop where
  params : e.p = e'.p
  timing : sameTiming e e'
  feedback : e.fb.lane c = e'.fb.lane c
  words : ∀ i, Memory.read N.zero e.dl (c.val, i) = Memory.read N.zero e'.dl (c.val, i)

variable {N : Numerics S} {e e' : Engine S}

theorem leftLaneAlike_iff : LeftLaneAlike N e e' ↔ LaneAlike N 0 e e' :=
  ⟨fun ⟨h1, h2, h3, h4⟩ => ⟨h1, h2, h3, h4⟩, fun ⟨h1, h2, h3, h4⟩ => ⟨h1, h2, h3, h4⟩⟩

theorem rightLaneAlike_iff : RightLaneAlike N e e' ↔ LaneAlike N 1 e e' :=
  ⟨fun ⟨h1, h2, h3, h4⟩ => ⟨h1, h2, h3, h4⟩, fun ⟨h1, h2, h3, h4⟩ => ⟨h1, h2, h3, h4⟩⟩

/-- The responses are the host's, and no lane's. -/
theorem LaneAlike.respondOk {c : Fin 2} (h : LaneAlike N c e e') (r0 r1 r0' r1' : Word) :
    LaneAlike N c (respondOk r0 r1 e) (Machine.respondOk r0' r1' e') :=
  ⟨h.params, h.timing, h.feedback, h.words⟩

/-! The stages, lane by lane. -/

@[simp] theorem feedbackOf_lane (q : Params S) (y : Stereo S) (c : Fin 2) :
    (feedbackOf N q y).lane c = N.mul q.feedback (y.lane c) := by
  match c with
  | 0 | 1 => rfl

@[simp] theorem mixOut_lane (q : Params S) (x y : Stereo S) (c : Fin 2) :
    (mixOut N q x y).lane c = mixAt N q.mix (x.lane c) (y.lane c) := by
  match c with
  | 0 | 1 => rfl

theorem interp_lane {rp y : Stereo S} (h : interp N rp e = .ok y) (c : Fin 2) :
    interpAt N e c.val (rp.lane c) = .ok (y.lane c) := by
  obtain ⟨hl, hr⟩ := interp_eq_ok.1 h
  match c with
  | 0 => exact hl
  | 1 => exact hr

/-- INTERP of one channel reads the words of that channel alone (R110). -/
theorem interpAt_congr {c : Nat} {rp y y' : S} (hcap : e.cap = e'.cap)
    (hwords : ∀ i, Memory.read N.zero e.dl (c, i) = Memory.read N.zero e'.dl (c, i))
    (h : interpAt N e c rp = .ok y) (h' : interpAt N e' c rp = .ok y') : y = y' := by
  obtain ⟨i, hi, -, rfl⟩ := interpAt_eq_ok.1 h
  obtain ⟨j, hj, -, rfl⟩ := interpAt_eq_ok.1 h'
  obtain rfl : i = j := Option.some.inj (hi.symm.trans hj)
  rw [hwords, hwords, hcap]

variable [DecidableEq S]

/-- DLWRITE puts into a lane the sum of that lane's sample and feedback, at the head (R90). -/
theorem read_delayedRams_lane (hwf : Memory.wf N.zero e.dl = true) (x : Stereo S) (c : Fin 2) (i : Nat) :
    Memory.read N.zero (delayedRams N x e) (c.val, i) =
      if i = e.wh then N.add (x.lane c) (e.fb.lane c) else Memory.read N.zero e.dl (c.val, i) := by
  rw [delayedRams, Memory.read_write _ _ _ (Memory.wf_write _ _ hwf), Memory.read_write _ _ _ hwf]
  match c with
  | 0 | 1 => simp [Stereo.lane]

/-- A sample step keeps two engines alike in a lane and gives that lane the same output, whatever the other lane holds and
is given (R139). -/
theorem LaneAlike.sampleStepWith {c : Fin 2} {q : Params S} {x x' o o' : Stereo S} {d d' : Engine S}
    (h : LaneAlike N c e e') (hwf : Memory.wf N.zero e.dl = true) (hwf' : Memory.wf N.zero e'.dl = true)
    (hx : x.lane c = x'.lane c) (hs : sampleStepWith N q x e = .ok (d, o))
    (hs' : sampleStepWith N q x' e' = .ok (d', o')) : LaneAlike N c d d' ∧ o.lane c = o'.lane c := by
  obtain ⟨-, y, hy, rfl, rfl⟩ := sampleStepWith_eq_ok.1 hs
  obtain ⟨-, y', hy', rfl, rfl⟩ := sampleStepWith_eq_ok.1 hs'
  obtain ⟨hparams, htiming, hfb, hwords⟩ := h
  obtain ⟨hcap, hwh, -, -⟩ := id htiming
  have hram : ∀ i, Memory.read N.zero (delayedRams N x e) (c.val, i) =
      Memory.read N.zero (delayedRams N x' e') (c.val, i) := fun i => by
    rw [read_delayedRams_lane hwf, read_delayedRams_lane hwf', hx, hfb, hwh, hwords]
  rw [htiming.readPositions_eq N rfl rfl] at hy
  have hlane : y.lane c = y'.lane c := interpAt_congr (e := { e with dl := delayedRams N x e })
    (e' := { e' with dl := delayedRams N x' e' }) hcap hram (interp_lane hy c) (interp_lane hy' c)
  refine ⟨⟨hparams, htiming.afterStep rfl N x x' y y', ?_, hram⟩, ?_⟩
  · rw [afterStep, afterStep, feedbackOf_lane, feedbackOf_lane, hlane]
  · rw [mixOut_lane, mixOut_lane, hx, hlane]

/-! The SMP. -/

/-- An SMP that responds `OK` took scalars, and answered the outputs of its sample step (R132). -/
theorem processSample_eq_ok {a b r0 r1 : Word} {d : Engine S} (h : processSample N a b e = .next d)
    (hok : d.responses = e.responses ++ [⟨.ok, r0, r1⟩]) :
    ∃ l r d₁ o, N.dec32 a = some l ∧ N.dec32 b = some r ∧ sampleStep N false ⟨l, r⟩ e = .ok (d₁, o) ∧
      d = respondOk r0 r1 d₁ ∧ r0 = N.enc32 o.left ∧ r1 = N.enc32 o.right := by
  obtain ⟨-, k⟩ | ⟨l, r, ha, hb, ⟨-, k⟩ | ⟨-, f, -, k⟩ | ⟨-, d₁, o, hs, k⟩⟩ := processSample_cases N a b e <;>
    cases k.symm.trans h
  · simp at hok
  · simp at hok
  · obtain ⟨rfl, rfl⟩ : N.enc32 o.left = r0 ∧ N.enc32 o.right = r1 := by
      simpa [sampleStep_responses hs] using hok
    exact ⟨l, r, d₁, o, ha, hb, hs, rfl, rfl, rfl⟩

/-- The same with the snapshot of an SMP, without `PARAM_STALE` (R131). -/
theorem LaneAlike.sampleStep {c : Fin 2} {x x' o o' : Stereo S} {d d' : Engine S} (h : LaneAlike N c e e')
    (hwf : Memory.wf N.zero e.dl = true) (hwf' : Memory.wf N.zero e'.dl = true) (hstale : e.cfg.paramStale = false)
    (hstale' : e'.cfg.paramStale = false) (hx : x.lane c = x'.lane c) (hs : sampleStep N false x e = .ok (d, o))
    (hs' : Machine.sampleStep N false x' e' = .ok (d', o')) : LaneAlike N c d d' ∧ o.lane c = o'.lane c := by
  rw [Machine.sampleStep, snapshot_of_not_stale _ hstale, afterSnapshot_of_not_stale hstale] at hs
  rw [Machine.sampleStep, snapshot_of_not_stale _ hstale', afterSnapshot_of_not_stale hstale', ← h.params] at hs'
  exact h.sampleStepWith hwf hwf' hx hs hs'

end Sys2Proof.Machine

section

open Sys2Proof Sys2Proof.Machine

/-- Settles O47: the sample step of both SMPs, read in the one lane and in the other. -/
theorem lanesAreIndependent : Obligations.LanesAreIndependent :=
  bothProfiles_of fun _ _ N inj A e e' d d' a b a' b' r0 r1 r0' r1' hwf hwf' hstale hstale' h hok h' hok' => by
    rw [A.smp] at h h'
    obtain ⟨l, r, d₁, o, ha, hb, hs, rfl, rfl, rfl⟩ := processSample_eq_ok (A.next_inj h) hok
    obtain ⟨l', r', d₁', o', ha', hb', hs', rfl, rfl, rfl⟩ := processSample_eq_ok (A.next_inj h') hok'
    have key : ∀ c : Fin 2, LaneAlike N c e e' → (⟨l, r⟩ : Stereo _).lane c = (⟨l', r'⟩ : Stereo _).lane c →
        LaneAlike N c d₁ d₁' ∧ o.lane c = o'.lane c := fun c hc hx =>
      hc.sampleStep hwf hwf' hstale hstale' hx hs hs'
    refine ⟨fun hc hab => ?_, fun hc hab => ?_⟩
    · obtain ⟨hd, hout⟩ := key 0 (leftLaneAlike_iff.1 hc) (Option.some.inj ((hab ▸ ha).symm.trans ha'))
      exact ⟨leftLaneAlike_iff.2 (hd.respondOk _ _ _ _), congrArg N.enc32 hout⟩
    · obtain ⟨hd, hout⟩ := key 1 (rightLaneAlike_iff.1 hc) (Option.some.inj ((hab ▸ hb).symm.trans hb'))
      exact ⟨rightLaneAlike_iff.2 (hd.respondOk _ _ _ _), congrArg N.enc32 hout⟩

end
end

section
/-! SUPPORT. What a PROC takes off the port (R137), and that from a state that meets the invariant no command and no step
stops (R142, R150, R159). -/

namespace Sys2Proof.Machine

variable {S : Type} [DecidableEq S] {N : Numerics S} {inj : Engine S → State}

/-! What a PROC takes. -/

omit [DecidableEq S] in
/-- The engine `d` has taken acts from the front of the port of `e`, in order, and every command among them is a SETP or
a GETP that `CTRL_INTERLEAVE` admits (R137, R38). -/
def Interleaves (e d : Engine S) : Prop :=
  ∃ taken, e.port = taken ++ d.port ∧ ∀ w, .command w ∈ taken → e.cfg.ctrlInterleave = true ∧
    ((∃ id value, decode w = .ok (.setp id value)) ∨ ∃ id, decode w = .ok (.getp id))

omit [DecidableEq S] in
theorem Interleaves.of_same {e d : Engine S} (h : d.port = e.port) : Interleaves e d :=
  ⟨[], by rw [h, List.nil_append], fun _ hw => absurd hw List.not_mem_nil⟩

omit [DecidableEq S] in
/-- A reset that follows is taken as well, and is no command. -/
theorem Interleaves.thenReset {e d d' : Engine S} (h : Interleaves e d) (hd : d.port = .reset :: d'.port) :
    Interleaves e d' := by
  obtain ⟨taken, hport, hcmd⟩ := h
  refine ⟨taken ++ [.reset], by rw [hport, hd, List.append_assoc, List.singleton_append], fun w hw => hcmd w ?_⟩
  simpa using hw

theorem runBlock_interleaves {n nch : Nat} {e d : Engine S} (h : runBlock N n nch e = .next d) : Interleaves e d := by
  obtain ⟨hgo, hab⟩ := blockLoop_takes N n nch n 0 (respondOk 0#32 0#32 (startBlock e))
  unfold runBlock at h
  split at h
  case h_1 e' hl =>
    cases h
    rw [finishBlock_eq]
    exact (hgo e' hl).taken
  case h_2 e' hl =>
    obtain ⟨b, hb, hreset, -⟩ := hab e' hl
    cases h
    have htaken : Interleaves e b := hb.taken
    exact htaken.thenReset hreset
  case h_3 => cases h

theorem processBlock_interleaves {n nch : Word} {e d : Engine S} (h : processBlock N n nch e = .next d) :
    Interleaves e d := by
  obtain k | k | ⟨-, -, -, -, k⟩ := processBlock_cases N n nch e <;> rw [k] at h
  · cases h
    exact .of_same rfl
  · cases h
    exact .of_same rfl
  · exact runBlock_interleaves h

/-! Progress. -/

theorem processSample_goes_on (H : SafeNumerics N) {e : Engine S} (he : EngineInv N e) (a b : Word) :
    ∃ d, processSample N a b e = .next d := by
  obtain ⟨-, k⟩ | ⟨l, r, -, -, ⟨-, k⟩ | ⟨hr, f, hs, -⟩ | ⟨-, e', o, -, k⟩⟩ := processSample_cases N a b e
  · exact ⟨_, k⟩
  · exact ⟨_, k⟩
  · obtain ⟨e', o, hok⟩ := sampleStep_completes H false ⟨l, r⟩ he hr
    cases hs.symm.trans hok
  · exact ⟨_, k⟩

theorem processBlock_goes_on (H : SafeNumerics N) {e : Engine S} (he : EngineInv N e) (hp : portKeepsTo e)
    (n nch : Word) : ∃ d, processBlock N n nch e = .next d := by
  obtain k | k | ⟨-, -, hlen, hr, k⟩ := processBlock_cases N n nch e
  · exact ⟨_, k⟩
  · exact ⟨_, k⟩
  · have hnostop := blockLoop_no_stop H n.toNat nch.toNat n.toNat (s := 0) (he.startBlock.respond .ok 0#32 0#32) hr hp
      ((Nat.zero_add _).trans_le hlen)
    rw [k, runBlock]
    cases hl : blockLoop N n.toNat nch.toNat n.toNat 0 (respondOk 0#32 0#32 (startBlock e)) with
    | go e' => exact ⟨_, rfl⟩
    | abandoned e' => exact ⟨_, rfl⟩
    | stop f => exact absurd hl (hnostop f)

theorem ActsOn.exec_goes_on (A : ActsOn N inj) (H : SafeNumerics N) {e : Engine S} (he : EngineInv N e)
    (hp : portKeepsTo e) (i : Instr) : ∃ d, exec i (inj e) = .next (inj d) := by
  cases i with
  | cfg a b => exact ⟨_, A.cfg a b e⟩
  | setp id v => exact ⟨_, A.setp id v e⟩
  | getp id => exact ⟨_, A.getp id e⟩
  | smp a b =>
    obtain ⟨d, hd⟩ := processSample_goes_on H he a b
    exact ⟨d, by rw [A.smp, hd, mapNext_next]⟩
  | proc n nch =>
    obtain ⟨d, hd⟩ := processBlock_goes_on H he hp n nch
    exact ⟨d, by rw [A.proc, hd, mapNext_next]⟩

omit [DecidableEq S] in
theorem portKeepsTo.tail {e : Engine S} (hp : portKeepsTo e) {act : HostAct S} {rest : List (HostAct S)}
    (h : e.port = act :: rest) : HostAct.keepsTo e.cfg act ∧ portKeepsTo { e with port := rest } :=
  ⟨hp act (h ▸ List.mem_cons_self), fun a ha => hp a (h ▸ List.mem_cons_of_mem _ ha)⟩

/-- A step answers, whatever stands first at the port. -/
theorem ActsOn.step_goes_on (A : ActsOn N inj) (H : SafeNumerics N) {e : Engine S} (he : EngineInv N e)
    (hp : portKeepsTo e) : ∃ d, step (inj e) = .next (inj d) := by
  rw [step_cases A e]
  cases hport : e.port with
  | nil => exact ⟨e, rfl⟩
  | cons act rest =>
    obtain ⟨hact, hrest⟩ := hp.tail hport
    cases act with
    | command w =>
      dsimp only
      cases decode w with
      | ok i => exact A.exec_goes_on H (he.withPort rest) hrest i
      | error r => exact ⟨_, rfl⟩
    | store ch idx v =>
      dsimp only
      rw [hostStore_of_exists N v (e := { e with port := rest }) (sbExists_iff.2 hact)]
      exact ⟨_, rfl⟩
    | reset => exact ⟨_, rfl⟩

end Sys2Proof.Machine

section

open Sys2Proof Sys2Proof.Machine

/-- Settles O52: the loop takes SETP and GETP and host stores; a reset that abandons it is taken last. -/
theorem onlySetpAndGetpInterleave : Obligations.OnlySetpAndGetpInterleave :=
  bothProfiles_of fun _ _ _ _ A e _ n nch h => processBlock_interleaves (A.next_inj ((A.proc n nch e).symm.trans h))

/-- Settles O58: the sample steps of a configured session complete, and every access lies in its memory. -/
theorem noCommandStops : Obligations.NoCommandStops :=
  bothProfiles_safe fun _ _ _ _ A H _ he hp => ⟨A.exec_goes_on H he hp, A.step_goes_on H he hp⟩

end
end

section
/-! SUPPORT. Audio commands that are refused (R135, R136, R151 (d), R155), the reset event (R170), and a SETP or a reset in
a gap of a PROC (R137, R170). -/

namespace Sys2Proof.Machine

variable {S : Type} [DecidableEq S] {N : Numerics S}

/-! Refusals. -/

/-- PROC with too few channels, or beyond the sample buffer, is illegal in every state (R135, R136). -/
theorem processBlock_of_illegal {n nch : Word} {e : Engine S}
    (h : nch.toNat < 2 ∨ e.cfg.sbCh < nch.toNat ∨ e.cfg.sbLen < n.toNat) :
    processBlock N n nch e = .next (raiseIllegal e) := by
  unfold processBlock naturalOperand
  split
  · rfl
  · rw [if_pos (h.resolve_left ‹_›)]

/-- PROC on an existing block, while no session is configured (R151 (d)). -/
theorem processBlock_of_not_ready {n nch : Word} {e : Engine S} (h2 : 2 ≤ nch.toNat) (hch : nch.toNat ≤ e.cfg.sbCh)
    (hlen : n.toNat ≤ e.cfg.sbLen) (hr : e.ready = false) : processBlock N n nch e = .next (raiseConfig e) := by
  unfold processBlock naturalOperand
  rw [if_neg (by omega), if_neg (by omega), hr, if_neg Bool.false_ne_true]

/-- SMP of scalars, while no session is configured (R151 (d)). -/
theorem processSample_of_not_ready {a b : Word} {l r : S} {e : Engine S} (ha : N.dec32 a = some l)
    (hb : N.dec32 b = some r) (hr : e.ready = false) : processSample N a b e = .next (raiseConfig e) := by
  unfold processSample
  rw [ha, hb]
  simp [hr]

/-- A NaN or an infinity is no scalar of profile REAL (R9, R153). -/
theorem real_dec32_of_notFinite {w : Word} (h : w.extractLsb' 23 8 = 0xFF#8) : Machine.real.dec32 w = none := by
  have hf := notFinite_iff.2 h
  rw [notFinite_eq, Bool.not_eq_true'] at hf
  exact if_neg (by rw [hf]; decide)

/-! The reset event. -/

omit [DecidableEq S] in
/-- Every parameter at its default after the reset event (R25, R170). -/
theorem powerOn_get (e : Engine S) (k : Param) : (powerOn N e).p.get k = ((paramTable N).get k).dflt := by
  rw [powerOn_p, paramDefaults, Params.get_tabulate]

/-! Gaps. -/

omit [DecidableEq S] in
/-- SETP leaves the planned gaps alone, and does not look at them. -/
theorem setParam_withGaps (id : BitVec 3) (value : Word) (gs : List Nat) (e : Engine S) :
    { setParam N id value e with gaps := gs } = setParam N id value { e with gaps := gs } := by
  unfold setParam
  split
  · rfl
  · split
    · rfl
    · split <;> rfl

/-- A gap that admits an act and finds a SETP does it, and then what is left of its acts (R137). -/
theorem hostGap_of_setp {n nch g : Nat} {gs : List Nat} {id : BitVec 3} {value : Word} {w : CommandWord}
    {rest : List (HostAct S)} {e : Engine S} (hc : e.cfg.ctrlInterleave = true) (hg : e.gaps = (g + 1) :: gs)
    (hp : e.port = .command w :: rest) (hd : decode w = .ok (.setp id value)) :
    hostGap N n nch e = hostGap N n nch (setParam N id value { e with port := rest, gaps := g :: gs }) := by
  have hgaps : (setParam N id value { e with port := rest, gaps := g :: gs }).gaps = g :: gs :=
    (setParam_keeps N id value _).gaps
  rw [hostGap, hostGap, hgaps, setParam_withGaps]
  simp only [hg, List.headD_cons, List.tail_cons, hostActs, hp, hc, hd, if_true]

/-- A gap that admits an act and finds a reset abandons the PROC (R170). -/
theorem hostGap_of_reset {n nch g : Nat} {gs : List Nat} {rest : List (HostAct S)} {e : Engine S}
    (hg : e.gaps = (g + 1) :: gs) (hp : e.port = .reset :: rest) :
    hostGap N n nch e = .abandoned { e with port := rest, gaps := gs } := by
  simp only [hostGap, hg, List.headD_cons, List.tail_cons, hostActs, hp]

/-- A PROC abandoned in its next gap ends there, however many iterations are left. -/
theorem blockLoop_of_abandoned {n nch : Nat} (left s : Nat) {e d : Engine S} (h : hostGap N n nch e = .abandoned d) :
    blockLoop N n nch left s e = .abandoned d := by
  cases left with
  | zero => exact h
  | succ left => rw [blockLoop, h]

/-- A reset in the first gap of a PROC past its checks (R170). -/
theorem runBlock_of_reset {n nch g : Nat} {gs : List Nat} {rest : List (HostAct S)} {e : Engine S}
    (hg : e.gaps = (g + 1) :: gs) (hp : e.port = .reset :: rest) :
    runBlock N n nch e = .next (abandonBlock N n nch e.responses
      { respondOk 0#32 0#32 (startBlock e) with port := rest, gaps := gs }) := by
  have hgap : hostGap N n nch (respondOk 0#32 0#32 (startBlock e)) = _ := hostGap_of_reset hg hp
  rw [runBlock, blockLoop_of_abandoned n 0 hgap]

/-- An abandoned PROC leaves every element of `SB` outside its block alone. -/
theorem read_abandonBlock_other {n nch : Nat} {rs : List Response} {e : Engine S} (hwf : Memory.wf N.zero e.sb = true)
    {ch i : Nat} (h : nch ≤ ch ∨ n ≤ i) :
    Memory.read N.zero (abandonBlock N n nch rs e).sb (ch, i) = Memory.read N.zero e.sb (ch, i) := by
  rw [abandonBlock, powerOn_sb, Memory.read_fillRows _ _ _ _ _ hwf, if_neg (by omega)]

end Sys2Proof.Machine

section

open Sys2Proof Sys2Proof.Machine

/-- Settles O41: the first check of PROC. -/
theorem tooFewChannelsIsIllegal : Obligations.TooFewChannelsIsIllegal :=
  bothProfiles_of fun _ _ _ _ A e n nch h => by
    have hfew : nch.toNat < 2 := by
      obtain rfl | rfl := h <;> decide
    rw [A.proc, processBlock_of_illegal (.inl hfew)]
    rfl

/-- Settles O42: the second check of PROC; where the first one fails too, the answer is the same. -/
theorem blockBeyondBufferIsIllegal : Obligations.BlockBeyondBufferIsIllegal :=
  bothProfiles_of fun _ _ _ _ A e n nch h => by
    rw [A.proc, processBlock_of_illegal (.inr h)]
    rfl

/-- Settles O43: the checks before that of `READY` pass. -/
theorem noSessionNoAudio : Obligations.NoSessionNoAudio :=
  bothProfiles_of fun _ _ _ _ A e hr => by
    refine ⟨fun a b ha hb => ?_, fun n nch h2 hch hlen => ?_⟩
    · obtain ⟨l, hl⟩ := Option.ne_none_iff_exists'.1 ha
      obtain ⟨r, hr'⟩ := Option.ne_none_iff_exists'.1 hb
      rw [A.smp, processSample_of_not_ready hl hr' hr]
      rfl
    · rw [A.proc, processBlock_of_not_ready h2 hch hlen hr]
      rfl

/-- Settles O44: no scalar in profile REAL; in profile F32 any word is one. -/
theorem nonFiniteSamples : Obligations.NonFiniteSamples := by
  refine fun a b h => ⟨fun e => ?_, fun e he hr => ?_⟩
  · rw [actsOn_real.smp, processSample_of_notScalar (h.imp real_dec32_of_notFinite real_dec32_of_notFinite)]
    rfl
  · obtain ⟨d, o, hs, hexec⟩ := actsOn_f32.exec_smp_completes f32_safe he hr (f32_dec32 a) (f32_dec32 b)
    exact ⟨_, o.left, o.right, hexec, by rw [respondOk_responses, sampleStep_responses hs]; rfl⟩

/-- Settles O9: nothing stands at the port. -/
theorem idleCoreHoldsItsState : Obligations.IdleCoreHoldsItsState :=
  bothProfiles_of fun _ _ _ _ A e hp => by rw [step_cases A e, hp]

/-- Settles O26: the reset event is `powerOn`. -/
theorem resetEventRestoresDefaults : Obligations.ResetEventRestoresDefaults :=
  bothProfiles_of fun _ _ N _ A e rest hp =>
    ⟨powerOn N { e with port := rest }, by rw [step_cases A e, hp], powerOn_get _, rfl, rfl, rfl, rfl, rfl, rfl,
      rfl, rfl, fun k => ⟨emptyHistory_get k, emptyHistory_get k⟩⟩

/-- Settles O53: the gap does the SETP, and the loop goes on from there. -/
theorem setpInAGapActsBeforeTheNextSample : Obligations.SetpInAGapActsBeforeTheNextSample :=
  bothProfiles_of fun _ _ _ _ _ _ _ _ left s _ _ _ _ _ _ hc hg hp hd =>
    blockLoop_eq_of_hostGap_eq left s (hostGap_of_setp hc hg hp hd)

/-- Settles O55: the PROC ends in the reset event, and of `SB` only its block is unspecified. -/
theorem resetAbandonsAProc : Obligations.ResetAbandonsAProc :=
  bothProfiles_of fun _ _ _ _ A e n nch g gs rest hr h2 hch hlen hwf hg hp => by
    have hexec := A.proc n nch e
    rw [processBlock_runs h2 hch hlen hr, runBlock_of_reset hg hp, mapNext_next] at hexec
    refine ⟨_, hexec, powerOn_get _, rfl, rfl, rfl, rfl, rfl, rfl, fun ch i hout => read_abandonBlock_other ?_ hout⟩
    exact hwf

end
end

section
/-! SUPPORT. Values of a sample step: the LFO at depth 0 (R102, R141), and the read of an empty delay line by the first SMP
of a session under profile REAL (R143). -/

namespace Sys2Proof.Machine

/-! Depth 0 (R102, R104). -/

theorem real_lfoAt_of_zero_depth {q : Params Rat} (h : isZero Machine.real q.chorusDepth) (ph : Rat) :
    lfoAt Machine.real q ph = 0 := by
  rw [lfoAt, real_mul, real_isZero.1 h, mul_zero]

/-- At a depth of either zero the LFO value is one of the two zeros. -/
theorem f32_lfoAt_of_zero_depth {q : Params Word} (h : isZero Machine.f32 q.chorusDepth) (ph : Word) :
    F32.mag (lfoAt Machine.f32 q ph) = 0 := by
  have hdepth := f32_isZero.1 h
  obtain ⟨hsine, -, -⟩ := F32.sinf_facts (F32.mul F32.twoPi ph)
  have hmul := F32.mul_of_finite hsine (F32.isFinite_of_mag_eq_zero hdepth)
  rw [hdepth, F32.units_zero, mul_zero, F32.roundUnits_zero (by positivity)] at hmul
  exact (congrArg F32.mag hmul).trans (F32.mag_ofParts_zero _)

/-- Both zeros map to the midpoint delay (R104). -/
theorem f32_delayTime_of_zero {l : Word} (h : F32.mag l = 0) : delayTime Machine.f32 l = 0x3C8F5C28#32 := by
  obtain ⟨-, hplus, hminus, -⟩ := f32_delayTime_values
  have hl : l = F32.ofParts (F32.sign l) 0 := by rw [← h, F32.ofParts_parts]
  cases hs : F32.sign l with
  | false =>
    rw [hl, hs]
    exact hplus
  | true =>
    rw [hl, hs]
    exact hminus

/-! The first read of a session (R143). -/

/-- INTERP of words that are both 0. -/
theorem real_blend_zeros (fr : Rat) : blend Machine.real 0 0 fr = 0 := by
  rw [real_blend, mul_zero, mul_zero, add_zero]

/-- With the head at 0 and a delay in `(1, CAP - 1]`, neither word that INTERP reads is at the head (R91, R111, R112). -/
theorem real_first_read_misses_head {e : Engine Rat} {t : Rat} {i : Nat} (hwh : e.wh = 0) (h1 : 1 < e.fs * t)
    (hcap : e.fs * t ≤ (e.cap : Rat) - 1) (hi : Machine.real.floorNat (readPosition Machine.real e t) = some i) :
    normaliseIndex e.cap i ≠ 0 ∧ nextIndex e.cap (normaliseIndex e.cap i) ≠ 0 := by
  have hpos : readPosition Machine.real e t = e.cap - e.fs * t := by
    rw [readPosition, wrapPosition, delaySamples, hwh, real_sub, real_mul, real_ofNat, Nat.cast_zero, real_zero,
      if_pos (by rw [real_lt]; linarith), real_add, real_ofNat]
    ring
  obtain ⟨-, hfloor⟩ := real_floorNat_eq_some.1 hi
  obtain ⟨hlow, hhigh⟩ := real_fraction hfloor
  rw [hpos] at hlow hhigh
  have hi0 : (0 : Rat) < i := by linarith
  have hi1 : (i : Rat) + 1 < e.cap := by linarith
  have hi0' : 0 < i := by exact_mod_cast hi0
  have hi1' : i + 1 < e.cap := by exact_mod_cast hi1
  rw [nextIndex, normaliseIndex, normaliseIndex, if_neg (by omega), if_neg (by omega)]
  omega

/-- In a session as a CFG leaves it, INTERP of either channel reads two words the first step did not write: the delayed
sample is 0. -/
theorem real_first_interpAt {e : Engine Rat} {x : Stereo Rat} {c : Nat} {t y : Rat} (hdl : e.dl = []) (hwh : e.wh = 0)
    (h1 : 1 < e.fs * t) (hcap : e.fs * t ≤ (e.cap : Rat) - 1)
    (h : interpAt Machine.real { e with dl := delayedRams Machine.real x e } c (readPosition Machine.real e t) = .ok y) :
    y = 0 := by
  obtain ⟨i, hi, -, rfl⟩ := interpAt_eq_ok.1 h
  obtain ⟨h0, hn⟩ := real_first_read_misses_head hwh h1 hcap hi
  have hread : ∀ j, j ≠ 0 → Memory.read Machine.real.zero (delayedRams Machine.real x e) (c, j) = 0 := fun j hj => by
    rw [delayedRams, hwh, Memory.read_write_other _ _ _ (by simp [hj]), Memory.read_write_other _ _ _ (by simp [hj]),
      hdl, Memory.read_nil, real_zero]
  rw [hread _ h0, hread _ hn, real_blend_zeros]

end Sys2Proof.Machine

section

open Sys2Proof Sys2Proof.Machine

/-- Settles O30: the LFO value is a zero, and every zero maps to the midpoint. -/
theorem zeroDepthFixesTheDelay : Obligations.ZeroDepthFixesTheDelay := by
  refine ⟨fun q e h => ?_, fun q e h => ?_⟩
  · have hmid : ∀ ph, delayTime Machine.real (lfoAt Machine.real q ph) = 7 / 400 := fun ph => by
      rw [real_lfoAt_of_zero_depth h, real_delayTime, mul_zero, add_zero]
    exact congrArg₂ Stereo.mk (hmid _) (hmid _)
  · have hmid : ∀ ph, delayTime Machine.f32 (lfoAt Machine.f32 q ph) = 0x3C8F5C28#32 := fun ph =>
      f32_delayTime_of_zero (f32_lfoAt_of_zero_depth h ph)
    exact congrArg₂ Stereo.mk (hmid _) (hmid _)

/-- Settles O36: the sample step, with both floors given, answers the state and the outputs as its stages compute them. -/
theorem smpComputesTheSampleStep : Obligations.SmpComputesTheSampleStep :=
  bothProfiles_of fun _ _ N inj A e a b l r i j => by
    intro off phR adv time behind pos dl' tap yL yR out hr hstale ha hb hwh hi hj hic hjc
    have hcap : 1 ≤ e.cap := Nat.one_le_of_lt hwh
    have hy : interp N (readPositions N e.p e e) { e with dl := delayedRams N ⟨l, r⟩ e } = .ok ⟨yL, yR⟩ :=
      interp_eq_ok.2 ⟨interpAt_eq_ok.2 ⟨i, hi, normaliseIndex_lt hcap hic, rfl⟩,
        interpAt_eq_ok.2 ⟨j, hj, normaliseIndex_lt hcap hjc, rfl⟩⟩
    have hs : sampleStep N false ⟨l, r⟩ e = .ok (afterStep N e.p ⟨l, r⟩ ⟨yL, yR⟩ e, ⟨out l yL, out r yR⟩) := by
      rw [sampleStep, snapshot_of_not_stale _ hstale, afterSnapshot_of_not_stale hstale]
      exact sampleStepWith_eq_ok.2 ⟨hwh, ⟨yL, yR⟩, hy, rfl, rfl⟩
    exact A.exec_smp ha hb hr hs

/-- Settles O51: the delayed samples are 0, so that MIXOUT leaves `x (1 - mix)`. -/
theorem firstOutputIsDry : Obligations.FirstOutputIsDry := by
  intro e a b l r he hr hstale hdl _ hwh ha hb hdelay
  obtain ⟨d, o, hs, hexec⟩ := actsOn_real.exec_smp_completes real_safe he hr ha hb
  obtain ⟨-, ⟨yl, yr⟩, hy, -, ho⟩ := sampleStep_eq_ok.1 hs
  rw [snapshot_of_not_stale _ hstale] at hy ho
  obtain ⟨hyl, hyr⟩ := interp_eq_ok.1 hy
  obtain ⟨hl1, hlcap⟩ := hdelay _ (.inl rfl)
  obtain ⟨hr1, hrcap⟩ := hdelay _ (.inr rfl)
  obtain rfl : yl = 0 := real_first_interpAt hdl hwh hl1 hlcap hyl
  obtain rfl : yr = 0 := real_first_interpAt hdl hwh hr1 hrcap hyr
  have hdry : ∀ x, mixAt Machine.real e.p.mix x 0 = x * (1 - e.p.mix) := fun x => by
    rw [real_mixAt, zero_mul, add_zero]
  refine ⟨_, hexec, ?_⟩
  rw [respondOk_responses, sampleStep_responses hs, ho, mixOut, hdry, hdry]

end
end
